-- ==== Sys2Proof/Word.lean ====
section
/-! DEFINITION. The word types of the block: every register and data byte is 8 bits (00 R8 DATA_BITS), a
concentrator register address is 7 bits (R52), a page is 0..3 (R51), an error cause is 8 bits (00 R8 CAUSE_BITS),
a command or response word is 32 bits (R80, R90). -/

namespace Sys2Proof

/-- A concentrator register value or data byte (00 R8 `DATA_BITS` = 8). -/
abbrev Byte := BitVec 8

/-- A concentrator register address, 0..127 (20 R52, `REG_ADDR_BITS` = 7). -/
abbrev RegAddr := BitVec 7

/-- A page, 0..3 (20 R51, `N_PAGES` = 4). -/
abbrev Page := BitVec 2

/-- The cause an environment agent reports with an error (00 R8 `CAUSE_BITS` = 8). -/
abbrev Cause := BitVec 8

/-- A command word (30 R80) or a response word (30 R90). -/
abbrev Word := BitVec 32

/-- The two sub-bus endpoints (10 R28, `N_ENDPOINTS` = 2). -/
inductive Endpoint where
  | a
  | b
deriving DecidableEq, Repr

/-- Every endpoint. -/
def Endpoint.all : List Endpoint := [.a, .b]

end Sys2Proof
end

