-- ==== Sys2Proof/Config.lean ====
section
/-! DEFINITION. What is fixed for the machine: the named parameters of 00 R8 with the source's value as the default of
each (93 U14), and the free value the environment's answers come from (20 R60). -/

namespace Sys2Proof

/-- The implementation parameters of 00 R8, each with the value the source gives as its default. The widths and counts
are the first five fields; the types of Word.lean have them (`Config.byte_width` to `Config.endpoint_count`). -/
structure Config.Params where
  /-- `DATA_BITS`: the width of every register and every data byte. -/
  dataBits : Nat := 8
  /-- `REG_ADDR_BITS`: the width of a concentrator register address. -/
  regAddrBits : Nat := 7
  /-- `N_PAGES`. -/
  nPages : Nat := 4
  /-- `N_ENDPOINTS`. -/
  nEndpoints : Nat := 2
  /-- `CAUSE_BITS`: the width of an error cause carried in a response (92 D5). -/
  causeBits : Nat := 8
  /-- `PAGE_MASK`: the bits of a page number that are written to the page register. -/
  pageMask : Byte := 0x03
  /-- `PAGE_REG`: the page-select and soft-reset register. -/
  pageReg : RegAddr := 0
  /-- `SOFT_RESET_BIT`. -/
  softResetBit : Nat := 7
  /-- `ID_REG`: the identity register. -/
  idReg : RegAddr := 1
  /-- `ID_EXPECTED`. -/
  idExpected : Byte := 103
  /-- `GEN_REG` and `GEN_BIT`: global enable, on page 0. -/
  genReg : RegAddr := 16
  genBit : Nat := 3
  /-- `CLK_REG` and `CLK_BIT`: 32 MHz clock enable, on page 0. -/
  clkReg : RegAddr := 17
  clkBit : Nat := 0
  /-- The page of `GEN_REG` and `CLK_REG`. -/
  pageCtrl : Page := 0
  /-- `PAGE_RADIO`: the page of both radio windows and of `RCTRL_REG`. -/
  pageRadio : Page := 2
  /-- `BASE_A` and `BASE_B`. -/
  baseA : RegAddr := 33
  baseB : RegAddr := 38
  /-- Offsets within a radio window: `OFF_DATA`, `OFF_RB`, `OFF_ADDR`, `OFF_CS`. -/
  offData : RegAddr := 0
  offRb : RegAddr := 1
  offAddr : RegAddr := 2
  offCs : RegAddr := 4
  /-- `CS_BIT`. -/
  csBit : Nat := 0
  /-- `RCTRL_REG` and its bits. -/
  rctrlReg : RegAddr := 43
  aEnBit : Nat := 0
  bEnBit : Nat := 1
  rrstBit : Nat := 2
  /-- `LEN_MIN` and `LEN_MAX`. -/
  lenMin : Nat := 1
  lenMax : Nat := 3
  /-- Minimum delays in milliseconds: `T_RST_HOLD`, `T_RST_RELEASE`, `T_SETTLE`, `T_RPULSE` (R200). -/
  tRstHold : Nat := 100
  tRstRelease : Nat := 100
  tSettle : Nat := 500
  tRpulse : Nat := 5
  /-- `WRITE_FLAG`: bit 7 of a write frame's first byte. PRESUMED: general knowledge, 93 G1; log 14. -/
  writeFlag : Bool := true
deriving DecidableEq, Repr

/-- The parameters this machine has: every default. -/
def Config.hw : Config.Params := { }

/-- A register value or data byte has `DATA_BITS` bits. -/
theorem Config.byte_width : Byte = BitVec Config.hw.dataBits := rfl

/-- A register address has `REG_ADDR_BITS` bits. -/
theorem Config.regAddr_width : RegAddr = BitVec Config.hw.regAddrBits := rfl

/-- A page number has the bits that `N_PAGES` pages need. -/
theorem Config.page_width : Page = BitVec (Nat.log2 Config.hw.nPages) := rfl

/-- A cause has `CAUSE_BITS` bits. -/
theorem Config.cause_width : Cause = BitVec Config.hw.causeBits := rfl

/-- There are `N_ENDPOINTS` endpoints. -/
theorem Config.endpoint_count : Endpoint.all.length = Config.hw.nEndpoints ∧ ∀ ep, ep ∈ Endpoint.all :=
  ⟨rfl, fun ep => by cases ep <;> simp [Endpoint.all]⟩

/-- One answer of an environment agent (20 R60): `ok v` is Ok, with the byte `v` where the request was a read, and
`err c` is Err with the cause `c`. -/
inductive Answer where
  | ok (v : Byte)
  | err (c : Cause)
deriving DecidableEq, Repr, Inhabited

/-- FREE VALUE: the answer the environment gives to the block's `n`-th request. Nothing constrains it
(20 R60, 93 U7, U9, U17); log 1. -/
opaque Config.freeAnswer : Nat → Answer

end Sys2Proof
end

