-- ==== Sys2Proof/Syntax.lean ====
section
/-! DEFINITION. The instructions: the six commands of CMD (30 R82) and the two BUS frames (30 R98), one constructor
per row of spec/opcode_table.json. -/

namespace Sys2Proof

/-- The commands and frames. `len` is a natural number, as 30 R81 and R89 read it; a length above 15 has no encoding.
`x` holds, most significant first, the bits of the word that the operation ignores (30 R81, 93 V3): they have no
effect, and they are kept so that `REQ` holds the word as it was sent (log 22). -/
inductive Instr where
  /-- `ENSURE_PAGE` (R83): `p` = PG; `x` = 27:22, 15:0. -/
  | ensurePage (p : Page) (x : BitVec 22)
  /-- `SOFT_RESET` (R84): `x` = 27:22, 17:0. -/
  | softReset (x : BitVec 24)
  /-- `XFER_WR` (R85): EP, LEN, DV, ADDR, DATA; `x` = 17:16. -/
  | xferWr (ep : Endpoint) (len : Nat) (dv : Bool) (addr : Byte) (data : Byte) (x : BitVec 2)
  /-- `XFER_RD` (R85): EP, LEN; `x` = 22, 17:0. -/
  | xferRd (ep : Endpoint) (len : Nat) (x : BitVec 19)
  /-- `ATTACH` (R86): RSTP; `x` = 27:22, 17, 15:0. -/
  | attach (rstp : Bool) (x : BitVec 23)
  /-- `DETACH` (R87): `x` = 27:22, 17:0. -/
  | detach (x : BitVec 24)
  /-- `BUS_WR` (R101): the write frame of `MemWrite(a, 1, v)`. -/
  | busWr (a : RegAddr) (v : Byte)
  /-- `BUS_RD` (R102): the read frame of `MemRead(a, 1)`. -/
  | busRd (a : RegAddr)
deriving DecidableEq, Repr

end Sys2Proof
end

