-- ==== Sys2Proof/WellFormed.lean ====
section
/-! DEFINITION. Which instructions have an encoding: a transfer's length fits the 4-bit field `LEN` (30 R81); every
other operand's type is exactly its field. -/

namespace Sys2Proof

/-- `LEN` is 4 bits, 0..15 (30 R81, R85). The lengths 0 and 4..15 are encodable and are refused when executed (R152). -/
abbrev LenEncodable (len : Nat) : Prop := len < 16

/-- An instruction that some word or frame spells. -/
def Instr.WellFormed : Instr → Prop
  | .ensurePage _ _ => True
  | .softReset _ => True
  | .xferWr _ len _ _ _ _ => LenEncodable len
  | .xferRd _ len _ => LenEncodable len
  | .attach _ _ => True
  | .detach _ => True
  | .busWr _ _ => True
  | .busRd _ => True

/-- The check of `Instr.WellFormed` as a Bool, for evaluation. -/
def Instr.wellFormed : Instr → Bool
  | .ensurePage _ _ => true
  | .softReset _ => true
  | .xferWr _ len _ _ _ _ => decide (LenEncodable len)
  | .xferRd _ len _ => decide (LenEncodable len)
  | .attach _ _ => true
  | .detach _ => true
  | .busWr _ _ => true
  | .busRd _ => true

end Sys2Proof
end

