-- ==== Sys2Proof/Decode.lean ====
section
/-! DEFINITION. The decoder of command words (30 R81 to R89, R95) and of BUS frames (30 R99 to R103), total on every
input and refusing by name; then the encoder, from the same tables; then the assembler of 30 R106. -/

namespace Sys2Proof

/-- Why a word or a frame spells no instruction. -/
inductive DecodeError where
  /-- `OP` is 0x0 or 0x7..0xF (30 R88, 93 V1). -/
  | illegalOp (op : BitVec 4)
  /-- `RSV` is not 0 (30 R88, 93 V2). -/
  | reservedBits (rsv : BitVec 4)
  /-- No byte of a frame is there. -/
  | emptyFrame
  /-- A write frame's first byte without its second (30 R103). -/
  | incompleteWrite
  /-- Bytes follow a whole frame. -/
  | trailingBytes
deriving DecidableEq, Repr

/-- What a requester or the block sends: a command word on CMD or the bytes of a frame on BUS. -/
inductive Code where
  | command (w : Word)
  | frame (bytes : List Byte)
deriving DecidableEq, Repr

/-- A field put into a word of `n` bits with its bit 0 at bit `lo` (00 R11). -/
def place (n lo : Nat) (v : BitVec m) : BitVec n := v.setWidth n <<< lo

/-! ### Command words -/

/-- `OP`, bits 31:28. -/
def fieldOp (w : Word) : BitVec 4 := w.extractLsb' 28 4
/-- `LEN`, bits 27:24. -/
def fieldLen (w : Word) : BitVec 4 := w.extractLsb' 24 4
/-- `EP`, bit 23. -/
def fieldEp (w : Word) : BitVec 1 := w.extractLsb' 23 1
/-- `DV`, bit 22. -/
def fieldDv (w : Word) : BitVec 1 := w.extractLsb' 22 1
/-- `RSV`, bits 21:18. -/
def fieldRsv (w : Word) : BitVec 4 := w.extractLsb' 18 4
/-- `PG`, bits 17:16. -/
def fieldPg (w : Word) : BitVec 2 := w.extractLsb' 16 2
/-- `RSTP` of ATTACH, bit 16 (R86). -/
def fieldRstp (w : Word) : BitVec 1 := w.extractLsb' 16 1
/-- `ADDR`, bits 15:8. -/
def fieldAddr (w : Word) : Byte := w.extractLsb' 8 8
/-- `DATA`, bits 7:0. -/
def fieldData (w : Word) : Byte := w.extractLsb' 0 8

/-- `EP`: 0 = radio A, 1 = radio B (30 R81). -/
def endpointOfBit (e : BitVec 1) : Endpoint := if e = 1 then .b else .a

/-- The `EP` bit of an endpoint (10 R28). -/
def Endpoint.bit : Endpoint → BitVec 1
  | .a => 0
  | .b => 1

/-- A one-bit field as a truth value. -/
def boolOfBit (b : BitVec 1) : Bool := b == 1

/-- The one-bit field of a truth value. -/
def bitOfBool (b : Bool) : BitVec 1 := if b then 1 else 0

/-- Decoding of a command word (30 R95), total on every word: the reserved field is checked for every operation. -/
def decodeCommand (w : Word) : Except DecodeError Instr :=
  if fieldRsv w ≠ 0 then .error (.reservedBits (fieldRsv w))
  else match (fieldOp w).toNat with
    | 1 => .ok (.ensurePage (fieldPg w) (place 22 16 (w.extractLsb' 22 6) ||| place 22 0 (w.extractLsb' 0 16)))
    | 2 => .ok (.softReset (place 24 18 (w.extractLsb' 22 6) ||| place 24 0 (w.extractLsb' 0 18)))
    | 3 => .ok (.xferWr (endpointOfBit (fieldEp w)) (fieldLen w).toNat (boolOfBit (fieldDv w)) (fieldAddr w)
        (fieldData w) (w.extractLsb' 16 2))
    | 4 => .ok (.xferRd (endpointOfBit (fieldEp w)) (fieldLen w).toNat
        (place 19 18 (w.extractLsb' 22 1) ||| place 19 0 (w.extractLsb' 0 18)))
    | 5 => .ok (.attach (boolOfBit (fieldRstp w))
        (place 23 17 (w.extractLsb' 22 6) ||| place 23 16 (w.extractLsb' 17 1) ||| place 23 0 (w.extractLsb' 0 16)))
    | 6 => .ok (.detach (place 24 18 (w.extractLsb' 22 6) ||| place 24 0 (w.extractLsb' 0 18)))
    | _ => .error (.illegalOp (fieldOp w))

/-! ### BUS frames -/

/-- The first byte of a frame: `(d << 7) | a[6:0]` (30 R99). -/
def frameByte (d : Bool) (a : RegAddr) : Byte := place 8 7 (bitOfBool d) ||| place 8 0 a

/-- Decoding of the next frame of a byte sequence, with the bytes after it (30 R103): bit 7 of the first byte tells a
write frame, which has one more byte, from a read frame. -/
def decodeFrame : List Byte → Except DecodeError (Instr × List Byte)
  | [] => .error .emptyFrame
  | b :: rest =>
    if b.msb = Config.hw.writeFlag then
      match rest with
      | [] => .error .incompleteWrite
      | v :: rest' => .ok (.busWr (b.extractLsb' 0 7) v, rest')
    else .ok (.busRd (b.extractLsb' 0 7), rest)

/-- Decoding of a word or of exactly one frame. -/
def decode : Code → Except DecodeError Instr
  | .command w => decodeCommand w
  | .frame bytes =>
    match decodeFrame bytes with
    | .error e => .error e
    | .ok (i, []) => .ok i
    | .ok (_, _ :: _) => .error .trailingBytes

/-- The bytes of a value of `n` bytes laid out first byte first (30 R101: byte 0 is the most significant). -/
def bytesOfNat : Nat → Nat → List Byte
  | 0, _ => []
  | n + 1, w => BitVec.ofNat 8 (w / 256 ^ n) :: bytesOfNat n w

/-- The instruction the decoder reads from a row of spec/opcode_table.json: a 32-bit row is a command word, a 16-bit or
8-bit row is a frame, written with its first byte most significant (30 R101). -/
def decodeTableWord (nbits w : Nat) : Option Instr :=
  match nbits with
  | 32 => (decodeCommand (BitVec.ofNat 32 w)).toOption
  | 16 => (decode (.frame (bytesOfNat 2 w))).toOption
  | 8 => (decode (.frame (bytesOfNat 1 w))).toOption
  | _ => none

/-! ### Encoder -/

/-- The command word of each command (30 R81 to R87): its `OP`, its operands and the ignored bits, each at its place, and
`RSV` zero. A frame has no command word, and 0 spells no command. -/
def encodeWord : Instr → Word
  | .ensurePage p x =>
    place 32 28 1#4 ||| place 32 22 (x.extractLsb' 16 6) ||| place 32 16 p ||| place 32 0 (x.extractLsb' 0 16)
  | .softReset x => place 32 28 2#4 ||| place 32 22 (x.extractLsb' 18 6) ||| place 32 0 (x.extractLsb' 0 18)
  | .xferWr ep len dv addr data x =>
    place 32 28 3#4 ||| place 32 24 (BitVec.ofNat 4 len) ||| place 32 23 ep.bit ||| place 32 22 (bitOfBool dv)
      ||| place 32 16 x ||| place 32 8 addr ||| place 32 0 data
  | .xferRd ep len x =>
    place 32 28 4#4 ||| place 32 24 (BitVec.ofNat 4 len) ||| place 32 23 ep.bit
      ||| place 32 22 (x.extractLsb' 18 1) ||| place 32 0 (x.extractLsb' 0 18)
  | .attach rstp x =>
    place 32 28 5#4 ||| place 32 22 (x.extractLsb' 17 6) ||| place 32 17 (x.extractLsb' 16 1)
      ||| place 32 16 (bitOfBool rstp) ||| place 32 0 (x.extractLsb' 0 16)
  | .detach x => place 32 28 6#4 ||| place 32 22 (x.extractLsb' 18 6) ||| place 32 0 (x.extractLsb' 0 18)
  | .busWr _ _ => 0
  | .busRd _ => 0

/-- The bytes sent for each frame (30 R101, R102); a command sends none itself. -/
def encodeFrame : Instr → List Byte
  | .ensurePage _ _ => []
  | .softReset _ => []
  | .xferWr _ _ _ _ _ _ => []
  | .xferRd _ _ _ => []
  | .attach _ _ => []
  | .detach _ => []
  | .busWr a v => [frameByte Config.hw.writeFlag a, v]
  | .busRd a => [frameByte (!Config.hw.writeFlag) a]

/-- The command word or the frame that spells an instruction. -/
def encode (i : Instr) : Code :=
  match i with
  | .ensurePage _ _ => .command (encodeWord i)
  | .softReset _ => .command (encodeWord i)
  | .xferWr _ _ _ _ _ _ => .command (encodeWord i)
  | .xferRd _ _ _ => .command (encodeWord i)
  | .attach _ _ => .command (encodeWord i)
  | .detach _ => .command (encodeWord i)
  | .busWr _ _ => .frame (encodeFrame i)
  | .busRd _ => .frame (encodeFrame i)

/-! ### Assembler syntax (30 R106) -/

/-- A line of the assembler (30 R106). `data` is present exactly when the line gives a fourth operand. -/
inductive Asm where
  | ensurePage (p : Page)
  | softReset
  | xferWr (ep : Endpoint) (len : BitVec 4) (addr : Byte) (data : Option Byte)
  | xferRd (ep : Endpoint) (len : BitVec 4)
  | attach (rst : Bool)
  | detach
deriving DecidableEq, Repr

/-- The word of a line, by the table of 30 R106: every ignored field is written as 0. -/
def assemble : Asm → Word
  | .ensurePage p => 0x10000000#32 ||| place 32 16 p
  | .softReset => 0x20000000#32
  | .xferWr ep len addr none => 0x30000000#32 ||| place 32 24 len ||| place 32 23 ep.bit ||| place 32 8 addr
  | .xferWr ep len addr (some data) =>
    0x30400000#32 ||| place 32 24 len ||| place 32 23 ep.bit ||| place 32 8 addr ||| place 32 0 data
  | .xferRd ep len => 0x40000000#32 ||| place 32 24 len ||| place 32 23 ep.bit
  | .attach false => 0x50000000#32
  | .attach true => 0x50010000#32
  | .detach => 0x60000000#32

/-- The command a line of the assembler stands for. -/
def Asm.instr : Asm → Instr
  | .ensurePage p => .ensurePage p 0
  | .softReset => .softReset 0
  | .xferWr ep len addr none => .xferWr ep len.toNat false addr 0 0
  | .xferWr ep len addr (some data) => .xferWr ep len.toNat true addr data 0
  | .xferRd ep len => .xferRd ep len.toNat 0
  | .attach rst => .attach rst 0
  | .detach => .detach 0

end Sys2Proof
end

