-- ==== Sys2Proof/Machine/State.lean ====
section
/-! DEFINITION. The state of the block (10_state.md), what is known of the environment, the channels (00 R9) and the
open choices; the reasons a step can stop; the state after block reset (10 R37). -/

namespace Sys2Proof.Machine

/-! ### Types of the block's registers, with the spec's encodings -/

/-- `CUR_PAGE` (10 R21). -/
inductive CurPage where
  | page (p : Page)
  | unknown
deriving DecidableEq, Repr

/-- The 3-bit encoding of `CUR_PAGE`: 0..3 a page, 7 `UNKNOWN` (10 R21). -/
def CurPage.bits : CurPage → BitVec 3
  | .page p => p.setWidth 3
  | .unknown => 7

/-- `LOCK` (10 R24). -/
inductive Lock where
  | free
  | lcu
  | bsq
deriving DecidableEq, Repr

/-- The 2-bit encoding of `LOCK`. -/
def Lock.bits : Lock → BitVec 2
  | .free => 0
  | .lcu => 1
  | .bsq => 2

/-- `LC`, the lifecycle state (10 R25). -/
inductive Lifecycle where
  | detached
  | attaching
  | running
deriving DecidableEq, Repr

/-- The 2-bit encoding of `LC`. -/
def Lifecycle.bits : Lifecycle → BitVec 2
  | .detached => 0
  | .attaching => 1
  | .running => 2

/-- `pc_LCU` (10 R30). -/
inductive LcuPc where
  | idle
  | step1
  | step2
  | step3
  | step4
  | step5
  | step6
  | step7
  | step8
  | unwind
  | detach
deriving DecidableEq, Repr

/-- The 4-bit encoding of `pc_LCU`. -/
def LcuPc.bits : LcuPc → BitVec 4
  | .idle => 0
  | .step1 => 1
  | .step2 => 2
  | .step3 => 3
  | .step4 => 4
  | .step5 => 5
  | .step6 => 6
  | .step7 => 7
  | .step8 => 8
  | .unwind => 9
  | .detach => 10

/-- `pc_BSQ` (10 R31). -/
inductive BsqPc where
  | idle
  | pageSwitching
  | addressPhase
  | dataPhase
  | csPulse
  | readBack
  | done
  | failed
  | pageOp
  | srstOp
deriving DecidableEq, Repr

/-- The 4-bit encoding of `pc_BSQ`. -/
def BsqPc.bits : BsqPc → BitVec 4
  | .idle => 0
  | .pageSwitching => 1
  | .addressPhase => 2
  | .dataPhase => 3
  | .csPulse => 4
  | .readBack => 5
  | .done => 6
  | .failed => 7
  | .pageOp => 8
  | .srstOp => 9

/-- Where LCU stands inside `L_STEP8` (42 R189, R190): the step's events lie outside `LOCK`, so the other agent can
move between any two of them. DEDUCED from the pseudocode; log 6. -/
inductive RegPhase where
  /-- `EP_LIVE[A]` is not set yet. -/
  | start
  /-- `Register(A)` is asked and not answered. -/
  | waitA
  /-- `Register(A)` was answered Ok and `EP_LIVE[B]` is not set yet. -/
  | gotA
  /-- `Register(B)` is asked and not answered. -/
  | waitB
  /-- `Register(B)` was answered Ok and the response is not sent yet. -/
  | gotB
deriving DecidableEq, Repr

/-! ### Channels -/

/-- The reset line's level, as GPIO carries it (42 R181). -/
inductive LineLevel where
  | active
  | inactive
deriving DecidableEq, Repr

/-- The diagnostic tags of LOG (60 R247). -/
inductive LogTag where
  | csReadFailed
  | csAssertFailed
  | csDeassertFailed
deriving DecidableEq, Repr

/-- One event of the block on a channel (30 R107). `fail` is `none` for an answer Ok and the cause for Err. -/
inductive Event where
  /-- `WR a, v`: a write exchange on BUS. -/
  | wr (a : RegAddr) (v : Byte) (fail : Option Cause)
  /-- `RD a -> r`: a read exchange on BUS. -/
  | rd (a : RegAddr) (r : Answer)
  /-- `CFG -> ...`. -/
  | cfg (fail : Option Cause)
  /-- `GPIO ACTIVE`, `GPIO INACTIVE`. -/
  | gpio (l : LineLevel)
  /-- `DELAY >= ms`: the delay's lower bound (60 R241). -/
  | delay (ms : Nat)
  /-- `REG ep -> ...`. -/
  | reg (ep : Endpoint) (fail : Option Cause)
  /-- `UNREG ep`. -/
  | unreg (ep : Endpoint)
  /-- `LOG tag`. -/
  | log (tag : LogTag)
  /-- `RESP w`: a response word on CMD. -/
  | resp (w : Word)
deriving DecidableEq, Repr

/-- What an exchange on BUS gave back: a write that succeeded, the byte of a read that succeeded, or a cause. -/
inductive BusReply where
  | done
  | byte (v : Byte)
  | failed (c : Cause)
deriving DecidableEq, Repr

/-- One choice that the spec leaves open (00 R8 `ARB`, 60 R231): what the block does next. -/
inductive Turn where
  /-- The waiting command of this index is served, and its agent runs it to its end with no other agent between. -/
  | serve (k : Nat)
  /-- The waiting command of this index is handed to its agent, which stops at its first sequencer state, or waits for the lock. -/
  | start (k : Nat)
  /-- LCU performs the actions of its present sequencer state. -/
  | lcu
  /-- BSQ performs the actions of its present sequencer state. -/
  | bsq
deriving DecidableEq, Repr

/-- A set of pages. -/
structure PageSet where
  p0 : Bool
  p1 : Bool
  p2 : Bool
  p3 : Bool
deriving DecidableEq, Repr

/-- What is recorded of the concentrator's registers: pairs of a register's key and the last value written to it
(20 R51), by rising key; a register that is not listed has no recorded value. -/
abbrev Memory := List Host.Cell

/-- What is known of the concentrator, environment state that the block never reads (10 R35, 20 R60). -/
structure Chip where
  /-- The pages that `CHIP_PAGE` may be (10 R35, 93 U1, U2; log 7). -/
  pages : PageSet
  /-- The last values written to the concentrator's registers, as far as they are known (20 R51, R58; log 8). -/
  mem : Memory
deriving DecidableEq, Repr

/-! ### The state -/

/-- The whole state. The first group is the block's registers (10 R20); the second is what is known of the
environment; the third is the channels and the open choices. -/
structure State where
  /-- `CUR_PAGE` (10 R21). -/
  curPage : CurPage
  /-- `INST` (10 R23). -/
  inst : Bool
  /-- `LOCK` (10 R24). -/
  lock : Lock
  /-- `LC` (10 R25). -/
  lc : Lifecycle
  /-- `RSTP` (10 R26). -/
  rstp : Bool
  /-- `EP_LIVE[A]` (10 R27). -/
  epLiveA : Bool
  /-- `EP_LIVE[B]` (10 R27). -/
  epLiveB : Bool
  /-- `pc_LCU` (10 R30). -/
  pcLcu : LcuPc
  /-- `pc_BSQ` (10 R31). -/
  pcBsq : BsqPc
  /-- `REQ` of LCU (10 R32; one per agent: DEDUCED, log 4); `none` is the spec's "no value" (10 R37). -/
  reqLcu : Option Word
  /-- `REQ` of BSQ. -/
  reqBsq : Option Word
  /-- BSQ holds a command in `REQ` and waits in `Acquire`, before its first sequencer state: `pc_BSQ` is still `IDLE`
  (30 R95, 10 R24; log 25). -/
  bsqWaits : Bool
  /-- `TMP` (10 R32), as the other registers without a value at reset `none` until first written (log 5). -/
  tmp : Option Byte
  /-- `CSV` (10 R32). -/
  csv : Option Byte
  /-- `DEG` (10 R32). -/
  deg : Bool
  /-- `RESP` of LCU (10 R32; one per agent: DEDUCED, log 4). -/
  respLcu : Option Word
  /-- `RESP` of BSQ. -/
  respBsq : Option Word
  /-- Where LCU stands inside `L_STEP8` (42 R189, R190; log 6). -/
  regPhase : RegPhase
  /-- What is known of the concentrator: the pages `CHIP_PAGE` may be, and the last values written (10 R35, 20 R51). -/
  chip : Chip
  /-- The level the block last drove the reset line to; `none`: not driven yet, unknown (42 R181, 92 D13; log 10). -/
  resetLine : Option LineLevel
  /-- The environment's next answers (20 R60; log 1). -/
  answers : List Answer
  /-- How many answers were drawn (log 1). -/
  drawn : Nat
  /-- The open choices to come (00 R8 `ARB`; log 2). -/
  turns : List Turn
  /-- The commands waiting on CMD (30 R96; log 16). -/
  cmd : List Word
  /-- Bytes of a frame presented to the transport outside any command (30 R103; log 11). -/
  busPort : List Byte
  /-- The result of the last exchange on BUS (00 R9; log 11). -/
  busReply : Option BusReply
  /-- Everything the block did on its channels, oldest first (20 R74; log 28). -/
  events : List Event
deriving DecidableEq, Repr

/-- Why a step stops. No instruction's meaning faults: the block has no traps (60 R220). -/
inductive Fault where
  /-- Raised by `step` when an agent is in mid-command and the register it needs (`REQ`, or `RESP` in `L_UNWIND`,
  `DONE` and `FAILED`) holds no value. Safe: no run reaches such a state (10 R32; `State.Inv`); log 21. -/
  | noValue
  /-- Raised by `step` when BSQ's sequencer state is not on the path of the command in `REQ` (10 R31). Safe: no run
  reaches such a state; log 21. -/
  | offPath
deriving DecidableEq, Repr

/-- Why an instruction has no meaning here. -/
inductive Refusal where
  /-- An instruction not modelled yet: raised by `exec` only. No arm does. Safe. -/
  | notModelled (mnemonic : String)
  /-- Raised by `step` when the bytes on the BUS port are not a frame: a write frame whose second byte is missing
  (30 R103). The block never sends one (30 R98). Safe; log 13. -/
  | incompleteFrame
deriving DecidableEq, Repr

/-- How a step of this machine ends. -/
abbrev Result := Host.Outcome State Fault Refusal

/-- Every page. -/
def PageSet.all : PageSet := { p0 := true, p1 := true, p2 := true, p3 := true }

/-- Block reset (10 R37, 70 R260): the spec's values for the block's registers. The environment's record holds nothing
(logs 7, 8, 10), BSQ does not wait for the lock (log 18), no answer or choice is given ahead (logs 1, 2), nothing is on a channel (logs 11, 16, 28). -/
def State.reset : State where
  curPage := .unknown
  inst := false
  lock := .free
  lc := .detached
  rstp := false
  epLiveA := false
  epLiveB := false
  pcLcu := .idle
  pcBsq := .idle
  reqLcu := none
  reqBsq := none
  bsqWaits := false
  tmp := none
  csv := none
  deg := false
  respLcu := none
  respBsq := none
  regPhase := .start
  chip := { pages := .all, mem := [] }
  resetLine := none
  answers := []
  drawn := 0
  turns := []
  cmd := []
  busPort := []
  busReply := none
  events := []

end Sys2Proof.Machine
end

