-- ==== Sys2Proof/Machine/Flags.lean ====
section
/-! DEFINITION. The response word (30 R90), its codes and phases (30 R91, R93), the response of every error (30 R92)
and of every success (30 R94), with the flag `DEG`; and what a requester does with the response of a read transfer
(10 R34, 41 R161). -/

namespace Sys2Proof.Machine

/-- The phases of `TRANSFER_FAILED` that are sent (30 R93); phase 3 `CS` never is (60 R229). -/
inductive Phase where
  | pageSwitch
  | address
  | data
  | readback
deriving DecidableEq, Repr

/-- Phase codes (30 R93). -/
def Phase.code : Phase → BitVec 3
  | .pageSwitch => 0
  | .address => 1
  | .data => 2
  | .readback => 4

/-- The error kinds with the information each carries (30 R91, 60 R221 to R228). -/
inductive CmdError where
  | busError (c : Cause)
  | invalidLength
  | unexpectedIdentity (v : Byte)
  | transferFailed (ph : Phase) (c : Cause)
  | registrationFailed (c : Cause)
  | notAttached
  | alreadyAttached
  | illegalCommand
deriving DecidableEq, Repr

/-- Result codes (30 R91). -/
def CmdError.code : CmdError → BitVec 4
  | .busError _ => 1
  | .invalidLength => 2
  | .unexpectedIdentity _ => 3
  | .transferFailed _ _ => 4
  | .registrationFailed _ => 5
  | .notAttached => 6
  | .alreadyAttached => 7
  | .illegalCommand => 8

/-- The response word of 30 R90: `RIDX` 25:24, `RDATA` 23:16, `CAUSE` 15:8, `DEG` 7, `PHASE` 6:4, `CODE` 3:0, and
31:26 zero. -/
def responseWord (code : BitVec 4) (phase : BitVec 3) (deg : Bool) (cause rdata : Byte) (ridx : BitVec 2) : Word :=
  place 32 24 ridx ||| place 32 16 rdata ||| place 32 8 cause ||| place 32 7 (bitOfBool deg) ||| place 32 4 phase
    ||| place 32 0 code

/-- The response of `raise E(info)` (30 R92): the cause unchanged. -/
def CmdError.word (e : CmdError) : Word :=
  match e with
  | .busError c => responseWord e.code 0 false c 0 0
  | .invalidLength => responseWord e.code 0 false 0 0 0
  | .unexpectedIdentity v => responseWord e.code 0 false 0 v 0
  | .transferFailed ph c => responseWord e.code ph.code false c 0 0
  | .registrationFailed c => responseWord e.code 0 false c 0 0
  | .notAttached => responseWord e.code 0 false 0 0 0
  | .alreadyAttached => responseWord e.code 0 false 0 0 0
  | .illegalCommand => responseWord e.code 0 false 0 0 0

/-- `OK` (30 R94). -/
def okWord : Word := responseWord 0 0 false 0 0 0

/-- The response of a write transfer that was performed: `DEG << 7` (30 R94). -/
def writeDoneWord (deg : Bool) : Word := responseWord 0 0 deg 0 0 0

/-- The response of a read transfer that was performed: `(RIDX << 24) | (RDATA << 16)`, `RIDX = LEN - 1` (30 R94). -/
def readDoneWord (len : Nat) (v : Byte) : Word := responseWord 0 0 false 0 v (BitVec.ofNat 2 (len - 1))

/-! ### Fields of a response -/

/-- `CODE`, bits 3:0. -/
def respCode (w : Word) : BitVec 4 := w.extractLsb' 0 4
/-- `PHASE`, bits 6:4. -/
def respPhase (w : Word) : BitVec 3 := w.extractLsb' 4 3
/-- `DEG`, bit 7. -/
def respDeg (w : Word) : BitVec 1 := w.extractLsb' 7 1
/-- `CAUSE`, bits 15:8. -/
def respCause (w : Word) : Byte := w.extractLsb' 8 8
/-- `RDATA`, bits 23:16. -/
def respRdata (w : Word) : Byte := w.extractLsb' 16 8
/-- `RIDX`, bits 25:24. -/
def respRidx (w : Word) : BitVec 2 := w.extractLsb' 24 2
/-- Bits 31:26, always 0. -/
def respReserved (w : Word) : BitVec 6 := w.extractLsb' 26 6

/-- A response word the block may send (30 R90, R91, R93, 93 V5): no code above 8, no phase but 0, 1, 2 and 4, a phase
other than 0 only with code 4, the reserved bits zero. -/
def legalResponse (w : Word) : Bool :=
  decide ((respCode w).toNat ≤ 8) && (respPhase w == 0 || (respCode w == 4 && (respPhase w == 1 || respPhase w == 2
    || respPhase w == 4))) && respReserved w == 0

/-- What the requester of a read transfer does with its buffer: the byte `RDATA` is stored at index `RIDX`, and every
other byte is left as it was; a byte that nothing wrote holds no value (10 R34, 41 R161). The buffer is not block
state; log 27. -/
def storeReply (buf : List (Option Byte)) (w : Word) : List (Option Byte) :=
  if respCode w = 0 then buf.set (respRidx w).toNat (some (respRdata w)) else buf

end Sys2Proof.Machine
end

