-- ==== Sys2Proof/Machine/Operands.lean ====
section
/-! DEFINITION. Operand assembly: the register addresses of an endpoint's window (10 R28, 20 R71, 30 R89), the values
written to the page register (30 R104), the masks of the read-modify-writes and of the CS pulse (30 R105), and the
length check (41 R152). -/

namespace Sys2Proof

/-- The base register of an endpoint's window (10 R28): 33 for A, 38 for B. -/
def Endpoint.base : Endpoint → RegAddr
  | .a => Config.hw.baseA
  | .b => Config.hw.baseB

/-- The data register `base+0` (20 R71). -/
def Endpoint.dataReg (ep : Endpoint) : RegAddr := ep.base + Config.hw.offData
/-- The read-back register `base+1` (20 R71). -/
def Endpoint.rbReg (ep : Endpoint) : RegAddr := ep.base + Config.hw.offRb
/-- The address register `base+2` (20 R71). -/
def Endpoint.addrReg (ep : Endpoint) : RegAddr := ep.base + Config.hw.offAddr
/-- The CS-control register `base+4` (20 R71). -/
def Endpoint.csReg (ep : Endpoint) : RegAddr := ep.base + Config.hw.offCs

end Sys2Proof

namespace Sys2Proof.Machine

/-- The byte with only bit `n` set. -/
def bitMask (n : Nat) : Byte := 1#8 <<< n

/-- The value a page switch writes: `page & 0x3` (30 R104). -/
def pageValue (p : Page) : Byte := p.setWidth 8 &&& Config.hw.pageMask

/-- The value a soft reset writes: only the reset bit, 0x80 (30 R104, 92 D10). -/
def softResetValue : Byte := bitMask Config.hw.softResetBit

/-- The value a read-modify-write writes: `(v & ~clr) | set` (40 R127). -/
def rmwValue (v clr set : Byte) : Byte := (v &&& ~~~clr) ||| set

/-- CS assert value `CSV | 0x01` (30 R105). -/
def csAssertValue (c : Byte) : Byte := c ||| bitMask Config.hw.csBit
/-- CS deassert value `CSV & 0xFE` (30 R105). -/
def csDeassertValue (c : Byte) : Byte := c &&& ~~~(bitMask Config.hw.csBit)

/-- `clr` of the global-enable clear (30 R105). -/
def genMask : Byte := bitMask Config.hw.genBit
/-- `clr` of the clock-enable clear (30 R105). -/
def clkMask : Byte := bitMask Config.hw.clkBit
/-- `set` of the radio enable: both enable bits at once (30 R105, 70 R275). -/
def radioEnMask : Byte := bitMask Config.hw.aEnBit ||| bitMask Config.hw.bEnBit
/-- The shared radio reset bit (30 R105). -/
def radioRstMask : Byte := bitMask Config.hw.rrstBit

/-- A transfer's length is valid: `LEN_MIN` to `LEN_MAX`, 1 to 3 (41 R152; log 23). -/
def lenValid (len : Nat) : Bool := decide (Config.hw.lenMin ≤ len) && decide (len ≤ Config.hw.lenMax)

/-- The data byte of a write transfer: `DATA` when `DV` is 1, else 0x00 (41 R155). -/
def dataByte (dv : Bool) (data : Byte) : Byte := if dv then data else 0x00

end Sys2Proof.Machine
end

