-- ==== Sys2Proof/Machine/Ops.lean ====
section
/-! DEFINITION. The named operations: the environment's answers (20 R60), what is recorded of the concentrator
(10 R35, 20 R51 to R58, 70 R261), the exchanges on every channel (00 R13, R14), the primitives EnsurePage, SoftReset,
RMW and CsPulse (40 R122, R125, R127; 41 R156), the lock, the response, and `raise` (00 R15), which is the one way an
error is taken. -/

namespace Sys2Proof.Machine

/-! ### Memory: what is recorded of the concentrator's registers -/

/-- The recorded value at a key, if there is one. -/
def Memory.read : Memory → Nat → Option Byte
  | [], _ => none
  | (k, v) :: m, a => if k = a then some v else Memory.read m a

/-- Records a value at a key, keeping the keys rising. -/
def Memory.write : Memory → Nat → Byte → Memory
  | [], a, v => [(a, v)]
  | (k, x) :: m, a, v =>
    if a < k then (a, v) :: (k, x) :: m
    else if a = k then (a, v) :: m
    else (k, x) :: Memory.write m a v

/-- Removes the record at a key. -/
def Memory.forget (m : Memory) (a : Nat) : Memory := m.filter (fun c => c.1 != a)

/-- How many registers a page has: one for each address of `REG_ADDR_BITS` bits (20 R51, R52). -/
def pageSpan : Nat := 2 ^ Config.hw.regAddrBits

/-- The canonical form: keys strictly rising, each the key of a logical register (20 R51: `N_PAGES` pages of 128). -/
abbrev Memory.wf (m : Memory) : Prop :=
  m.Pairwise (fun c d => c.1 < d.1) ∧ ∀ c ∈ m, c.1 < Config.hw.nPages * pageSpan

/-! ### Pages the concentrator may have selected -/

/-- Membership. -/
def PageSet.mem (ps : PageSet) (p : Page) : Bool :=
  match p.toNat with
  | 0 => ps.p0
  | 1 => ps.p1
  | 2 => ps.p2
  | _ => ps.p3

/-- The set of one page. -/
def PageSet.only (p : Page) : PageSet :=
  { p0 := p == 0, p1 := p == 1, p2 := p == 2, p3 := p == 3 }

/-- A set with one more page. -/
def PageSet.insert (ps : PageSet) (p : Page) : PageSet :=
  { p0 := ps.p0 || p == 0, p1 := ps.p1 || p == 1, p2 := ps.p2 || p == 2, p3 := ps.p3 || p == 3 }

/-- The page of a set of exactly one page. -/
def PageSet.single (ps : PageSet) : Option Page :=
  if ps = .only 0 then some 0 else if ps = .only 1 then some 1
  else if ps = .only 2 then some 2 else if ps = .only 3 then some 3 else none

/-! ### The concentrator, as far as it is known -/

/-- Registers 0 and 1 are reached in every page (20 R53, 92 D9; log 26). -/
def pageFree (a : RegAddr) : Bool := a == Config.hw.pageReg || a == Config.hw.idReg

/-- The key of the pair of a page and an address (20 R51). -/
def pagedKey (p : Page) (a : RegAddr) : Nat := pageSpan * p.toNat + a.toNat

/-- The key of logical register (`p`, `a`) in the record (20 R51, R53). -/
def regKey (p : Page) (a : RegAddr) : Nat := if pageFree a then a.toNat else pagedKey p a

/-- After a reset of the concentrator nothing is known of it (70 R261, 93 U1, U8). -/
def Chip.unknown : Chip := { pages := .all, mem := [] }

/-- The record of register `a` is dropped in every page that may be selected: what it holds now is not known. -/
def Chip.forget (a : RegAddr) (c : Chip) : Chip :=
  let drop (m : Memory) (p : Page) : Memory :=
    if pageFree a || c.pages.mem p then Memory.forget m (regKey p a) else m
  { c with mem := drop (drop (drop (drop c.mem 0) 1) 2) 3 }

/-- A write of `v` to register `a` that was answered Ok: recorded where the page it reached is known (20 R54), and where
it is not, every register it may have reached is dropped from the record. -/
def Chip.record (a : RegAddr) (v : Byte) (c : Chip) : Chip :=
  match (if pageFree a then some 0 else c.pages.single) with
  | some p => { c with mem := Memory.write c.mem (regKey p a) v }
  | none => c.forget a

/-- The effect on register 0 (20 R65, R68): with bits 7:2 zero the page of bits 1:0 is selected, for certain when the
answer is Ok and perhaps when it is Err (93 U2); with any of bits 7:2 set the concentrator is, or may have been,
reset (93 U1, U5; log 12). -/
def Chip.pageReg (v : Byte) (failed : Bool) (c : Chip) : Chip :=
  if v &&& ~~~Config.hw.pageMask ≠ 0 then Chip.unknown
  else if failed then { c with pages := c.pages.insert (v.setWidth 2) }
  else { c with pages := .only (v.setWidth 2) }

/-- What a write exchange may have done to the concentrator; a failed one may or may not have taken effect
(20 R58, 93 U3; log 9). -/
def Chip.write (a : RegAddr) (v : Byte) (failed : Bool) (c : Chip) : Chip :=
  if a = Config.hw.pageReg then c.pageReg v failed
  else if failed then c.forget a
  else c.record a v

/-! ### Channels -/

/-- An event is added to the trace (20 R74: the order of issue). -/
def State.emit (e : Event) (s : State) : State := { s with events := s.events ++ [e] }

/-- The answer the environment gives to the `k`-th request from now (20 R60): the next of `answers`, and after them a
free value. -/
def State.answer (s : State) (k : Nat) : Answer := s.answers.getD k (Config.freeAnswer (s.drawn + k))

/-- One answer is used up. -/
def State.draw (s : State) : State := { s with answers := s.answers.tail, drawn := s.drawn + 1 }

/-- The cause of an answer Err; `none` for Ok. -/
def failOf : Answer → Option Cause
  | .ok _ => none
  | .err c => some c

/-- What a write exchange gives back. -/
def writeReply : Option Cause → BusReply
  | none => .done
  | some c => .failed c

/-- What a read exchange gives back. -/
def readReply : Answer → BusReply
  | .ok v => .byte v
  | .err c => .failed c

/-- `MemWrite(a, 1, v)`: one write exchange, issued once (00 R13, 20 R55, R57, R59); its cause if it failed. -/
def memWrite (a : RegAddr) (v : Byte) (s : State) : State × Option Cause :=
  let r := failOf (s.answer 0)
  (({ s.draw with chip := s.chip.write a v r.isSome, busReply := some (writeReply r) } : State).emit (.wr a v r), r)

/-- `MemRead(a, 1)`: one read exchange, issued once (00 R13, 20 R56, R57, R59); what it returns is a draw (20 R60), and the record is not
changed (log 29). -/
def memRead (a : RegAddr) (s : State) : State × Answer :=
  let r := s.answer 0
  (({ s.draw with busReply := some (readReply r) } : State).emit (.rd a r), r)

/-- `Configure()` on CFG (00 R14). -/
def configure (s : State) : State × Option Cause :=
  let r := failOf (s.answer 0)
  (s.draw.emit (.cfg r), r)

/-- `Register(ep)` answered on FW (00 R14). -/
def registerEp (ep : Endpoint) (s : State) : State × Option Cause :=
  let r := failOf (s.answer 0)
  (s.draw.emit (.reg ep r), r)

/-- `Gpio(ACTIVE)`: the concentrator's reset is asserted (00 R14, 70 R261). -/
def gpioActive (s : State) : State :=
  ({ s with chip := .unknown, resetLine := some .active } : State).emit (.gpio .active)

/-- `Gpio(INACTIVE)` (00 R14). -/
def gpioInactive (s : State) : State :=
  ({ s with resetLine := some .inactive } : State).emit (.gpio .inactive)

/-- `Delay(n)`: at least `n` ms (00 R14, 60 R241). -/
def delay (n : Nat) (s : State) : State := s.emit (.delay n)

/-! ### Endpoints -/

/-- `EP_LIVE[ep]` (10 R27). -/
def State.live (s : State) : Endpoint → Bool
  | .a => s.epLiveA
  | .b => s.epLiveB

/-- `x[EP_LIVE[ep]] <- v`. -/
def State.setLive (ep : Endpoint) (v : Bool) (s : State) : State :=
  match ep with
  | .a => { s with epLiveA := v }
  | .b => { s with epLiveB := v }

/-- A live endpoint stops accepting transfers and is unregistered: `Unregister(ep)` has no result (42 R193, R195). -/
def unregisterLive (ep : Endpoint) (s : State) : State :=
  if s.live ep then (s.setLive ep false).emit (.unreg ep) else s

/-! ### Primitives -/

/-- `EnsurePage(p)` (40 R122). -/
def ensurePage (p : Page) (s : State) : State × Option Cause :=
  if s.curPage = .page p then (s, none)
  else match memWrite Config.hw.pageReg (pageValue p) s with
    | (t, none) => ({ t with curPage := .page p }, none)
    | (t, some c) => (t, some c)

/-- `SoftReset()` (40 R125): `CUR_PAGE` is not written. -/
def softReset (s : State) : State × Option Cause := memWrite Config.hw.pageReg softResetValue s

/-- `RMW(a, clr, set)` (40 R127): no write after a failed read; the write is issued even when it changes nothing. -/
def rmw (a : RegAddr) (clr set : Byte) (s : State) : State × Option Cause :=
  match memRead a s with
  | (t, .err c) => (t, some c)
  | (t, .ok v) => memWrite a (rmwValue v clr set) { t with tmp := some v }

/-- A CS exchange that failed sets `DEG` and is logged (41 R156, 60 R229). -/
def degrade (tag : LogTag) (fail : Option Cause) (s : State) : State :=
  match fail with
  | none => s
  | some _ => ({ s with deg := true } : State).emit (.log tag)

/-- The read of the CS pulse: `CSV` is the byte read, or 0x00 when the read failed (41 R156). -/
def csRead (ep : Endpoint) (s : State) : State × Byte :=
  match memRead ep.csReg { s with deg := false } with
  | (t, .ok v) => ({ t with csv := some v }, v)
  | (t, .err c) => (degrade .csReadFailed (some c) { t with csv := some 0x00 }, 0x00)

/-- One write of the CS pulse (41 R156). -/
def csWrite (ep : Endpoint) (v : Byte) (tag : LogTag) (s : State) : State :=
  match memWrite ep.csReg v s with
  | (t, r) => degrade tag r t

/-- `CsPulse(b)` (41 R156): never fails; both writes use the one value read. -/
def csPulse (ep : Endpoint) (s : State) : State :=
  match csRead ep s with
  | (t, c) => csWrite ep (csDeassertValue c) .csDeassertFailed (csWrite ep (csAssertValue c) .csAssertFailed t)

/-! ### Lock and agents -/

/-- `Acquire` of BSQ can take the lock: it waits while the other agent holds it (10 R24; log 24). -/
def State.lockOpenToBsq (s : State) : Bool := decide (s.lock ≠ .lcu)

/-- `Acquire` of LCU can take the lock (10 R24; log 24). -/
def State.lockOpenToLcu (s : State) : Bool := decide (s.lock ≠ .bsq)

/-- BSQ executes no command, so it can take one, whoever holds the lock (30 R95, R96; log 25). -/
def State.bsqFree (s : State) : Bool := decide (s.pcBsq = .idle) && !s.bsqWaits

/-- BSQ can take a command and acquire the lock at once (30 R96, 10 R24). -/
def State.bsqReady (s : State) : Bool := s.bsqFree && s.lockOpenToBsq

/-- LCU is in mid-command; in `L_IDLE` with `LC = ATTACHING` it waits for the lock (42 R180). -/
def State.lcuBusy (s : State) : Bool := decide (s.pcLcu ≠ .idle) || decide (s.lc = .attaching)

/-- LCU can take a command (30 R96). -/
def State.lcuReady (s : State) : Bool := !s.lcuBusy

/-- A command whose agent cannot take it waits on CMD; it is not refused (30 R96, 92 D38). -/
def State.enqueue (w : Word) (s : State) : State := { s with cmd := s.cmd ++ [w] }

/-- The word is handed to BSQ: `x[REQ] <- w`, whoever holds the lock (30 R95); BSQ goes to its `Acquire()`. -/
def bsqTake (w : Word) (s : State) : State := { s with reqBsq := some w, bsqWaits := true }

/-- `Acquire()` of BSQ, when the lock is open to it: the wait ends and the lock is taken (10 R24). -/
def bsqAcquire (s : State) : State := { s with bsqWaits := false, lock := .bsq }

/-- `Release()`. -/
def release (s : State) : State := { s with lock := .free }

/-- `Respond(w)` by BSQ (00 R14). -/
def bsqRespond (w : Word) (s : State) : State := ({ s with respBsq := some w } : State).emit (.resp w)

/-- `Respond(w)` by LCU (00 R14). -/
def lcuRespond (w : Word) (s : State) : State := ({ s with respLcu := some w } : State).emit (.resp w)

/-! ### Taking an error (00 R15) -/

/-- `Release(); raise E` by BSQ before its first sequencer state, or at the end of `PAGE_OP` and `SRST_OP`: the error
response is sent and BSQ is idle. -/
def bsqRaise (e : CmdError) (s : State) : State := bsqRespond e.word (release { s with pcBsq := .idle })

/-- `pc <- FAILED` of `pc <- FAILED; Release(); raise E` in a transfer: the error is in `RESP`, and the lock is held until
the response (41 R165; log 19). -/
def bsqFail (e : CmdError) (s : State) : State := { s with pcBsq := .failed, respBsq := some e.word }

/-- `pc <- DONE` of `pc <- DONE; Release(); Respond(w)` in a transfer: the lock is held until the response (41 R165;
log 19). -/
def bsqDone (w : Word) (s : State) : State := { s with pcBsq := .done, respBsq := some w }

/-- `Release()` and the response of a transfer, in one move: `DONE` and `FAILED` go to `IDLE` when the response is sent
(10 R31, 41 R150, R160, R165; log 19). -/
def bsqReply (s : State) : State :=
  if s.pcBsq = .done ∨ s.pcBsq = .failed then
    match s.respBsq with
    | some w => (release { s with pcBsq := .idle }).emit (.resp w)
    | none => s
  else s

/-- `raise E` inside ATTACH: `pc <- L_UNWIND`, with the response kept for the end of the unwinding (42 R180, R193). -/
def lcuRaise (e : CmdError) (s : State) : State :=
  { s with pcLcu := .unwind, respLcu := some e.word, regPhase := .start }

/-- `let r <- P; if r == Err(c): raise BUS_ERROR(c)`, and the rest of the step on Ok (42 R182 to R188). -/
def orBusError (r : State × Option Cause) (k : State → State) : State :=
  match r with
  | (t, none) => k t
  | (t, some c) => lcuRaise (.busError c) t

/-- An illegal word is answered at once: no agent takes it and no state changes (30 R88, R95). -/
def respondIllegal (s : State) : State := s.emit (.resp CmdError.illegalCommand.word)

end Sys2Proof.Machine
end

