-- ==== Sys2Proof/Machine/Bus.lean ====
section
/-! DEFINITION. The two BUS frames as instructions (30 R98 to R103): one exchange of the Register Transport each. -/

namespace Sys2Proof.Machine

/-- The bytes the block sends for an exchange (30 R101, R102); other events send none on BUS. -/
def Event.frame : Event → List Byte
  | .wr a v _ => encodeFrame (.busWr a v)
  | .rd a _ => encodeFrame (.busRd a)
  | .cfg _ => []
  | .gpio _ => []
  | .delay _ => []
  | .reg _ _ => []
  | .unreg _ => []
  | .log _ => []
  | .resp _ => []

/-- `BUS_WR a, v`: the write exchange of `MemWrite(a, 1, v)` (20 R55, 30 R101). -/
def execBusWr (a : RegAddr) (v : Byte) (s : State) : Result := .next (memWrite a v s).1

/-- `BUS_RD a`: the read exchange of `MemRead(a, 1)` (20 R56, 30 R102); the byte received is in `busReply`. -/
def execBusRd (a : RegAddr) (s : State) : Result := .next (memRead a s).1

end Sys2Proof.Machine
end

