-- ==== Sys2Proof/Machine/Lifecycle.lean ====
section
/-! DEFINITION. ATTACH and DETACH (42_lifecycle.md): LCU's sequencer states (10 R30), and the meaning of the two
commands. -/

namespace Sys2Proof.Machine

/-- `Acquire(); pc <- L_STEP1` of ATTACH: LCU waits in `L_IDLE` while BSQ holds the lock (42 R180). -/
def attachAcquire (s : State) : State :=
  if s.pcLcu = .idle ∧ s.lc = .attaching ∧ s.lockOpenToLcu then { s with lock := .lcu, pcLcu := .step1 } else s

/-- LCU takes ATTACH: the check of `LC` (42 R194), `LC` and `RSTP` (10 R25, R26), then `Acquire()`. -/
def beginAttach (w : Word) (rstp : Bool) (s : State) : State :=
  let t : State := { s with reqLcu := some w }
  if t.lc ≠ .detached then lcuRespond CmdError.alreadyAttached.word t
  else attachAcquire { t with lc := .attaching, rstp := rstp }

/-- Step 1, the reset line, skipped whole when there is none (42 R181). -/
def step1 (s : State) : State :=
  if s.pcLcu = .step1 then
    let t := if s.rstp
      then delay Config.hw.tRstRelease (gpioInactive (delay Config.hw.tRstHold (gpioActive s)))
      else s
    { t with pcLcu := .step2 }
  else s

/-- Step 2, transport configuration (42 R182). -/
def step2 (s : State) : State :=
  if s.pcLcu = .step2 then orBusError (configure s) fun t => { t with pcLcu := .step3 } else s

/-- Step 3, the identity check, and the instance created on a match (42 R183). -/
def step3 (s : State) : State :=
  if s.pcLcu = .step3 then
    match memRead Config.hw.idReg s with
    | (t, .err c) => lcuRaise (.busError c) t
    | (t, .ok v) =>
      if v = Config.hw.idExpected
      then { t with tmp := some v, inst := true, curPage := .unknown, pcLcu := .step4 }
      else lcuRaise (.unexpectedIdentity v) { t with tmp := some v }
  else s

/-- Step 4: page 0 is written, not through `EnsurePage` (42 R184), then a soft reset (42 R185). -/
def step4 (s : State) : State :=
  if s.pcLcu = .step4 then
    orBusError (memWrite Config.hw.pageReg 0x00 s) fun t =>
      orBusError (softReset { t with curPage := .page 0 }) fun u => { u with pcLcu := .step5 }
  else s

/-- Step 5: global enable, then clock enable, are cleared (42 R186). -/
def step5 (s : State) : State :=
  if s.pcLcu = .step5 then
    orBusError (ensurePage Config.hw.pageCtrl s) fun t =>
      orBusError (rmw Config.hw.genReg genMask 0x00 t) fun u =>
        orBusError (rmw Config.hw.clkReg clkMask 0x00 u) fun v => { v with pcLcu := .step6 }
  else s

/-- Step 6: both radios are enabled by one write (42 R187). -/
def step6 (s : State) : State :=
  if s.pcLcu = .step6 then
    orBusError (ensurePage Config.hw.pageRadio s) fun t =>
      orBusError (rmw Config.hw.rctrlReg 0x00 radioEnMask t) fun u => { u with pcLcu := .step7 }
  else s

/-- Step 7, the timed radio reset pulse (42 R188); then the lock is released (42 R180). -/
def step7 (s : State) : State :=
  if s.pcLcu = .step7 then
    orBusError (ensurePage Config.hw.pageRadio (delay Config.hw.tSettle s)) fun t =>
      orBusError (rmw Config.hw.rctrlReg 0x00 radioRstMask t) fun u =>
        orBusError (ensurePage Config.hw.pageRadio (delay Config.hw.tRpulse u)) fun v =>
          orBusError (rmw Config.hw.rctrlReg radioRstMask 0x00 v) fun z =>
            release { z with pcLcu := .step8, regPhase := .start }
  else s

/-- Step 8, `EP_LIVE[A] <- 1` before the framework answers (42 R189, 92 D23). -/
def step8AskA (s : State) : State :=
  if s.pcLcu = .step8 ∧ s.regPhase = .start then { s with epLiveA := true, regPhase := .waitA } else s

/-- Step 8, the answer to `Register(A)` (42 R189). -/
def step8AnswerA (s : State) : State :=
  if s.pcLcu = .step8 ∧ s.regPhase = .waitA then
    match registerEp .a s with
    | (t, none) => { t with regPhase := .gotA }
    | (t, some c) => lcuRaise (.registrationFailed c) { t with epLiveA := false }
  else s

/-- Step 8, `EP_LIVE[B] <- 1` (42 R190). -/
def step8AskB (s : State) : State :=
  if s.pcLcu = .step8 ∧ s.regPhase = .gotA then { s with epLiveB := true, regPhase := .waitB } else s

/-- Step 8, the answer to `Register(B)` (42 R190, R191). -/
def step8AnswerB (s : State) : State :=
  if s.pcLcu = .step8 ∧ s.regPhase = .waitB then
    match registerEp .b s with
    | (t, none) => { t with regPhase := .gotB }
    | (t, some c) => lcuRaise (.registrationFailed c) { t with epLiveB := false }
  else s

/-- The end of a successful ATTACH (42 R180). -/
def step8Finish (s : State) : State :=
  if s.pcLcu = .step8 ∧ s.regPhase = .gotB then
    lcuRespond okWord { s with lc := .running, pcLcu := .idle, regPhase := .start }
  else s

/-- The instance is destroyed, with no event (42 R193, R196). -/
def destroyInstance (s : State) : State := { s with inst := false, curPage := .unknown }

/-- `Unwind` and the error response of a failed ATTACH (42 R193): it waits while BSQ holds the lock; the endpoints are
unregistered in reverse order; no bus event. -/
def unwind (s : State) : State :=
  if s.pcLcu = .unwind ∧ s.lockOpenToLcu then
    match s.respLcu with
    | some w =>
      let t := release (destroyInstance (unregisterLive .a (unregisterLive .b { s with lock := .lcu })))
      lcuRespond w { t with lc := .detached, pcLcu := .idle }
    | none => s
  else s

/-- LCU takes DETACH: on a detached block it is answered at once (42 R195). -/
def beginDetach (w : Word) (s : State) : State :=
  let t : State := { s with reqLcu := some w }
  if t.lc = .detached then lcuRespond okWord t else { t with pcLcu := .detach }

/-- DETACH, endpoint B is unregistered first (42 R195). -/
def detachB (s : State) : State := if s.pcLcu = .detach then unregisterLive .b s else s

/-- DETACH, then endpoint A (42 R195). -/
def detachA (s : State) : State := if s.pcLcu = .detach then unregisterLive .a s else s

/-- DETACH: when both endpoints are dead, `Acquire()`, which waits for a transfer in flight, the destruction of the
instance (42 R196), `Release()` and the response (42 R195). -/
def detachEnd (s : State) : State :=
  if s.pcLcu = .detach ∧ s.epLiveA = false ∧ s.epLiveB = false ∧ s.lockOpenToLcu then
    let t := release (destroyInstance { s with lock := .lcu })
    lcuRespond okWord { t with lc := .detached, pcLcu := .idle }
  else s

/-- Step 8 from its start to its end (42 R189 to R191). -/
def step8 (s : State) : State := step8Finish (step8AnswerB (step8AskB (step8AnswerA (step8AskA s))))

/-- Bring-up from `L_STEP1` to its response (42 R180). -/
def runAttach (s : State) : State := unwind (step8 (step7 (step6 (step5 (step4 (step3 (step2 (step1 s))))))))

/-- DETACH from `L_DETACH` to its response (42 R195). -/
def runDetach (s : State) : State := detachEnd (detachA (detachB s))

/-- `ATTACH [rst]` (42 R180 to R194, R197 to R200). -/
def execAttach (rstp : Bool) (x : BitVec 23) (s : State) : Result :=
  let w := encodeWord (.attach rstp x)
  .next (if s.lcuReady then runAttach (beginAttach w rstp s) else s.enqueue w)

/-- `DETACH` (42 R195, R196). -/
def execDetach (x : BitVec 24) (s : State) : Result :=
  let w := encodeWord (.detach x)
  .next (if s.lcuReady then runDetach (beginDetach w s) else s.enqueue w)

end Sys2Proof.Machine
end

