-- ==== Sys2Proof/Machine/PageMux.lean ====
section
/-! DEFINITION. ENSURE_PAGE and SOFT_RESET (40_page_mux.md): BSQ's sequencer states `PAGE_OP` and `SRST_OP`, and the
meaning of the two commands. -/

namespace Sys2Proof.Machine

/-- `Acquire()` of a page command, which waits while LCU holds the lock, the check of `INST` after it (40 R121, R124), and
its sequencer state. -/
def enterPageCmd (pc : BsqPc) (s : State) : State :=
  if s.bsqWaits ∧ s.lockOpenToBsq then
    let t := bsqAcquire s
    if t.inst then { t with pcBsq := pc } else bsqRaise .notAttached t
  else s

/-- A page command is handed to BSQ, which goes to its `Acquire()`. -/
def beginPageCmd (pc : BsqPc) (w : Word) (s : State) : State := enterPageCmd pc (bsqTake w s)

/-- `Release(); pc <- IDLE` and the response of a page command: `OK`, or `BUS_ERROR` with the cause unchanged
(40 R120, R123; 60 R221). -/
def finishPageCmd (r : State × Option Cause) : State :=
  match r with
  | (t, none) => bsqRespond okWord (release { t with pcBsq := .idle })
  | (t, some c) => bsqRaise (.busError c) t

/-- The actions of `PAGE_OP` (40 R120). -/
def pageOp (p : Page) (s : State) : State :=
  if s.pcBsq = .pageOp then finishPageCmd (ensurePage p s) else s

/-- The actions of `SRST_OP` (40 R123). -/
def srstOp (s : State) : State :=
  if s.pcBsq = .srstOp then finishPageCmd (softReset s) else s

/-- `ENSURE_PAGE p` (40 R120 to R122, R128). -/
def execEnsurePage (p : Page) (x : BitVec 22) (s : State) : Result :=
  let w := encodeWord (.ensurePage p x)
  .next (if s.bsqFree then pageOp p (beginPageCmd .pageOp w s) else s.enqueue w)

/-- `SOFT_RESET` (40 R123 to R125). -/
def execSoftReset (x : BitVec 24) (s : State) : Result :=
  let w := encodeWord (.softReset x)
  .next (if s.bsqFree then srstOp (beginPageCmd .srstOp w s) else s.enqueue w)

end Sys2Proof.Machine
end

