-- ==== Sys2Proof/Machine/Transfer.lean ====
section
/-! DEFINITION. XFER_WR and XFER_RD (41_subbus_transfer.md): BSQ's sequencer states of a transfer (10 R31), and the
meaning of the two commands. -/

namespace Sys2Proof.Machine

/-- `Acquire()` of a transfer, which waits while LCU holds the lock, then the endpoint check (41 R151), then the length
check (41 R152, 60 R230), then `PAGE_SWITCHING`. -/
def enterXfer (ep : Endpoint) (len : Nat) (s : State) : State :=
  if s.bsqWaits ∧ s.lockOpenToBsq then
    let t := bsqAcquire s
    if t.live ep = false then bsqRaise .notAttached t
    else if lenValid len = false then bsqRaise .invalidLength t
    else { t with pcBsq := .pageSwitching }
  else s

/-- A transfer is handed to BSQ, which goes to its `Acquire()`. -/
def beginXfer (w : Word) (ep : Endpoint) (len : Nat) (s : State) : State := enterXfer ep len (bsqTake w s)

/-- The actions of `PAGE_SWITCHING` (41 R153); `next` is the state that follows on the transfer's path. -/
def pageSwitching (next : BsqPc) (s : State) : State :=
  if s.pcBsq = .pageSwitching then
    match ensurePage Config.hw.pageRadio s with
    | (t, none) => { t with pcBsq := next }
    | (t, some c) => bsqFail (.transferFailed .pageSwitch c) t
  else s

/-- The actions of `ADDRESS_PHASE` (41 R154). -/
def addressPhase (ep : Endpoint) (addr : Byte) (s : State) : State :=
  if s.pcBsq = .addressPhase then
    match memWrite ep.addrReg addr s with
    | (t, none) => { t with pcBsq := .dataPhase }
    | (t, some c) => bsqFail (.transferFailed .address c) t
  else s

/-- The actions of `DATA_PHASE` (41 R155). -/
def dataPhase (ep : Endpoint) (v : Byte) (s : State) : State :=
  if s.pcBsq = .dataPhase then
    match memWrite ep.dataReg v s with
    | (t, none) => { t with pcBsq := .csPulse }
    | (t, some c) => bsqFail (.transferFailed .data c) t
  else s

/-- The actions of `CS_PULSE`, which never fails (41 R156, 10 R31). -/
def csPhase (ep : Endpoint) (s : State) : State :=
  if s.pcBsq = .csPulse then
    let t := csPulse ep s
    bsqDone (writeDoneWord t.deg) t
  else s

/-- The actions of `READ_BACK` (41 R160 to R162). -/
def readBack (ep : Endpoint) (len : Nat) (s : State) : State :=
  if s.pcBsq = .readBack then
    match memRead ep.rbReg s with
    | (t, .ok v) => bsqDone (readDoneWord len v) t
    | (t, .err c) => bsqFail (.transferFailed .readback c) t
  else s

/-- A write transfer from `PAGE_SWITCHING` to its response. -/
def runXferWr (ep : Endpoint) (dv : Bool) (addr data : Byte) (s : State) : State :=
  bsqReply (csPhase ep (dataPhase ep (dataByte dv data) (addressPhase ep addr (pageSwitching .addressPhase s))))

/-- A read transfer from `PAGE_SWITCHING` to its response. -/
def runXferRd (ep : Endpoint) (len : Nat) (s : State) : State :=
  bsqReply (readBack ep len (pageSwitching .readBack s))

/-- `XFER_WR ep, len, addr[, data]` (41 R150 to R159). -/
def execXferWr (ep : Endpoint) (len : Nat) (dv : Bool) (addr data : Byte) (x : BitVec 2) (s : State) : Result :=
  let w := encodeWord (.xferWr ep len dv addr data x)
  .next (if s.bsqFree then runXferWr ep dv addr data (beginXfer w ep len s) else s.enqueue w)

/-- `XFER_RD ep, len` (41 R160 to R163). -/
def execXferRd (ep : Endpoint) (len : Nat) (x : BitVec 19) (s : State) : Result :=
  let w := encodeWord (.xferRd ep len x)
  .next (if s.bsqFree then runXferRd ep len (beginXfer w ep len s) else s.enqueue w)

end Sys2Proof.Machine
end

