-- ==== Sys2Proof/Machine/Dispatch.lean ====
section
/-! DEFINITION. The dispatch: one arm per instruction. -/

namespace Sys2Proof.Machine

def exec (i : Instr) (s : State) : Host.Outcome State Fault Refusal :=
  match i with
  | .ensurePage p x => Sys2Proof.Machine.execEnsurePage p x s
  | .softReset x => Sys2Proof.Machine.execSoftReset x s
  | .xferWr ep len dv addr data x => Sys2Proof.Machine.execXferWr ep len dv addr data x s
  | .xferRd ep len x => Sys2Proof.Machine.execXferRd ep len x s
  | .attach rstp x => Sys2Proof.Machine.execAttach rstp x s
  | .detach x => Sys2Proof.Machine.execDetach x s
  | .busWr a v => Sys2Proof.Machine.execBusWr a v s
  | .busRd a => Sys2Proof.Machine.execBusRd a s

end Sys2Proof.Machine
end

