-- ==== Sys2Proof/Machine/Agents.lean ====
section
/-! DEFINITION. The two agents one sequencer state at a time (10 R30, R31): taking a command, and one move of each. The
commands served whole (`exec`) perform the same actions in the same order; between moves the other agent may move (log 3). -/

namespace Sys2Proof.Machine

/-- The agent of the command can take it now (30 R82, R96); a frame is no command. -/
def canBegin (i : Instr) (s : State) : Bool :=
  match i with
  | .ensurePage _ _ => s.bsqFree
  | .softReset _ => s.bsqFree
  | .xferWr _ _ _ _ _ _ => s.bsqFree
  | .xferRd _ _ _ => s.bsqFree
  | .attach _ _ => s.lcuReady
  | .detach _ => s.lcuReady
  | .busWr _ _ => false
  | .busRd _ => false

/-- The command is handed to its agent, which makes its first checks and asks for the lock (30 R95). -/
def begin (i : Instr) (s : State) : State :=
  match i with
  | .ensurePage _ _ => beginPageCmd .pageOp (encodeWord i) s
  | .softReset _ => beginPageCmd .srstOp (encodeWord i) s
  | .xferWr ep len _ _ _ _ => beginXfer (encodeWord i) ep len s
  | .xferRd ep len _ => beginXfer (encodeWord i) ep len s
  | .attach rstp _ => beginAttach (encodeWord i) rstp s
  | .detach _ => beginDetach (encodeWord i) s
  | .busWr _ _ => s
  | .busRd _ => s

/-- The sequencer states on the path of each BSQ command (10 R31); in `IDLE` it waits for the lock. -/
def bsqOnPath (i : Instr) (pc : BsqPc) : Bool :=
  match i with
  | .ensurePage _ _ => pc == .idle || pc == .pageOp
  | .softReset _ => pc == .idle || pc == .srstOp
  | .xferWr _ len _ _ _ _ => pc == .idle || (lenValid len && (pc == .pageSwitching || pc == .addressPhase
      || pc == .dataPhase || pc == .csPulse || pc == .done || pc == .failed))
  | .xferRd _ len _ => pc == .idle || (lenValid len && (pc == .pageSwitching || pc == .readBack || pc == .done
      || pc == .failed))
  | .attach _ _ => false
  | .detach _ => false
  | .busWr _ _ => false
  | .busRd _ => false

/-- The actions of BSQ's present sequencer state while it executes `i`: the phases below do nothing but in their own
state, so exactly one of them acts. -/
def bsqActions (i : Instr) (s : State) : State :=
  match i, s.pcBsq with
  | .ensurePage _ _, .idle => enterPageCmd .pageOp s
  | .softReset _, .idle => enterPageCmd .srstOp s
  | .xferWr ep len _ _ _ _, .idle => enterXfer ep len s
  | .xferRd ep len _, .idle => enterXfer ep len s
  | .ensurePage p _, .pageOp => pageOp p s
  | .softReset _, .srstOp => srstOp s
  | .xferWr _ _ _ _ _ _, .pageSwitching => pageSwitching .addressPhase s
  | .xferWr ep _ _ addr _ _, .addressPhase => addressPhase ep addr s
  | .xferWr ep _ dv _ data _, .dataPhase => dataPhase ep (dataByte dv data) s
  | .xferWr ep _ _ _ _ _, .csPulse => csPhase ep s
  | .xferRd _ _ _, .pageSwitching => pageSwitching .readBack s
  | .xferRd ep len _, .readBack => readBack ep len s
  | _, _ => bsqReply s

/-- One move of BSQ; it does nothing when it is idle with no command, or when it waits for the lock. -/
def bsqMove (s : State) : Result :=
  if s.bsqFree then .next s
  else match s.reqBsq with
    | none => .fault .noValue
    | some w =>
      match decodeCommand w with
      | .error _ => .fault .offPath
      | .ok i =>
        if bsqOnPath i s.pcBsq = false then .fault .offPath
        else if (s.pcBsq = .done ∨ s.pcBsq = .failed) ∧ s.respBsq = none then .fault .noValue
        else .next (bsqActions i s)

/-- One move of LCU; it does nothing when it is idle with no command, or when it waits for the lock. -/
def lcuMove (s : State) : Result :=
  match s.pcLcu with
  | .idle => .next (attachAcquire s)
  | .step1 => .next (step1 s)
  | .step2 => .next (step2 s)
  | .step3 => .next (step3 s)
  | .step4 => .next (step4 s)
  | .step5 => .next (step5 s)
  | .step6 => .next (step6 s)
  | .step7 => .next (step7 s)
  | .step8 =>
    match s.regPhase with
    | .start => .next (step8AskA s)
    | .waitA => .next (step8AnswerA s)
    | .gotA => .next (step8AskB s)
    | .waitB => .next (step8AnswerB s)
    | .gotB => .next (step8Finish s)
  | .unwind =>
    match s.respLcu with
    | none => .fault .noValue
    | some _ => .next (unwind s)
  | .detach =>
    if s.epLiveB then .next (detachB s)
    else if s.epLiveA then .next (detachA s)
    else .next (detachEnd s)

end Sys2Proof.Machine
end

