-- ==== Sys2Proof/Machine/Fetch.lean ====
section
/-! DEFINITION. What a step does next: a frame on the BUS port, a waiting command served whole, a command only taken, or
one move of an agent, as the open choices of `turns` say (00 R8 `ARB`, 60 R231; log 2). -/

namespace Sys2Proof.Machine

/-- What a step does: it runs an instruction, or it ends as given. -/
inductive Next where
  | run (i : Instr) (s : State)
  | stay (r : Result)

/-- The waiting command of index `k` is served whole. An illegal word is answered before any agent takes it, whatever
the agents do (30 R88, R95). -/
def serve (k : Nat) (s : State) : Next :=
  match s.cmd[k]? with
  | none => .stay (.next s)
  | some w =>
    let t := { s with cmd := s.cmd.eraseIdx k }
    match decodeCommand w with
    | .error _ => .stay (.next (respondIllegal t))
    | .ok i => .run i t

/-- The waiting command of index `k` is taken by its agent if that can take it, and waits if not (30 R96). -/
def start (k : Nat) (s : State) : Result :=
  match s.cmd[k]? with
  | none => .next s
  | some w =>
    let t := { s with cmd := s.cmd.eraseIdx k }
    match decodeCommand w with
    | .error _ => .next (respondIllegal t)
    | .ok i => if canBegin i t then .next (begin i t) else .next s

/-- One choice carried out. -/
def takeTurn (t : Turn) (s : State) : Next :=
  match t with
  | .serve k => serve k s
  | .start k => .stay (start k s)
  | .lcu => .stay (lcuMove s)
  | .bsq => .stay (bsqMove s)

/-- With no choice given: an agent in mid-command moves on, BSQ first unless it waits for the lock; else the first waiting command is served; else
the block waits for a command (70 R260). -/
def defaultTurn (s : State) : Next :=
  if s.pcBsq ≠ .idle ∨ (s.bsqWaits ∧ s.lockOpenToBsq) then .stay (bsqMove s)
  else if s.lcuBusy then .stay (lcuMove s)
  else serve 0 s

/-- What this step does. A frame on the BUS port is exchanged first: one exchange is outstanding at a time (20 R62). -/
def fetch (s : State) : Next :=
  match s.busPort with
  | [] =>
    match s.turns with
    | [] => defaultTurn s
    | t :: ts => takeTurn t { s with turns := ts }
  | b :: bs =>
    match decodeFrame (b :: bs) with
    | .error _ => .stay (.refused .incompleteFrame)
    | .ok (i, rest) => .run i { s with busPort := rest }

end Sys2Proof.Machine
end

