-- ==== Sys2Proof/Machine/Step.lean ====
section
/-! DEFINITION. One step of the machine, and where a step finds the instruction it runs. -/

namespace Sys2Proof.Machine

/-- One step. -/
def step (s : State) : Host.Outcome State Fault Refusal :=
  match fetch s with
  | .run i t => exec i t
  | .stay r => r

/-- `s` with a row of spec/opcode_table.json placed so that the next step runs it: a command word (32 bits) is sent on
CMD and is the next to be served; a frame (16 or 8 bits) is presented on the BUS port, first byte most significant
(30 R101); logs 11 and 16. -/
def State.withFetchWord (s : State) (nbits w : Nat) : State :=
  match nbits with
  | 32 => { s with cmd := BitVec.ofNat 32 w :: s.cmd, turns := .serve 0 :: s.turns, busPort := [] }
  | 16 => { s with busPort := bytesOfNat 2 w }
  | 8 => { s with busPort := bytesOfNat 1 w }
  | _ => s

end Sys2Proof.Machine
end

