-- ==== Sys2Proof/Safety.lean ====
section
/-! DEFINITION. What the statements speak in: the sets of sequencer states, the invariant of the block, the classes of
events, and the counts of exchanges (10_state.md, 20 R67, 40 R126, 60 R230). -/

namespace Sys2Proof.Machine

/-! ### The invariant -/

/-- The LCU states in which bring-up holds the lock (42 R180). -/
def LcuPc.holdsLock (pc : LcuPc) : Bool :=
  pc == .step1 || pc == .step2 || pc == .step3 || pc == .step4 || pc == .step5 || pc == .step6 || pc == .step7

/-- The BSQ states of a critical section: every one but `IDLE`, so up to the response (41 R165; 40 R120, R123). -/
def BsqPc.holdsLock (pc : BsqPc) : Bool := pc != .idle

/-- The lock is held by the agent that is in a critical section and by no other (10 R24). -/
abbrev State.LockInv (s : State) : Prop :=
  (s.pcLcu.holdsLock = true → s.lock = .lcu) ∧ (s.lock = .lcu → s.pcLcu.holdsLock = true ∨ s.pcLcu = .unwind)
    ∧ (s.pcBsq.holdsLock = true ↔ s.lock = .bsq)

/-- `LC`, `pc_LCU`, `INST` and `EP_LIVE` agree (10 R23, R25, R27, R29, R30; 42 R180, R193, R195). -/
abbrev State.LifecycleInv (s : State) : Prop :=
  (s.lc = .detached → s.pcLcu = .idle ∧ s.inst = false)
    ∧ (s.lc = .running → (s.pcLcu = .idle ∨ s.pcLcu = .detach) ∧ s.inst = true)
    ∧ (s.lc = .running ∧ s.pcLcu = .idle → s.epLiveA = true ∧ s.epLiveB = true)
    ∧ (s.lc = .attaching → s.pcLcu ≠ .detach)
    ∧ (s.lc = .attaching ∧ (s.pcLcu = .idle ∨ s.pcLcu = .step1 ∨ s.pcLcu = .step2 ∨ s.pcLcu = .step3) → s.inst = false)
    ∧ (s.pcLcu = .step4 ∨ s.pcLcu = .step5 ∨ s.pcLcu = .step6 ∨ s.pcLcu = .step7 →
        s.inst = true ∧ s.epLiveA = false ∧ s.epLiveB = false)
    ∧ (s.pcLcu ≠ .step8 → s.regPhase = .start)
    ∧ (s.pcLcu = .step8 → s.inst = true
        ∧ s.epLiveA = (s.regPhase != .start) ∧ s.epLiveB = (s.regPhase == .waitB || s.regPhase == .gotB))
    ∧ (s.pcLcu = .unwind → s.respLcu.isSome = true)

/-- An endpoint does not outlive the instance, and `CUR_PAGE` is `UNKNOWN` when there is none (10 R21, R29); a critical
section of BSQ has an instance (40 R121, 41 R151). -/
abbrev State.InstanceInv (s : State) : Prop :=
  (s.inst = false → s.epLiveA = false ∧ s.epLiveB = false ∧ s.curPage = .unknown)
    ∧ (s.lock = .bsq → s.inst = true)

/-- The command in `REQ` of BSQ, when `w` is one on whose path the sequencer state lies (10 R31, R32). -/
def reqOnPath (w : Word) (pc : BsqPc) : Bool :=
  match decodeCommand w with
  | .ok i => bsqOnPath i pc
  | .error _ => false

/-- BSQ with a command holds it in `REQ`; it waits for the lock only in `IDLE`; in `DONE` and `FAILED` it holds its
response (10 R31, R32; 30 R95). -/
abbrev State.BsqInv (s : State) : Prop :=
  (s.pcBsq ≠ .idle ∨ s.bsqWaits = true → (s.reqBsq.map fun w => reqOnPath w s.pcBsq) = some true)
    ∧ (s.bsqWaits = true → s.pcBsq = .idle)
    ∧ (s.pcBsq = .done ∨ s.pcBsq = .failed → s.respBsq.isSome = true)

/-- The invariant of the block, with the canonical form of the record of the concentrator's registers. -/
abbrev State.Inv (s : State) : Prop :=
  Memory.wf s.chip.mem ∧ s.LockInv ∧ s.LifecycleInv ∧ s.InstanceInv ∧ s.BsqInv

/-- No agent is in mid-command and nothing is on the BUS port (70 R260: the block waits for a command). -/
abbrev State.Quiet (s : State) : Prop :=
  s.bsqFree = true ∧ s.lcuBusy = false ∧ s.lock = .free ∧ s.busPort = []

/-- The state after a successful ATTACH (70 R265). -/
abbrev State.Run (s : State) : Prop :=
  s.lc = .running ∧ s.inst = true ∧ s.curPage = .page Config.hw.pageRadio ∧ s.epLiveA = true ∧ s.epLiveB = true
    ∧ s.lock = .free ∧ s.pcLcu = .idle

/-! ### Commands and events -/

/-- The instruction is a command of CMD, not a frame. -/
def isCommand : Instr → Bool
  | .ensurePage _ _ => true
  | .softReset _ => true
  | .xferWr _ _ _ _ _ _ => true
  | .xferRd _ _ _ => true
  | .attach _ _ => true
  | .detach _ => true
  | .busWr _ _ => false
  | .busRd _ => false

/-- An event on a channel that is used only under the lock: BUS, CFG, GPIO, TIMER (10 R24). -/
def Event.underLock : Event → Bool
  | .wr _ _ _ => true
  | .rd _ _ => true
  | .cfg _ => true
  | .gpio _ => true
  | .delay _ => true
  | .reg _ _ => false
  | .unreg _ => false
  | .log _ => false
  | .resp _ => false

/-- A write exchange. -/
def Event.isWrite : Event → Bool
  | .wr _ _ _ => true
  | _ => false

/-- A BUS exchange. -/
def Event.onBus : Event → Bool
  | .wr _ _ _ => true
  | .rd _ _ => true
  | _ => false

/-- The exchanges the block may make (20 R67), and the values it may write to the page register (30 R104). -/
def Event.allowed : Event → Bool
  | .wr a v _ =>
    if a = Config.hw.pageReg then
      v == pageValue 0 || v == pageValue 1 || v == pageValue 2 || v == pageValue 3 || v == softResetValue
    else a == Config.hw.genReg || a == Config.hw.clkReg || a == Config.hw.rctrlReg
      || a == Endpoint.a.dataReg || a == Endpoint.a.addrReg || a == Endpoint.a.csReg
      || a == Endpoint.b.dataReg || a == Endpoint.b.addrReg || a == Endpoint.b.csReg
  | .rd a _ => a == Config.hw.idReg || a == Config.hw.genReg || a == Config.hw.clkReg || a == Config.hw.rctrlReg
      || a == Endpoint.a.rbReg || a == Endpoint.a.csReg || a == Endpoint.b.rbReg || a == Endpoint.b.csReg
  | .resp w => legalResponse w
  | _ => true

/-- The events a step from `s` to `t` added, when the trace of `s` is kept as it was. -/
def newEvents (s t : State) : List Event := t.events.drop s.events.length

/-- How many page switches a trace holds: writes to the page register of a page's value (30 R104). -/
def pageWrites (es : List Event) : Nat :=
  (es.filter fun e => match e with
    | .wr a v _ => a == Config.hw.pageReg && (v &&& ~~~Config.hw.pageMask == 0)
    | _ => false).length

/-- How many calls of a sequence ask for a page that differs from the one before; `prev` is the page before the first
(40 R126). -/
def pageChanges : CurPage → List Page → Nat
  | _, [] => 0
  | prev, p :: ps => (if prev = .page p then 0 else 1) + pageChanges (.page p) ps

/-- A sequence of `EnsurePage` calls (40 R126). -/
def ensurePages : List Page → State → State
  | [], s => s
  | p :: ps, s => ensurePages ps (ensurePage p s).1

/-! ### Traces of the rules -/

/-- The value both CS writes are made from: the byte read, or 0x00 when the read failed (41 R156). -/
def csValue : Answer → Byte
  | .ok v => v
  | .err _ => 0

/-- The CS pulse degraded: its read or one of its writes failed (60 R229). -/
def csDegraded (r : Answer) (w1 w2 : Option Cause) : Bool := (failOf r).isSome || w1.isSome || w2.isSome

/-- A LOG event if an exchange failed (41 R156). -/
def logIf (fail : Option Cause) (tag : LogTag) : List Event := if fail.isSome then [.log tag] else []

/-- The events of the CS pulse (41 R156, R164). -/
def csTrace (ep : Endpoint) (r : Answer) (w1 w2 : Option Cause) : List Event :=
  [.rd ep.csReg r] ++ logIf (failOf r) .csReadFailed
    ++ [.wr ep.csReg (csAssertValue (csValue r)) w1] ++ logIf w1 .csAssertFailed
    ++ [.wr ep.csReg (csDeassertValue (csValue r)) w2] ++ logIf w2 .csDeassertFailed

/-- Events 1 to 4 of a full ATTACH: the reset line, when there is one (42 R181, R197). -/
def resetLineTrace (rstp : Bool) : List Event :=
  if rstp then [.gpio .active, .delay Config.hw.tRstHold, .gpio .inactive, .delay Config.hw.tRstRelease] else []

/-- Events 1 to 21 of a full ATTACH with every answer successful; the reads of 16, 17 and 43 return `g`, `k` and
`x`, `y`, `z` (42 R197). -/
def attachTrace (rstp : Bool) (g k x y z : Byte) : List Event :=
  resetLineTrace rstp ++ [.cfg none, .rd Config.hw.idReg (.ok Config.hw.idExpected),
    .wr Config.hw.pageReg (pageValue Config.hw.pageCtrl) none, .wr Config.hw.pageReg softResetValue none,
    .rd Config.hw.genReg (.ok g), .wr Config.hw.genReg (g &&& ~~~genMask) none,
    .rd Config.hw.clkReg (.ok k), .wr Config.hw.clkReg (k &&& ~~~clkMask) none,
    .wr Config.hw.pageReg (pageValue Config.hw.pageRadio) none,
    .rd Config.hw.rctrlReg (.ok x), .wr Config.hw.rctrlReg (x ||| radioEnMask) none, .delay Config.hw.tSettle,
    .rd Config.hw.rctrlReg (.ok y), .wr Config.hw.rctrlReg (y ||| radioRstMask) none, .delay Config.hw.tRpulse,
    .rd Config.hw.rctrlReg (.ok z), .wr Config.hw.rctrlReg (z &&& ~~~radioRstMask) none]

/-- The exchanges of bring-up up to step 7 are answered with success: the identity is the expected one, and the reads of 16, 17 and 43
return `g`, `k` and `x`, `y`, `z` (42 R197). -/
abbrev State.BringUpAnswers (s : State) (g k x y z : Byte) : Prop :=
  failOf (s.answer 0) = none ∧ s.answer 1 = .ok Config.hw.idExpected ∧ failOf (s.answer 2) = none ∧ failOf (s.answer 3) = none
    ∧ s.answer 4 = .ok g ∧ failOf (s.answer 5) = none ∧ s.answer 6 = .ok k ∧ failOf (s.answer 7) = none
    ∧ failOf (s.answer 8) = none ∧ s.answer 9 = .ok x ∧ failOf (s.answer 10) = none
    ∧ s.answer 11 = .ok y ∧ failOf (s.answer 12) = none ∧ s.answer 13 = .ok z ∧ failOf (s.answer 14) = none

/-- How many answers, and events, the page switch of a transfer takes: none when `CUR_PAGE` is `PAGE_RADIO` already
(41 R157). -/
def pageSwitchCount (s : State) : Nat := if s.curPage = .page Config.hw.pageRadio then 0 else 1

/-- The event of a switch to `PAGE_RADIO` that succeeded, when there is one. -/
def pageSwitchTrace (s : State) : List Event :=
  if s.curPage = .page Config.hw.pageRadio then [] else [.wr Config.hw.pageReg (pageValue Config.hw.pageRadio) none]

/-- What is known of the concentrator after that page switch. -/
def pageSwitchChip (s : State) : Chip :=
  if s.curPage = .page Config.hw.pageRadio then s.chip
  else s.chip.write Config.hw.pageReg (pageValue Config.hw.pageRadio) false

/-- The page switch of a transfer succeeds, or is not needed (41 R153). -/
abbrev State.PageSwitchOk (s : State) : Prop :=
  s.curPage ≠ .page Config.hw.pageRadio → failOf (s.answer 0) = none

/-- `s` with the choices to come replaced. -/
def State.withTurns (ts : List Turn) (s : State) : State := { s with turns := ts }

/-- `n` steps, ending at the first one that does not give a next state. -/
def runSteps : Nat → State → Result
  | 0, s => .next s
  | n + 1, s =>
    match step s with
    | .next t => runSteps n t
    | .fault r => .fault r
    | .refused r => .refused r

/-- The turn that moves a command's agent on. -/
def moveTurn : Instr → Turn
  | .ensurePage _ _ => .bsq
  | .softReset _ => .bsq
  | .xferWr _ _ _ _ _ _ => .bsq
  | .xferRd _ _ _ => .bsq
  | .attach _ _ => .lcu
  | .detach _ => .lcu
  | .busWr _ _ => .bsq
  | .busRd _ => .bsq

/-- The moves a command needs at most after it is taken with the lock open to its agent (10 R30, R31). -/
def moveCount : Instr → Nat
  | .ensurePage _ _ => 1
  | .softReset _ => 1
  | .xferWr _ _ _ _ _ _ => 5
  | .xferRd _ _ _ => 3
  | .attach _ _ => 12
  | .detach _ => 3
  | .busWr _ _ => 0
  | .busRd _ => 0

end Sys2Proof.Machine
end

