-- ==== Sys2Proof/Certificates/Slice0/Obligations.lean ====
section
/-! DEFINITION. The statements for the provers. Each docstring names what of the spec it formalises. -/

open Sys2Proof Sys2Proof.Machine

/-! ### Encoding -/

/-- 30 R81 to R87, R99 to R103: no operand and no bit of an encoding is dropped. -/
def Obligations.DecodeOfEncodeIsTheInstruction : Prop :=
  ∀ i : Instr, i.WellFormed → decode (encode i) = .ok i

/-- The other direction: each word and each frame has one meaning, and the instruction spells it exactly. -/
def Obligations.EncodeOfDecodeIsTheCode : Prop :=
  ∀ (c : Code) (i : Instr), decode c = .ok i → encode i = c ∧ i.WellFormed

/-- 30 R88, R95 (92 D31): exactly the words with `OP` 0 or 7 to 15 or with `RSV` not 0 are illegal; such a word is answered
0x00000008 whatever the agents do, with no other event and no state changed but that the word is no longer waiting. -/
def Obligations.IllegalWordsAreAnsweredAtOnce : Prop :=
  (∀ w : Word, (∃ e, decodeCommand w = .error e) ↔
      (fieldOp w = 0 ∨ 7 ≤ (fieldOp w).toNat ∨ fieldRsv w ≠ 0))
    ∧ ∀ (w : Word) (s : State) (k : Nat) (ts : List Turn), (∃ e, decodeCommand w = .error e) → s.busPort = [] →
        s.cmd[k]? = some w → (s.turns = .serve k :: ts ∨ s.turns = .start k :: ts) →
        step s = .next { s with
          turns := ts
          cmd := s.cmd.eraseIdx k
          events := s.events ++ [.resp 0x00000008] }

/-- 95 section 2.1 (E6 to E16) and section 2.2 (F1, F3): words written out in the spec decode as it says; the two frames do
with `WRITE_FLAG` = 1, the value this machine has (00 R8, 30 R99; PRESUMED, log 14). -/
def Obligations.SpelledWordsDecode : Prop :=
  decode (.command 0x10020000) = .ok (.ensurePage 2 0)
    ∧ decode (.command 0x20000000) = .ok (.softReset 0)
    ∧ decode (.command 0x32C00855) = .ok (.xferWr .b 2 true 0x08 0x55 0)
    ∧ decode (.command 0x43800000) = .ok (.xferRd .b 3 0)
    ∧ decode (.command 0x50010000) = .ok (.attach true 0)
    ∧ decode (.command 0x60000000) = .ok (.detach 0)
    ∧ (Config.hw.writeFlag = true →
      decode (.frame [0x80, 0x02]) = .ok (.busWr 0 0x02) ∧ decode (.frame [0x01]) = .ok (.busRd 1))

/-- 30 R106: every line of the assembler decodes to the command it names. -/
def Obligations.AssembledLineDecodes : Prop :=
  ∀ line : Asm, decodeCommand (assemble line) = .ok line.instr

/-- 30 R99 to R102: the bytes of a write frame and of a read frame; bit 7 of the first byte is `WRITE_FLAG` in a write frame
and its opposite in a read frame (the value of `WRITE_FLAG`: PRESUMED, log 14). -/
def Obligations.FrameBytesOfExchanges : Prop :=
  ∀ (a : RegAddr) (v : Byte),
    (∃ b : Byte, encode (.busWr a v) = .frame [b, v] ∧ b.getLsbD 7 = Config.hw.writeFlag ∧ b.setWidth 7 = a)
      ∧ (∃ b : Byte, encode (.busRd a) = .frame [b] ∧ b.getLsbD 7 = !Config.hw.writeFlag ∧ b.setWidth 7 = a)

/-- 30 R92: the response of an error carries its code, its phase, its cause unchanged, its identity value, and zero in
every other field. -/
def Obligations.ErrorResponseFields : Prop :=
  ∀ (e : CmdError) (c : Cause) (v : Byte) (ph : Phase),
    respCode e.word = e.code ∧ respDeg e.word = 0 ∧ respRidx e.word = 0 ∧ respReserved e.word = 0
      ∧ (e = .busError c → respPhase e.word = 0 ∧ respCause e.word = c ∧ respRdata e.word = 0)
      ∧ (e = .registrationFailed c → respPhase e.word = 0 ∧ respCause e.word = c ∧ respRdata e.word = 0)
      ∧ (e = .transferFailed ph c → respPhase e.word = ph.code ∧ respCause e.word = c ∧ respRdata e.word = 0)
      ∧ (e = .unexpectedIdentity v → respPhase e.word = 0 ∧ respCause e.word = 0 ∧ respRdata e.word = v)
      ∧ (e = .invalidLength ∨ e = .notAttached ∨ e = .alreadyAttached ∨ e = .illegalCommand →
          respPhase e.word = 0 ∧ respCause e.word = 0 ∧ respRdata e.word = 0)

/-- 00 R8, 10 R28, 20 R71, 30 R104, R105: every named parameter has its value of 00 R8 (`WRITE_FLAG`: PRESUMED, log 14); the
registers of the two windows, which share none; the masks of the read-modify-writes; the values written to the page
register; and the assert and deassert values of the CS pulse. -/
def Obligations.WindowsAndMasks : Prop :=
  Config.hw.pageReg = 0 ∧ Config.hw.idReg = 1 ∧ Config.hw.idExpected = 103 ∧ Config.hw.genReg = 16
    ∧ Config.hw.clkReg = 17 ∧ Config.hw.pageCtrl = 0 ∧ Config.hw.pageRadio = 2 ∧ Config.hw.rctrlReg = 43
    ∧ Config.hw.pageMask = 0x03 ∧ Config.hw.lenMin = 1 ∧ Config.hw.lenMax = 3 ∧ Config.hw.nPages = 4
    ∧ Config.hw.dataBits = 8 ∧ Config.hw.regAddrBits = 7 ∧ Config.hw.nEndpoints = 2 ∧ Config.hw.causeBits = 8
    ∧ Config.hw.softResetBit = 7 ∧ Config.hw.genBit = 3 ∧ Config.hw.clkBit = 0 ∧ Config.hw.baseA = 33
    ∧ Config.hw.baseB = 38 ∧ Config.hw.offData = 0 ∧ Config.hw.offRb = 1 ∧ Config.hw.offAddr = 2 ∧ Config.hw.offCs = 4
    ∧ Config.hw.csBit = 0 ∧ Config.hw.aEnBit = 0 ∧ Config.hw.bEnBit = 1 ∧ Config.hw.rrstBit = 2
    ∧ Config.hw.writeFlag = true ∧ Config.hw.tRstHold = 100 ∧ Config.hw.tRstRelease = 100 ∧ Config.hw.tSettle = 500 ∧ Config.hw.tRpulse = 5
    ∧ Endpoint.a.dataReg = 33 ∧ Endpoint.a.rbReg = 34 ∧ Endpoint.a.addrReg = 35 ∧ Endpoint.a.csReg = 37
    ∧ Endpoint.b.dataReg = 38 ∧ Endpoint.b.rbReg = 39 ∧ Endpoint.b.addrReg = 40 ∧ Endpoint.b.csReg = 42
    ∧ genMask = 0x08 ∧ clkMask = 0x01 ∧ radioEnMask = 0x03 ∧ radioRstMask = 0x04 ∧ softResetValue = 0x80
    ∧ pageValue 0 = 0x00 ∧ pageValue 1 = 0x01 ∧ pageValue 2 = 0x02 ∧ pageValue 3 = 0x03
    ∧ ∀ c : Byte, csAssertValue c = c ||| 0x01 ∧ csDeassertValue c = c &&& 0xFE

/-! ### Steps -/

/-- A step runs the instruction it fetches: the waiting command that is served, or the frame on the BUS port (the model's
fetch: logs 2, 11 and 16; 30 R95, R103). -/
def Obligations.StepRunsTheServedInstruction : Prop :=
  (∀ (s : State) (k : Nat) (ts : List Turn) (w : Word) (i : Instr), s.busPort = [] → s.turns = .serve k :: ts →
      s.cmd[k]? = some w → decodeCommand w = .ok i →
      step s = exec i { s with turns := ts, cmd := s.cmd.eraseIdx k })
    ∧ (∀ (s : State) (i : Instr) (rest : List Byte), decodeFrame s.busPort = .ok (i, rest) →
      step s = exec i { s with busPort := rest })

/-- With no choice given, a quiet block serves the command that waits first (the model's default choice: log 2; the spec
leaves the order open, 92 D3). -/
def Obligations.QuietStepServesTheFirstCommand : Prop :=
  ∀ (s : State) (w : Word) (ws : List Word) (i : Instr), s.Quiet → s.turns = [] → s.cmd = w :: ws →
    decodeCommand w = .ok i → step s = exec i { s with cmd := ws }

/-- The row placed by `withFetchWord` is what the next step runs (log 16). -/
def Obligations.StepRunsThePlacedRow : Prop :=
  ∀ (s : State) (nbits w : Nat) (i : Instr), decodeTableWord nbits w = some i →
    step (s.withFetchWord nbits w) = exec i { s with busPort := [] }

/-- 30 R96 (92 D3, D38): a command whose agent is busy waits on CMD and is not refused (where it waits is the model's:
log 2). -/
def Obligations.CommandOfABusyAgentWaits : Prop :=
  ∀ (i : Instr) (s : State), isCommand i = true → canBegin i s = false →
    exec i s = .next { s with cmd := s.cmd ++ [encodeWord i] }

/-- 30 R82, R95, R96: a waiting word that is legal is handed to its agent when that executes no command, whoever holds the
lock: with `OP` 5 or 6 `REQ` of LCU becomes the word, with `OP` 1 to 4 `REQ` of BSQ does, and the other agent's `REQ` is
unchanged. It holds whether the word is served whole or only taken (log 2). -/
def Obligations.LegalWordsAreHandedToTheirAgent : Prop :=
  ∀ (w : Word) (s : State) (k : Nat) (ts : List Turn), (∃ i, decodeCommand w = .ok i) → s.busPort = [] →
    s.cmd[k]? = some w → (s.turns = .serve k :: ts ∨ s.turns = .start k :: ts) →
    (fieldOp w = 5 ∨ fieldOp w = 6 → s.lcuReady = true →
      ∃ t, step s = .next t ∧ t.reqLcu = some w ∧ t.reqBsq = s.reqBsq ∧ t.cmd = s.cmd.eraseIdx k)
    ∧ (fieldOp w = 1 ∨ fieldOp w = 2 ∨ fieldOp w = 3 ∨ fieldOp w = 4 → s.bsqFree = true →
      ∃ t, step s = .next t ∧ t.reqBsq = some w ∧ t.reqLcu = s.reqLcu ∧ t.cmd = s.cmd.eraseIdx k)

/-- 10 R24, 30 R95, 40 R121: a BSQ command handed over while LCU holds the lock waits in `Acquire`: its word is in `REQ`, `pc_BSQ`
stays `IDLE`, nothing else changes and no event is performed, and a move of BSQ does nothing. When LCU no longer holds the
lock, BSQ's next move makes the command's checks in the state LCU left: it begins the command as if it were handed over
then (`bsqWaits` is the model's: log 25). -/
def Obligations.BsqCommandWaitsForTheLock : Prop :=
  ∀ (i : Instr) (s : State),
    ((∃ p x, i = .ensurePage p x) ∨ (∃ x, i = .softReset x) ∨ (∃ ep len dv addr data x, i = .xferWr ep len dv addr data x)
      ∨ ∃ ep len x, i = .xferRd ep len x) → i.WellFormed → s.bsqFree = true → s.lock = .lcu →
    ∃ t, exec i s = .next t ∧ t = { s with reqBsq := some (encodeWord i), bsqWaits := true } ∧ bsqMove t = .next t
      ∧ ∀ u : State, u.pcBsq = .idle → u.bsqWaits = true → u.reqBsq = t.reqBsq → u.lock ≠ .lcu →
        bsqMove u = .next (begin i { u with bsqWaits := false })

/-- 10 R37, 70 R260 (92 D25; only CUR_PAGE is the source's): the block after reset. -/
def Obligations.ResetValuesOfTheBlock : Prop :=
  State.reset.curPage.bits = 7 ∧ State.reset.inst = false ∧ State.reset.lock.bits = 0 ∧ State.reset.lc.bits = 0
    ∧ State.reset.rstp = false ∧ State.reset.epLiveA = false ∧ State.reset.epLiveB = false
    ∧ State.reset.pcLcu.bits = 0 ∧ State.reset.pcBsq.bits = 0 ∧ State.reset.deg = false
    ∧ State.reset.reqLcu = none ∧ State.reset.reqBsq = none ∧ State.reset.tmp = none ∧ State.reset.csv = none
    ∧ State.reset.respLcu = none ∧ State.reset.respBsq = none

/-! ### Whole-machine rules -/

/-- The invariant holds after reset (10 R37, 70 R260; the reset values of the model's own fields: log 18). -/
def Obligations.ResetMeetsTheInvariant : Prop := State.reset.Inv

/-- 10 R21 to R32: every step keeps the invariant, whichever agent moves: the record of the concentrator's registers keeps its
canonical form (log 8), the lock is held by the agent in a critical section, the lifecycle registers agree, an endpoint
does not outlive the instance, and BSQ holds the command that it executes or waits with. -/
def Obligations.StepKeepsTheInvariant : Prop :=
  ∀ s t : State, s.Inv → step s = .next t → t.Inv

/-- 60 R220, R234, R245: from a state that meets the invariant a step never stops, unless half a frame is on the BUS
port. -/
def Obligations.StepNeverStops : Prop :=
  ∀ s : State, s.Inv → (s.busPort = [] ∨ ∃ r, decodeFrame s.busPort = .ok r) → ∃ t, step s = .next t

/-- 10 R24, 20 R74, 70 R266: when a move of an agent adds an event on BUS, CFG, GPIO or TIMER, that agent held the lock,
so the other was in no critical section. -/
def Obligations.BusEventsOnlyUnderTheLock : Prop :=
  ∀ (s t : State) (es : List Event) (e : Event), s.LockInv → t.events = s.events ++ es → e ∈ es →
    e.underLock = true →
    (lcuMove s = .next t → s.lock = .lcu ∧ s.pcBsq.holdsLock = false)
      ∧ (bsqMove s = .next t → s.lock = .bsq ∧ s.pcLcu.holdsLock = false)

/-- 41 R150, R160, R165, 10 R31, R166: from its first sequencer state to its response a command of BSQ holds the lock: a move of
BSQ either keeps the lock and sends no response, or it sends the response as its last event, frees the lock and makes BSQ
idle; a move of LCU meanwhile keeps the lock with BSQ and adds no event on BUS, CFG, GPIO or TIMER (the release and the
response are one move: log 19). -/
def Obligations.BsqHoldsTheLockToItsResponse : Prop :=
  ∀ s t : State, s.Inv → s.pcBsq ≠ .idle →
    s.lock = .bsq
    ∧ (bsqMove s = .next t → ∃ es, t.events = s.events ++ es
      ∧ ((t.lock = .bsq ∧ t.pcBsq ≠ .idle ∧ ∀ w, .resp w ∉ es)
        ∨ (t.lock = .free ∧ t.pcBsq = .idle
          ∧ ∃ pre w, es = pre ++ [.resp w] ∧ t.respBsq = some w ∧ ∀ v, .resp v ∉ pre)))
    ∧ (lcuMove s = .next t → t.lock = .bsq ∧ t.pcBsq = s.pcBsq
      ∧ ∃ es, t.events = s.events ++ es ∧ ∀ e ∈ es, e.underLock = false)

/-- 20 R67, 30 R104, 93 V5: a command adds only exchanges of the listed registers, writes only the listed values to the
page register, and sends only legal response words; the trace so far is kept. -/
def Obligations.CommandsMakeOnlyListedExchanges : Prop :=
  ∀ (i : Instr) (s t : State), isCommand i = true → exec i s = .next t →
    ∃ es, t.events = s.events ++ es ∧ ∀ e ∈ es, e.allowed = true

/-- 10 R30, R31: a command served whole is the same run as its agent taking it and moving through its sequencer states with
no other agent between (the granularity of a move is the model's: logs 2, 3 and 6). -/
def Obligations.MovesRunTheWholeCommand : Prop :=
  ∀ (i : Instr) (w : Word) (ts : List Turn) (s : State), decodeCommand w = .ok i → canBegin i s = true →
    s.busPort = [] →
    runSteps (moveCount i + 1)
        { s with cmd := w :: s.cmd, turns := .start 0 :: (List.replicate (moveCount i) (moveTurn i) ++ ts) }
      = exec i (s.withTurns ts)

/-- 60 R245, 41 R166: from every state of the invariant, a command that BSQ executes ends within six of its moves, and the
lock is no longer held by it; one that waits for the lock does too when LCU does not hold it (a move is one sequencer state, or
the `Acquire`: log 2). -/
def Obligations.BsqCommandEndsInSixMoves : Prop :=
  ∀ (s : State) (ts : List Turn), s.Inv → s.busPort = [] →
    ∃ t, runSteps 6 (s.withTurns (List.replicate 6 Turn.bsq ++ ts)) = .next t ∧ t.pcBsq = .idle ∧ t.lock ≠ .bsq
      ∧ (s.lock ≠ .lcu → t.bsqFree = true)

/-- 30 R81, 93 V3: the bits an operation ignores change nothing but the word kept in `REQ` (kept by the model: log 22). -/
def Obligations.IgnoredFieldsHaveNoEffect : Prop :=
  (∀ (p : Page) (x y : BitVec 22) (s t : State), s.bsqFree = true → exec (.ensurePage p x) s = .next t →
      exec (.ensurePage p y) s = .next { t with reqBsq := some (encodeWord (.ensurePage p y)) })
    ∧ (∀ (x y : BitVec 24) (s t : State), s.bsqFree = true → exec (.softReset x) s = .next t →
      exec (.softReset y) s = .next { t with reqBsq := some (encodeWord (.softReset y)) })
    ∧ (∀ (ep : Endpoint) (len : Nat) (dv : Bool) (addr data : Byte) (x y : BitVec 2) (s t : State), s.bsqFree = true →
      exec (.xferWr ep len dv addr data x) s = .next t →
      exec (.xferWr ep len dv addr data y) s
        = .next { t with reqBsq := some (encodeWord (.xferWr ep len dv addr data y)) })
    ∧ (∀ (ep : Endpoint) (len : Nat) (x y : BitVec 19) (s t : State), s.bsqFree = true →
      exec (.xferRd ep len x) s = .next t →
      exec (.xferRd ep len y) s = .next { t with reqBsq := some (encodeWord (.xferRd ep len y)) })
    ∧ (∀ (r : Bool) (x y : BitVec 23) (s t : State), s.lcuReady = true → exec (.attach r x) s = .next t →
      exec (.attach r y) s = .next { t with reqLcu := some (encodeWord (.attach r y)) })
    ∧ (∀ (x y : BitVec 24) (s t : State), s.lcuReady = true → exec (.detach x) s = .next t →
      exec (.detach y) s = .next { t with reqLcu := some (encodeWord (.detach y)) })

/-! ### Page multiplexer -/

/-- 40 R122: `EnsurePage` is silent on the tracked page; on another it is one write of `page & PAGE_MASK` to `PAGE_REG`, and
`CUR_PAGE` becomes the page on Ok and is left unchanged on Err, whose cause is returned. Nothing else of the block is
written. What is known of the concentrator afterwards is the model's record (logs 7 and 9). -/
def Obligations.EnsurePagePrimitive : Prop :=
  ∀ (p : Page) (s : State),
    (s.curPage = .page p → ensurePage p s = (s, none))
      ∧ (s.curPage ≠ .page p →
        ensurePage p s =
          ({ s with
              curPage := if failOf (s.answer 0) = none then .page p else s.curPage
              chip := s.chip.write Config.hw.pageReg (p.setWidth 8 &&& Config.hw.pageMask)
                (failOf (s.answer 0)).isSome
              answers := s.answers.tail
              drawn := s.drawn + 1
              busReply := some (writeReply (failOf (s.answer 0)))
              events := s.events
                ++ [.wr Config.hw.pageReg (p.setWidth 8 &&& Config.hw.pageMask) (failOf (s.answer 0))] },
            failOf (s.answer 0)))

/-- 40 R120, R128: ENSURE_PAGE with an instance, whole: the tracked page, another page with an answer Ok, and another page
with an answer Err. `chip` is the model's record (logs 7 and 9). -/
def Obligations.EnsurePageCommand : Prop :=
  ∀ (p : Page) (x : BitVec 22) (s : State), s.bsqReady = true → s.inst = true →
    (s.curPage = .page p →
      exec (.ensurePage p x) s = .next { s with
        lock := .free
        reqBsq := some (encodeWord (.ensurePage p x))
        respBsq := some 0x00000000
        events := s.events ++ [.resp 0x00000000] })
    ∧ (∀ v, s.curPage ≠ .page p → s.answer 0 = .ok v →
      exec (.ensurePage p x) s = .next { s with
        curPage := .page p
        lock := .free
        reqBsq := some (encodeWord (.ensurePage p x))
        respBsq := some 0x00000000
        chip := { s.chip with pages := .only p }
        answers := s.answers.tail
        drawn := s.drawn + 1
        busReply := some .done
        events := s.events ++ [.wr Config.hw.pageReg (pageValue p) none, .resp 0x00000000] })
    ∧ (∀ c, s.curPage ≠ .page p → s.answer 0 = .err c →
      exec (.ensurePage p x) s = .next { s with
        lock := .free
        reqBsq := some (encodeWord (.ensurePage p x))
        respBsq := some (0x00000001#32 ||| c.setWidth 32 <<< 8)
        chip := { s.chip with pages := s.chip.pages.insert p }
        answers := s.answers.tail
        drawn := s.drawn + 1
        busReply := some (.failed c)
        events := s.events
          ++ [.wr Config.hw.pageReg (pageValue p) (some c), .resp (0x00000001#32 ||| c.setWidth 32 <<< 8)] })

/-- 40 R123, R125, 70 R261, R270: SOFT_RESET with an instance, whole: one write of `SOFT_RESET_BIT` alone, `CUR_PAGE` unchanged on both
answers, nothing known of the concentrator afterwards (the value written is 92 D10; the record is log 7). -/
def Obligations.SoftResetCommand : Prop :=
  ∀ (x : BitVec 24) (s : State), s.bsqReady = true → s.inst = true →
    (∀ v, s.answer 0 = .ok v →
      exec (.softReset x) s = .next { s with
        lock := .free
        reqBsq := some (encodeWord (.softReset x))
        respBsq := some 0x00000000
        chip := { pages := .all, mem := [] }
        answers := s.answers.tail
        drawn := s.drawn + 1
        busReply := some .done
        events := s.events ++ [.wr Config.hw.pageReg softResetValue none, .resp 0x00000000] })
    ∧ (∀ c, s.answer 0 = .err c →
      exec (.softReset x) s = .next { s with
        lock := .free
        reqBsq := some (encodeWord (.softReset x))
        respBsq := some (0x00000001#32 ||| c.setWidth 32 <<< 8)
        chip := { pages := .all, mem := [] }
        answers := s.answers.tail
        drawn := s.drawn + 1
        busReply := some (.failed c)
        events := s.events
          ++ [.wr Config.hw.pageReg softResetValue (some c), .resp (0x00000001#32 ||| c.setWidth 32 <<< 8)] })

/-- 40 R121, R124 (92 D27): without an instance both page commands answer NOT_ATTACHED with no event on BUS. -/
def Obligations.PageCommandsNeedAnInstance : Prop :=
  ∀ (i : Instr) (s : State), ((∃ p x, i = .ensurePage p x) ∨ ∃ x, i = .softReset x) → s.bsqReady = true →
    s.inst = false →
    exec i s = .next { s with
      lock := .free
      reqBsq := some (encodeWord i)
      respBsq := some 0x00000006
      events := s.events ++ [.resp 0x00000006] }

/-- 40 R126: over a sequence of `EnsurePage` calls in which every page write succeeds, the page writes are as many as the
calls that ask for another page than the one before. -/
def Obligations.PageSwitchesAreCoalesced : Prop :=
  ∀ (ps : List Page) (s : State), (∀ k, k < pageChanges s.curPage ps → failOf (s.answer k) = none) →
    ∃ es, (ensurePages ps s).events = s.events ++ es ∧ pageWrites es = pageChanges s.curPage ps

/-- 70 R271, 40 R128, 90 C1: after an ENSURE_PAGE that failed the concentrator may have switched or not; asking for the same
page writes again, asking for the tracked page writes nothing. -/
def Obligations.FailedSwitchLeavesAStalePage : Prop :=
  ∀ (p q : Page) (x y z : BitVec 22) (c : Cause) (s t : State), s.bsqReady = true → s.inst = true →
    s.curPage = .page q → q ≠ p → s.answer 0 = .err c → exec (.ensurePage p x) s = .next t →
    t.curPage = .page q ∧ t.chip.pages.mem p = true ∧ (∀ r, s.chip.pages.mem r = true → t.chip.pages.mem r = true)
      ∧ (∃ u, exec (.ensurePage q y) t = .next u ∧ u.events = t.events ++ [.resp 0])
      ∧ (∃ u r w, exec (.ensurePage p z) t = .next u
        ∧ u.events = t.events ++ [.wr Config.hw.pageReg (pageValue p) r, .resp w])

/-- 40 R127 (92 D14): the read-modify-write: no write after a failed read; else one write of `(v & ~clr) | set`, issued
even when it changes nothing, whose result is returned. `chip` is the model's record (log 8). -/
def Obligations.ReadModifyWrite : Prop :=
  ∀ (a : RegAddr) (clr set : Byte) (s : State),
    (∀ c, s.answer 0 = .err c →
      rmw a clr set s =
        ({ s with
            answers := s.answers.tail
            drawn := s.drawn + 1
            busReply := some (.failed c)
            events := s.events ++ [.rd a (.err c)] }, some c))
    ∧ (∀ v, s.answer 0 = .ok v →
      rmw a clr set s =
        ({ s with
            tmp := some v
            chip := s.chip.write a ((v &&& ~~~clr) ||| set) (failOf (s.answer 1)).isSome
            answers := s.answers.drop 2
            drawn := s.drawn + 2
            busReply := some (writeReply (failOf (s.answer 1)))
            events := s.events ++ [.rd a (.ok v), .wr a ((v &&& ~~~clr) ||| set) (failOf (s.answer 1))] },
          failOf (s.answer 1)))

/-! ### Transfers -/

/-- 41 R151, R152, 60 R230 (92 D22): a transfer on an endpoint that is not live answers NOT_ATTACHED, and one on a live
endpoint with a length below `LEN_MIN` or above `LEN_MAX` (0, or 4 and more) answers INVALID_LENGTH, both with no event on BUS. -/
def Obligations.RefusedTransfersTouchNothing : Prop :=
  ∀ (i : Instr) (ep : Endpoint) (len : Nat) (s : State),
    ((∃ dv addr data x, i = .xferWr ep len dv addr data x) ∨ ∃ x, i = .xferRd ep len x) → s.bsqReady = true →
    (s.live ep = false →
      exec i s = .next { s with
        lock := .free
        reqBsq := some (encodeWord i)
        respBsq := some 0x00000006
        events := s.events ++ [.resp 0x00000006] })
    ∧ (s.live ep = true → len < Config.hw.lenMin ∨ Config.hw.lenMax < len →
      exec i s = .next { s with
        lock := .free
        reqBsq := some (encodeWord i)
        respBsq := some 0x00000002
        events := s.events ++ [.resp 0x00000002] })

/-- 41 R153: a transfer calls `EnsurePage(2)`: one write of 2 to register 0 unless page 2 is the tracked page; when that write
fails, no further event is performed, the response is `TRANSFER_FAILED` with phase PAGE_SWITCH and the cause, and `CUR_PAGE`
keeps its value; when it succeeds or is not needed, the transfer goes on with page 2 tracked. -/
def Obligations.TransferPageSwitchPhase : Prop :=
  ∀ (i : Instr) (ep : Endpoint) (len : Nat) (s : State),
    ((∃ dv addr data x, i = .xferWr ep len dv addr data x) ∨ ∃ x, i = .xferRd ep len x) → s.bsqReady = true →
    s.live ep = true → Config.hw.lenMin ≤ len → len ≤ Config.hw.lenMax →
    Config.hw.pageRadio = 2 ∧ pageValue Config.hw.pageRadio = 0x02 ∧ ∃ t, exec i s = .next t
      ∧ (∀ c, s.curPage ≠ .page Config.hw.pageRadio → s.answer 0 = .err c →
          t.curPage = s.curPage ∧ t.respBsq = some (0x00000004#32 ||| c.setWidth 32 <<< 8)
            ∧ t.events = s.events
              ++ [.wr Config.hw.pageReg (pageValue Config.hw.pageRadio) (some c),
                .resp (0x00000004#32 ||| c.setWidth 32 <<< 8)])
      ∧ (s.PageSwitchOk → t.curPage = .page Config.hw.pageRadio ∧ ∃ e es, e.onBus = true
          ∧ (∀ v f, e ≠ .wr Config.hw.pageReg v f) ∧ t.events = s.events ++ pageSwitchTrace s ++ e :: es)

/-- 41 R154: the address phase: after the page switch, one write of `ADDR` to `base+2` (35 for A, 40 for B); when it fails, no
further event is performed and the response is `TRANSFER_FAILED` with phase ADDRESS and the cause; when it succeeds, the
next event is the data phase's. -/
def Obligations.WriteTransferAddressPhase : Prop :=
  ∀ (ep : Endpoint) (len : Nat) (dv : Bool) (addr data : Byte) (x : BitVec 2) (s : State),
    s.bsqReady = true → s.live ep = true → Config.hw.lenMin ≤ len → len ≤ Config.hw.lenMax → s.PageSwitchOk →
    ep.addrReg = (if ep = .a then 35 else 40) ∧ ∃ t, exec (.xferWr ep len dv addr data x) s = .next t
      ∧ (∀ c, s.answer (pageSwitchCount s) = .err c →
          t.respBsq = some (0x00000014#32 ||| c.setWidth 32 <<< 8)
            ∧ t.events = s.events ++ pageSwitchTrace s ++ [.wr ep.addrReg addr (some c),
              .resp (0x00000014#32 ||| c.setWidth 32 <<< 8)])
      ∧ (failOf (s.answer (pageSwitchCount s)) = none → ∃ v f es, t.events = s.events ++ pageSwitchTrace s
          ++ .wr ep.addrReg addr none :: .wr ep.dataReg v f :: es)

/-- 41 R155: the data phase: after the address write, one write to `base+0` (33 for A, 38 for B) of `DATA`, or of 0x00 when
`DV` is 0; when it fails, no further event is performed and the response is `TRANSFER_FAILED` with phase DATA and the
cause; the address write already performed stays performed. -/
def Obligations.WriteTransferDataPhase : Prop :=
  ∀ (ep : Endpoint) (len : Nat) (dv : Bool) (addr data : Byte) (x : BitVec 2) (s : State),
    s.bsqReady = true → s.live ep = true → Config.hw.lenMin ≤ len → len ≤ Config.hw.lenMax → s.PageSwitchOk →
    failOf (s.answer (pageSwitchCount s)) = none →
    ep.dataReg = (if ep = .a then 33 else 38) ∧ ∃ t, exec (.xferWr ep len dv addr data x) s = .next t
      ∧ (∀ c, s.answer (pageSwitchCount s + 1) = .err c →
          t.respBsq = some (0x00000024#32 ||| c.setWidth 32 <<< 8)
            ∧ t.events = s.events ++ pageSwitchTrace s ++ [.wr ep.addrReg addr none,
              .wr ep.dataReg (if dv then data else 0x00) (some c),
              .resp (0x00000024#32 ||| c.setWidth 32 <<< 8)])
      ∧ (failOf (s.answer (pageSwitchCount s + 1)) = none → ∃ r es, t.events = s.events ++ pageSwitchTrace s
          ++ .wr ep.addrReg addr none
          :: .wr ep.dataReg (if dv then data else 0x00) none
          :: .rd ep.csReg r :: es)

/-- 10 R32, R35, 20 R58 (92 D30; logs 8 and 9): what else a write transfer that stopped at its address or its data write
leaves: the lock free, BSQ idle, `PAGE_RADIO` tracked, and no record of a register whose write failed. -/
def Obligations.StoppedWriteTransferLeaves : Prop :=
  ∀ (ep : Endpoint) (len : Nat) (dv : Bool) (addr data : Byte) (x : BitVec 2) (c : Cause) (s t : State),
    s.bsqReady = true → s.live ep = true → Config.hw.lenMin ≤ len → len ≤ Config.hw.lenMax → s.PageSwitchOk →
    exec (.xferWr ep len dv addr data x) s = .next t →
    (s.answer (pageSwitchCount s) = .err c →
      t = { s with
        curPage := .page Config.hw.pageRadio
        lock := .free
        reqBsq := some (encodeWord (.xferWr ep len dv addr data x))
        respBsq := t.respBsq
        chip := (pageSwitchChip s).write ep.addrReg addr true
        answers := s.answers.drop (pageSwitchCount s + 1)
        drawn := s.drawn + (pageSwitchCount s + 1)
        busReply := some (.failed c)
        events := t.events })
    ∧ (failOf (s.answer (pageSwitchCount s)) = none → s.answer (pageSwitchCount s + 1) = .err c →
      t = { s with
        curPage := .page Config.hw.pageRadio
        lock := .free
        reqBsq := some (encodeWord (.xferWr ep len dv addr data x))
        respBsq := t.respBsq
        chip := ((pageSwitchChip s).write ep.addrReg addr false).write
          ep.dataReg (if dv then data else 0x00) true
        answers := s.answers.drop (pageSwitchCount s + 2)
        drawn := s.drawn + (pageSwitchCount s + 2)
        busReply := some (.failed c)
        events := t.events })

/-- 41 R150, R156, R157, 60 R229: a write transfer whose page switch, address and data writes succeed: the exchanges in
order, whatever the CS exchanges return, `CSV`, `DEG`, and the response `DEG << 7`. That a failed CS exchange is passed over
is 92 D17. The LOG events in `csTrace` and their places are no rule of the spec (92 D39, non-normative; log 28), and `chip`
is the model's record (logs 7, 8 and 9). -/
def Obligations.WriteTransferPerformed : Prop :=
  ∀ (ep : Endpoint) (len : Nat) (dv : Bool) (addr data : Byte) (x : BitVec 2) (s : State),
    s.bsqReady = true → s.live ep = true → Config.hw.lenMin ≤ len → len ≤ Config.hw.lenMax → s.PageSwitchOk →
    failOf (s.answer (pageSwitchCount s)) = none → failOf (s.answer (pageSwitchCount s + 1)) = none →
    let r := s.answer (pageSwitchCount s + 2)
    let w1 := failOf (s.answer (pageSwitchCount s + 3))
    let w2 := failOf (s.answer (pageSwitchCount s + 4))
    let d := if dv then data else 0x00
    let resp : Word := if csDegraded r w1 w2 then 0x00000080 else 0x00000000
    exec (.xferWr ep len dv addr data x) s = .next { s with
      curPage := .page Config.hw.pageRadio
      lock := .free
      reqBsq := some (encodeWord (.xferWr ep len dv addr data x))
      csv := some (csValue r)
      deg := csDegraded r w1 w2
      respBsq := some resp
      chip := ((((pageSwitchChip s).write ep.addrReg addr false).write ep.dataReg d false).write ep.csReg
        (csAssertValue (csValue r)) w1.isSome).write ep.csReg (csDeassertValue (csValue r)) w2.isSome
      answers := s.answers.drop (pageSwitchCount s + 5)
      drawn := s.drawn + (pageSwitchCount s + 5)
      busReply := some (writeReply w2)
      events := s.events ++ pageSwitchTrace s ++ [.wr ep.addrReg addr none, .wr ep.dataReg d none]
        ++ csTrace ep r w1 w2 ++ [.resp resp] }

/-- 41 R160 to R163: a read transfer: the page switch if needed, one read of `base+1`, and the byte with its index, or
`TRANSFER_FAILED` with phase READBACK (the phase: 92 D18; byte and index: 92 D21); `CSV` and `DEG` are not written. `chip` is
the model's record (log 7). -/
def Obligations.ReadTransferPerformed : Prop :=
  ∀ (ep : Endpoint) (len : Nat) (x : BitVec 19) (s : State),
    s.bsqReady = true → s.live ep = true → Config.hw.lenMin ≤ len → len ≤ Config.hw.lenMax → s.PageSwitchOk →
    let r := s.answer (pageSwitchCount s)
    let resp : Word := match r with
      | .ok v => BitVec.ofNat 32 (len - 1) <<< 24 ||| v.setWidth 32 <<< 16
      | .err c => 0x00000044#32 ||| c.setWidth 32 <<< 8
    exec (.xferRd ep len x) s = .next { s with
      curPage := .page Config.hw.pageRadio
      lock := .free
      reqBsq := some (encodeWord (.xferRd ep len x))
      respBsq := some resp
      chip := pageSwitchChip s
      answers := s.answers.drop (pageSwitchCount s + 1)
      drawn := s.drawn + (pageSwitchCount s + 1)
      busReply := some (readReply r)
      events := s.events ++ pageSwitchTrace s ++ [.rd ep.rbReg r, .resp resp] }

/-- 10 R34, 41 R151 to R153, R161, R162: of the requester's buffer only the byte at index `LEN - 1` changes, and it becomes the
byte read. After a read transfer that failed nothing changes: refused for its endpoint or its length, stopped at its page
switch, or failed at its read-back (the requester's buffer: log 27, 92 D21). -/
def Obligations.OnlyTheLastBufferByteIsPopulated : Prop :=
  ∀ (ep : Endpoint) (len : Nat) (x : BitVec 19) (s t : State) (w : Word) (buf : List (Option Byte)),
    s.bsqReady = true → exec (.xferRd ep len x) s = .next t → t.respBsq = some w →
    (∀ v, s.live ep = true → Config.hw.lenMin ≤ len → len ≤ Config.hw.lenMax → s.PageSwitchOk →
      s.answer (pageSwitchCount s) = .ok v → buf.length = len →
      respCode w = 0 ∧ (storeReply buf w)[len - 1]? = some (some v) ∧ ∀ k, k ≠ len - 1 → (storeReply buf w)[k]? = buf[k]?)
    ∧ (s.live ep = false ∨ len < Config.hw.lenMin ∨ Config.hw.lenMax < len
        ∨ (∃ c, s.curPage ≠ .page Config.hw.pageRadio ∧ s.answer 0 = .err c)
        ∨ (∃ c, s.PageSwitchOk ∧ s.answer (pageSwitchCount s) = .err c) →
      respCode w ≠ 0 ∧ storeReply buf w = buf)

/-- 41 R165, R167, 40 R122: what the four BSQ commands leave unchanged on every path: the lifecycle, the endpoints, LCU's
registers, the reset line; the read transfer and the page commands also `CSV` and `DEG`. A command that finds BSQ ready leaves the
lock free; one that waits, for the lock or for BSQ, leaves it as it was (`bsqWaits`: log 25). -/
def Obligations.BsqCommandsFrame : Prop :=
  ∀ (i : Instr) (s t : State),
    ((∃ p x, i = .ensurePage p x) ∨ (∃ x, i = .softReset x) ∨ (∃ ep len dv addr data x, i = .xferWr ep len dv addr data x)
      ∨ ∃ ep len x, i = .xferRd ep len x) → exec i s = .next t →
    t.inst = s.inst ∧ t.lc = s.lc ∧ t.rstp = s.rstp ∧ t.epLiveA = s.epLiveA ∧ t.epLiveB = s.epLiveB
      ∧ t.pcLcu = s.pcLcu ∧ t.pcBsq = s.pcBsq ∧ t.reqLcu = s.reqLcu ∧ t.tmp = s.tmp ∧ t.respLcu = s.respLcu
      ∧ t.regPhase = s.regPhase ∧ t.resetLine = s.resetLine ∧ t.turns = s.turns ∧ t.busPort = s.busPort
      ∧ (s.bsqReady = true → t.lock = .free ∧ t.bsqWaits = false) ∧ (s.bsqReady = false → t.lock = s.lock)
      ∧ (s.bsqFree = true → t.cmd = s.cmd) ∧ (s.bsqFree = false → t.bsqWaits = s.bsqWaits ∧ t.reqBsq = s.reqBsq)
      ∧ ((∀ ep len dv addr data x, i ≠ .xferWr ep len dv addr data x) → t.csv = s.csv ∧ t.deg = s.deg)

/-- 20 R71, 41 R150, R160: the record of the concentrator's registers after a transfer or a page switch: a write transfer
changes it only at its window's address, data and CS registers; ENSURE_PAGE and XFER_RD change no register's record (the record is the model's: log 8). -/
def Obligations.BsqCommandsMemoryFrame : Prop :=
  (∀ (ep : Endpoint) (len : Nat) (dv : Bool) (addr data : Byte) (x : BitVec 2) (s t : State) (k : Nat),
      exec (.xferWr ep len dv addr data x) s = .next t →
      (∀ p, k ≠ regKey p ep.addrReg) → (∀ p, k ≠ regKey p ep.dataReg) → (∀ p, k ≠ regKey p ep.csReg) →
      t.chip.mem.read k = s.chip.mem.read k)
    ∧ (∀ (ep : Endpoint) (len : Nat) (x : BitVec 19) (s t : State) (k : Nat), exec (.xferRd ep len x) s = .next t →
      t.chip.mem.read k = s.chip.mem.read k)
    ∧ (∀ (p : Page) (x : BitVec 22) (s t : State) (k : Nat), exec (.ensurePage p x) s = .next t →
      t.chip.mem.read k = s.chip.mem.read k)

/-! ### Bring-up and teardown -/

/-- 42 R180 to R190, R197: a full ATTACH with every answer successful: the events in order and the whole state after. What
the record then holds is the model's (logs 7, 8 and 10): `PAGE_RADIO`, and the last value written to `RCTRL_REG`. -/
def Obligations.AttachPerformed : Prop :=
  ∀ (rstp : Bool) (ign : BitVec 23) (g k x y z : Byte) (s : State),
    s.lcuReady = true → s.lc = .detached → s.lock ≠ .bsq → s.BringUpAnswers g k x y z →
    failOf (s.answer 15) = none → failOf (s.answer 16) = none →
    exec (.attach rstp ign) s = .next { s with
      curPage := .page Config.hw.pageRadio
      inst := true
      lock := .free
      lc := .running
      rstp := rstp
      epLiveA := true
      epLiveB := true
      reqLcu := some (encodeWord (.attach rstp ign))
      tmp := some z
      respLcu := some 0x00000000
      regPhase := .start
      chip := { pages := .only Config.hw.pageRadio,
                mem := [(pagedKey Config.hw.pageRadio Config.hw.rctrlReg, z &&& ~~~radioRstMask)] }
      resetLine := if rstp then some .inactive else s.resetLine
      answers := s.answers.drop 17
      drawn := s.drawn + 17
      busReply := some .done
      events := s.events ++ attachTrace rstp g k x y z ++ [.reg .a none, .reg .b none, .resp 0x00000000] }

/-- 42 R193, R191 (92 D2, D28): the unwinding of a failed ATTACH: while BSQ holds the lock, as it can when step 8 fails, LCU
waits with no event; when BSQ does not hold it, LCU's next move unregisters the live endpoints, B before A, destroys the
instance, frees the lock, and sends the response that `RESP` holds. It performs no event on BUS, CFG or GPIO. -/
def Obligations.UnwindingWaitsForTheTransferInFlight : Prop :=
  ∀ s : State, s.Inv → s.pcLcu = .unwind →
    ∃ w, s.respLcu = some w
      ∧ (s.lock = .bsq → lcuMove s = .next s)
      ∧ (s.lock ≠ .bsq → lcuMove s = .next { s with
          curPage := .unknown
          inst := false
          lock := .free
          lc := .detached
          epLiveA := false
          epLiveB := false
          pcLcu := .idle
          events := s.events ++ (if s.epLiveB then [.unreg .b] else []) ++ (if s.epLiveA then [.unreg .a] else [])
            ++ [.resp w] })

/-- 42 R182, R192: the transport cannot be configured: `BUS_ERROR` with the cause, no exchange on BUS, no instance
(92 D11; `chip` and `resetLine`: logs 7 and 10). -/
def Obligations.AttachStopsAtTheConfiguration : Prop :=
  ∀ (rstp : Bool) (ign : BitVec 23) (c : Cause) (s : State),
    s.lcuReady = true → s.lc = .detached → s.lock ≠ .bsq → s.epLiveA = false → s.epLiveB = false →
    s.answer 0 = .err c →
    exec (.attach rstp ign) s = .next { s with
      curPage := .unknown
      inst := false
      lock := .free
      rstp := rstp
      reqLcu := some (encodeWord (.attach rstp ign))
      respLcu := some (0x00000001#32 ||| c.setWidth 32 <<< 8)
      regPhase := .start
      chip := if rstp then { pages := .all, mem := [] } else s.chip
      resetLine := if rstp then some .inactive else s.resetLine
      answers := s.answers.drop 1
      drawn := s.drawn + 1
      events := s.events ++ resetLineTrace rstp ++ [.cfg (some c), .resp (0x00000001#32 ||| c.setWidth 32 <<< 8)] }

/-- 42 R183, R198: a wrong identity: `UNEXPECTED_IDENTITY` with the value read, no write at all, no instance
(92 D37; `chip` and `resetLine`: logs 7 and 10). -/
def Obligations.AttachStopsOnAWrongIdentity : Prop :=
  ∀ (rstp : Bool) (ign : BitVec 23) (v : Byte) (s : State),
    s.lcuReady = true → s.lc = .detached → s.lock ≠ .bsq → s.epLiveA = false → s.epLiveB = false →
    failOf (s.answer 0) = none → s.answer 1 = .ok v → v ≠ Config.hw.idExpected →
    exec (.attach rstp ign) s = .next { s with
      curPage := .unknown
      inst := false
      lock := .free
      rstp := rstp
      reqLcu := some (encodeWord (.attach rstp ign))
      tmp := some v
      respLcu := some (0x00000003#32 ||| v.setWidth 32 <<< 16)
      regPhase := .start
      chip := if rstp then { pages := .all, mem := [] } else s.chip
      resetLine := if rstp then some .inactive else s.resetLine
      answers := s.answers.drop 2
      drawn := s.drawn + 2
      busReply := some (.byte v)
      events := s.events ++ resetLineTrace rstp
        ++ [.cfg none, .rd Config.hw.idReg (.ok v), .resp (0x00000003#32 ||| v.setWidth 32 <<< 16)] }

/-- 42 R190, R191, R193, R199: the registration of B fails: A is unregistered before the error is returned, nothing of the
instance is left, and no bus event follows (92 D28; `chip`: logs 7 and 8). -/
def Obligations.FailedSecondRegistrationUnregistersTheFirst : Prop :=
  ∀ (rstp : Bool) (ign : BitVec 23) (g k x y z : Byte) (c : Cause) (s : State),
    s.lcuReady = true → s.lc = .detached → s.lock ≠ .bsq → s.BringUpAnswers g k x y z →
    failOf (s.answer 15) = none → s.answer 16 = .err c →
    exec (.attach rstp ign) s = .next { s with
      curPage := .unknown
      inst := false
      lock := .free
      rstp := rstp
      epLiveA := false
      epLiveB := false
      reqLcu := some (encodeWord (.attach rstp ign))
      tmp := some z
      respLcu := some (0x00000005#32 ||| c.setWidth 32 <<< 8)
      regPhase := .start
      chip := { pages := .only Config.hw.pageRadio,
                mem := [(pagedKey Config.hw.pageRadio Config.hw.rctrlReg, z &&& ~~~radioRstMask)] }
      resetLine := if rstp then some .inactive else s.resetLine
      answers := s.answers.drop 17
      drawn := s.drawn + 17
      busReply := some .done
      events := s.events ++ attachTrace rstp g k x y z
        ++ [.reg .a none, .reg .b (some c), .unreg .a, .resp (0x00000005#32 ||| c.setWidth 32 <<< 8)] }

/-- 42 R180, R192, R193, 70 R265: an ATTACH that starts ends in one of two ways, whatever the environment answers: attached
with the answer OK, or with nothing left of the instance and an error of one of ATTACH's four kinds but
`ALREADY_ATTACHED`; the lock is free and LCU idle. -/
def Obligations.AttachLeavesAllOrNothing : Prop :=
  ∀ (rstp : Bool) (ign : BitVec 23) (s : State), s.Inv → s.lcuReady = true → s.lc = .detached → s.lock ≠ .bsq →
    ∃ t w, exec (.attach rstp ign) s = .next t ∧ t.lock = .free ∧ t.pcLcu = .idle ∧ t.respLcu = some w
      ∧ ((t.Run ∧ w = 0x00000000)
        ∨ (t.lc = .detached ∧ t.inst = false ∧ t.curPage = .unknown ∧ t.epLiveA = false ∧ t.epLiveB = false
          ∧ (respCode w = 1 ∨ respCode w = 3 ∨ respCode w = 5)))

/-- 42 R182 to R193, R199, 60 R221, R235 (92 D24, D37): how an ATTACH that fails ends. `BUS_ERROR`: with the exchange that
failed, and its cause unchanged. `UNEXPECTED_IDENTITY`: with the identity read, and the value read.
`REGISTRATION_FAILED`: with the failed registration of A, and no endpoint is unregistered; or with the one of B after
that of A succeeded, and A is unregistered; the framework's cause unchanged. Nothing else is on the channels between the
failing event and the response, and no other registration is made. -/
def Obligations.FailedBringUpReportsItsCause : Prop :=
  ∀ (rstp : Bool) (ign : BitVec 23) (s t : State) (w : Word), s.Inv → s.lcuReady = true → s.lc = .detached →
    s.lock ≠ .bsq → exec (.attach rstp ign) s = .next t → t.respLcu = some w → respCode w ≠ 0 →
    ∃ es, (∀ ep r, .reg ep r ∉ es) ∧ (∀ ep, .unreg ep ∉ es) ∧
      ((w = (0x00000001#32 ||| (respCause w).setWidth 32 <<< 8)
          ∧ ∃ e, t.events = s.events ++ es ++ [e, .resp w]
            ∧ (e = .cfg (some (respCause w)) ∨ (∃ a v, e = .wr a v (some (respCause w)))
              ∨ ∃ a, e = .rd a (.err (respCause w))))
        ∨ (w = (0x00000003#32 ||| (respRdata w).setWidth 32 <<< 16) ∧ respRdata w ≠ Config.hw.idExpected
          ∧ t.events = s.events ++ es ++ [.rd Config.hw.idReg (.ok (respRdata w)), .resp w])
        ∨ (w = (0x00000005#32 ||| (respCause w).setWidth 32 <<< 8)
          ∧ (t.events = s.events ++ es ++ [.reg .a (some (respCause w)), .resp w]
            ∨ t.events = s.events ++ es ++ [.reg .a none, .reg .b (some (respCause w)), .unreg .a, .resp w])))

/-- 70 R269: no write to the concentrator before the identity read has returned `ID_EXPECTED`. -/
def Obligations.IdentityBeforeAnyWrite : Prop :=
  ∀ (rstp : Bool) (ign : BitVec 23) (s t : State), exec (.attach rstp ign) s = .next t →
    ∃ es, t.events = s.events ++ es ∧
      ((∀ e ∈ es, e.isWrite = false)
        ∨ ∃ pre post, es = pre ++ .rd Config.hw.idReg (.ok Config.hw.idExpected) :: post ∧ ∀ e ∈ pre, e.isWrite = false)

/-- 42 R194 (92 D26): a second ATTACH is refused, with no other effect. -/
def Obligations.SecondAttachIsRefused : Prop :=
  ∀ (rstp : Bool) (ign : BitVec 23) (s : State), s.lcuReady = true → s.lc = .running →
    exec (.attach rstp ign) s = .next { s with
      reqLcu := some (encodeWord (.attach rstp ign))
      respLcu := some 0x00000007
      events := s.events ++ [.resp 0x00000007] }

/-- 42 R195, R196 (92 D40): DETACH of an attached block whose lock is not held by BSQ: B, then A, then the instance, with
no bus event; of a detached block: OK with no event. -/
def Obligations.DetachPerformed : Prop :=
  ∀ (ign : BitVec 24) (s : State), s.lcuReady = true →
    (s.lc = .detached →
      exec (.detach ign) s = .next { s with
        reqLcu := some (encodeWord (.detach ign))
        respLcu := some 0x00000000
        events := s.events ++ [.resp 0x00000000] })
    ∧ (s.lc ≠ .detached → s.lock ≠ .bsq →
      exec (.detach ign) s = .next { s with
        curPage := .unknown
        inst := false
        lock := .free
        lc := .detached
        epLiveA := false
        epLiveB := false
        reqLcu := some (encodeWord (.detach ign))
        respLcu := some 0x00000000
        events := s.events ++ (if s.epLiveB then [.unreg .b] else []) ++ (if s.epLiveA then [.unreg .a] else [])
          ++ [.resp 0x00000000] })

/-- 70 R280: DETACH while BSQ is in a critical section: every live endpoint is unregistered and stops accepting transfers at
once, and the instance stays until the transfer in flight has ended: LCU waits for the lock, and when it is free LCU's
next move destroys the instance. -/
def Obligations.DetachWaitsForTheTransferInFlight : Prop :=
  ∀ (ign : BitVec 24) (s : State), s.lcuReady = true → s.lc ≠ .detached → s.lock = .bsq →
    ∃ t es, exec (.detach ign) s = .next t ∧ t.events = s.events ++ es
      ∧ (∀ ep, s.live ep = true → .unreg ep ∈ es) ∧ t.live .a = false ∧ t.live .b = false
      ∧ t.inst = s.inst ∧ t.curPage = s.curPage ∧ t.lock = .bsq ∧ t.pcBsq = s.pcBsq ∧ t.reqBsq = s.reqBsq
      ∧ lcuMove t = .next t
      ∧ ∃ u, lcuMove { t with lock := .free } = .next u ∧ u.inst = false ∧ u.curPage = .unknown ∧ u.lc = .detached
        ∧ u.lock = .free ∧ u.pcLcu = .idle

/-- 42 R180, R195: what ATTACH and DETACH leave unchanged on every path: BSQ's registers; DETACH also `TMP`, `RSTP`, the
reset line, every answer and everything known of the concentrator. Of the record of the concentrator's registers (the
model's: log 8) ATTACH changes only what is recorded of `GEN_REG`, `CLK_REG` and `RCTRL_REG`; every other register keeps its
record or, by a reset (70 R261), has none. -/
def Obligations.LifecycleCommandsFrame : Prop :=
  (∀ (rstp : Bool) (ign : BitVec 23) (s t : State), exec (.attach rstp ign) s = .next t →
      t.pcBsq = s.pcBsq ∧ t.reqBsq = s.reqBsq ∧ t.bsqWaits = s.bsqWaits ∧ t.respBsq = s.respBsq ∧ t.csv = s.csv ∧ t.deg = s.deg
        ∧ t.turns = s.turns ∧ t.busPort = s.busPort ∧ (s.lcuReady = true → t.cmd = s.cmd)
        ∧ ∀ k, (∀ p, k ≠ regKey p Config.hw.genReg) → (∀ p, k ≠ regKey p Config.hw.clkReg) →
          (∀ p, k ≠ regKey p Config.hw.rctrlReg) → t.chip.mem.read k = s.chip.mem.read k ∨ t.chip.mem.read k = none)
    ∧ (∀ (ign : BitVec 24) (s t : State), exec (.detach ign) s = .next t →
      t.pcBsq = s.pcBsq ∧ t.reqBsq = s.reqBsq ∧ t.bsqWaits = s.bsqWaits ∧ t.respBsq = s.respBsq ∧ t.csv = s.csv ∧ t.deg = s.deg
        ∧ t.turns = s.turns ∧ t.busPort = s.busPort ∧ (s.lcuReady = true → t.cmd = s.cmd)
        ∧ t.tmp = s.tmp ∧ t.rstp = s.rstp ∧ t.resetLine = s.resetLine ∧ t.answers = s.answers ∧ t.drawn = s.drawn
        ∧ t.busReply = s.busReply ∧ t.chip = s.chip)

/-! ### Bus frames -/

/-- 20 R55 to R59, 30 R101, R102: each frame is one exchange: one answer is drawn, one event is added, the result is what
the transport gave; no register of the block changes (frames sent outside a command: log 11; `chip`: logs 7 to 9). -/
def Obligations.FramesAreOneExchange : Prop :=
  ∀ (a : RegAddr) (v : Byte) (s : State),
    exec (.busWr a v) s = .next { s with
        chip := s.chip.write a v (failOf (s.answer 0)).isSome
        answers := s.answers.tail
        drawn := s.drawn + 1
        busReply := some (match s.answer 0 with | .ok _ => .done | .err c => .failed c)
        events := s.events ++ [.wr a v (failOf (s.answer 0))] }
    ∧ exec (.busRd a) s = .next { s with
        answers := s.answers.tail
        drawn := s.drawn + 1
        busReply := some (match s.answer 0 with | .ok b => .byte b | .err c => .failed c)
        events := s.events ++ [.rd a (s.answer 0)] }

/-- 20 R51, R54, R58, 10 R35: the record after a write frame to a register of a page (the record is the model's: logs 7 to
9). A register is a pair of a page and an address. Answered Ok in a known page, the value is recorded there; answered Err, or
in an unknown page, no page that may have been reached keeps a record it had at that address; that address in a page that
could not be selected, and every other address in every page, keep theirs. -/
def Obligations.WriteFrameRecord : Prop :=
  ∀ (a : RegAddr) (v : Byte) (p : Page) (s t : State), a ≠ Config.hw.pageReg → a ≠ Config.hw.idReg →
    exec (.busWr a v) s = .next t →
    (failOf (s.answer 0) = none → s.chip.pages = .only p → t.chip.mem.read (pagedKey p a) = some v)
    ∧ ((∃ c, s.answer 0 = .err c) ∨ s.chip.pages.single = none → s.chip.pages.mem p = true →
      t.chip.mem.read (pagedKey p a) = none)
    ∧ (s.chip.pages.mem p = false → t.chip.mem.read (pagedKey p a) = s.chip.mem.read (pagedKey p a))
    ∧ (∀ (q : Page) (b : RegAddr), b ≠ a → t.chip.mem.read (regKey q b) = s.chip.mem.read (regKey q b))
    ∧ t.chip.pages = s.chip.pages

/-- 20 R54, R68, 70 R261, R271, 93 U1, U2: what is known of the selected page after a write frame to the page
register (the model's record: logs 7 and 12). -/
def Obligations.PageRegisterFrame : Prop :=
  ∀ (v : Byte) (s t : State), exec (.busWr Config.hw.pageReg v) s = .next t →
    (v.toNat < Config.hw.nPages → failOf (s.answer 0) = none →
      t.chip.pages = .only (v.setWidth 2) ∧ t.chip.mem = s.chip.mem)
    ∧ (∀ c, v.toNat < Config.hw.nPages → s.answer 0 = .err c →
      (∀ q, t.chip.pages.mem q = (s.chip.pages.mem q || q == v.setWidth 2)) ∧ t.chip.mem = s.chip.mem)
    ∧ (Config.hw.nPages ≤ v.toNat → (∀ q, t.chip.pages.mem q = true) ∧ ∀ k, t.chip.mem.read k = none)
end

