-- ==== Sys2Proof/Laws/Fields.lean ====
section
/-! SUPPORT. A field put into a word and taken out of it again: what the round trips of the decoder rest on. -/

namespace Sys2Proof

/-- A field is read back from where it was put. -/
theorem extract_place_same {m n lo : Nat} (v : BitVec m) (h : lo + m ≤ n) :
    (place n lo v).extractLsb' lo m = v := by
  ext i hi
  have h1 : lo + i < n := by omega
  have h2 : i < n := by omega
  simp [place, h1, BitVec.getLsbD_eq_getElem hi]

/-- A field put elsewhere does not show. -/
theorem extract_place_disjoint {m n lo a k : Nat} (v : BitVec m) (h : lo + m ≤ a ∨ a + k ≤ lo) :
    (place n lo v).extractLsb' a k = 0 := by
  ext i hi
  simp only [place, BitVec.getElem_extractLsb', BitVec.getLsbD_shiftLeft, BitVec.getLsbD_setWidth]
  have h0 : (0 : BitVec k)[i] = false := by simp
  rw [h0]
  rcases h with h | h
  · rw [BitVec.getLsbD_of_ge v (a + i - lo) (by omega)]; simp
  · simp; omega

/-- Taking a field is bitwise. -/
theorem extract_or {n a k : Nat} (x y : BitVec n) :
    (x ||| y).extractLsb' a k = x.extractLsb' a k ||| y.extractLsb' a k := by
  ext i hi
  simp [BitVec.getElem_extractLsb', BitVec.getLsbD_or]

/-! ### One-bit fields, and the first byte of a frame -/

theorem endpointOfBit_bit (ep : Endpoint) : endpointOfBit ep.bit = ep := by cases ep <;> rfl

theorem bit_endpointOfBit (b : BitVec 1) : (endpointOfBit b).bit = b := by revert b; decide

theorem boolOfBit_bitOfBool (b : Bool) : boolOfBit (bitOfBool b) = b := by cases b <;> rfl

theorem bitOfBool_boolOfBit (b : BitVec 1) : bitOfBool (boolOfBit b) = b := by revert b; decide

/-- Bit 7 of a frame's first byte tells a write from a read (30 R99). -/
theorem frameByte_msb (d : Bool) (a : RegAddr) : (frameByte d a).msb = d := by
  cases d <;> simp [frameByte, place, bitOfBool, BitVec.msb_eq_getLsbD_last]

/-- Bits 6:0 of a frame's first byte are the register's address (30 R99). -/
theorem frameByte_low (d : Bool) (a : RegAddr) : (frameByte d a).extractLsb' 0 7 = a := by
  simp (disch := omega) only [frameByte, extract_or, extract_place_same, extract_place_disjoint]
  simp

end Sys2Proof
end

