-- ==== Sys2Proof/Laws/State.lean ====
section
/-! SUPPORT. The fields of State after each named update: one lemma per field, so that no proof unfolds an update. -/

namespace Sys2Proof.Machine

variable (s : State)

/-! ### emit -/

@[simp] theorem emit_curPage (e : Event) : (s.emit e).curPage = s.curPage := rfl
@[simp] theorem emit_inst (e : Event) : (s.emit e).inst = s.inst := rfl
@[simp] theorem emit_lock (e : Event) : (s.emit e).lock = s.lock := rfl
@[simp] theorem emit_lc (e : Event) : (s.emit e).lc = s.lc := rfl
@[simp] theorem emit_rstp (e : Event) : (s.emit e).rstp = s.rstp := rfl
@[simp] theorem emit_epLiveA (e : Event) : (s.emit e).epLiveA = s.epLiveA := rfl
@[simp] theorem emit_epLiveB (e : Event) : (s.emit e).epLiveB = s.epLiveB := rfl
@[simp] theorem emit_pcLcu (e : Event) : (s.emit e).pcLcu = s.pcLcu := rfl
@[simp] theorem emit_pcBsq (e : Event) : (s.emit e).pcBsq = s.pcBsq := rfl
@[simp] theorem emit_reqLcu (e : Event) : (s.emit e).reqLcu = s.reqLcu := rfl
@[simp] theorem emit_reqBsq (e : Event) : (s.emit e).reqBsq = s.reqBsq := rfl
@[simp] theorem emit_bsqWaits (e : Event) : (s.emit e).bsqWaits = s.bsqWaits := rfl
@[simp] theorem emit_tmp (e : Event) : (s.emit e).tmp = s.tmp := rfl
@[simp] theorem emit_csv (e : Event) : (s.emit e).csv = s.csv := rfl
@[simp] theorem emit_deg (e : Event) : (s.emit e).deg = s.deg := rfl
@[simp] theorem emit_respLcu (e : Event) : (s.emit e).respLcu = s.respLcu := rfl
@[simp] theorem emit_respBsq (e : Event) : (s.emit e).respBsq = s.respBsq := rfl
@[simp] theorem emit_regPhase (e : Event) : (s.emit e).regPhase = s.regPhase := rfl
@[simp] theorem emit_chip (e : Event) : (s.emit e).chip = s.chip := rfl
@[simp] theorem emit_resetLine (e : Event) : (s.emit e).resetLine = s.resetLine := rfl
@[simp] theorem emit_answers (e : Event) : (s.emit e).answers = s.answers := rfl
@[simp] theorem emit_drawn (e : Event) : (s.emit e).drawn = s.drawn := rfl
@[simp] theorem emit_turns (e : Event) : (s.emit e).turns = s.turns := rfl
@[simp] theorem emit_cmd (e : Event) : (s.emit e).cmd = s.cmd := rfl
@[simp] theorem emit_busPort (e : Event) : (s.emit e).busPort = s.busPort := rfl
@[simp] theorem emit_busReply (e : Event) : (s.emit e).busReply = s.busReply := rfl
@[simp] theorem emit_events (e : Event) : (s.emit e).events = s.events ++ [e] := rfl

/-! ### draw -/

@[simp] theorem draw_curPage : (s.draw).curPage = s.curPage := rfl
@[simp] theorem draw_inst : (s.draw).inst = s.inst := rfl
@[simp] theorem draw_lock : (s.draw).lock = s.lock := rfl
@[simp] theorem draw_lc : (s.draw).lc = s.lc := rfl
@[simp] theorem draw_rstp : (s.draw).rstp = s.rstp := rfl
@[simp] theorem draw_epLiveA : (s.draw).epLiveA = s.epLiveA := rfl
@[simp] theorem draw_epLiveB : (s.draw).epLiveB = s.epLiveB := rfl
@[simp] theorem draw_pcLcu : (s.draw).pcLcu = s.pcLcu := rfl
@[simp] theorem draw_pcBsq : (s.draw).pcBsq = s.pcBsq := rfl
@[simp] theorem draw_reqLcu : (s.draw).reqLcu = s.reqLcu := rfl
@[simp] theorem draw_reqBsq : (s.draw).reqBsq = s.reqBsq := rfl
@[simp] theorem draw_bsqWaits : (s.draw).bsqWaits = s.bsqWaits := rfl
@[simp] theorem draw_tmp : (s.draw).tmp = s.tmp := rfl
@[simp] theorem draw_csv : (s.draw).csv = s.csv := rfl
@[simp] theorem draw_deg : (s.draw).deg = s.deg := rfl
@[simp] theorem draw_respLcu : (s.draw).respLcu = s.respLcu := rfl
@[simp] theorem draw_respBsq : (s.draw).respBsq = s.respBsq := rfl
@[simp] theorem draw_regPhase : (s.draw).regPhase = s.regPhase := rfl
@[simp] theorem draw_chip : (s.draw).chip = s.chip := rfl
@[simp] theorem draw_resetLine : (s.draw).resetLine = s.resetLine := rfl
@[simp] theorem draw_answers : (s.draw).answers = s.answers.tail := rfl
@[simp] theorem draw_drawn : (s.draw).drawn = s.drawn + 1 := rfl
@[simp] theorem draw_turns : (s.draw).turns = s.turns := rfl
@[simp] theorem draw_cmd : (s.draw).cmd = s.cmd := rfl
@[simp] theorem draw_busPort : (s.draw).busPort = s.busPort := rfl
@[simp] theorem draw_busReply : (s.draw).busReply = s.busReply := rfl
@[simp] theorem draw_events : (s.draw).events = s.events := rfl

/-! ### enqueue -/

@[simp] theorem enqueue_curPage (w : Word) : (s.enqueue w).curPage = s.curPage := rfl
@[simp] theorem enqueue_inst (w : Word) : (s.enqueue w).inst = s.inst := rfl
@[simp] theorem enqueue_lock (w : Word) : (s.enqueue w).lock = s.lock := rfl
@[simp] theorem enqueue_lc (w : Word) : (s.enqueue w).lc = s.lc := rfl
@[simp] theorem enqueue_rstp (w : Word) : (s.enqueue w).rstp = s.rstp := rfl
@[simp] theorem enqueue_epLiveA (w : Word) : (s.enqueue w).epLiveA = s.epLiveA := rfl
@[simp] theorem enqueue_epLiveB (w : Word) : (s.enqueue w).epLiveB = s.epLiveB := rfl
@[simp] theorem enqueue_pcLcu (w : Word) : (s.enqueue w).pcLcu = s.pcLcu := rfl
@[simp] theorem enqueue_pcBsq (w : Word) : (s.enqueue w).pcBsq = s.pcBsq := rfl
@[simp] theorem enqueue_reqLcu (w : Word) : (s.enqueue w).reqLcu = s.reqLcu := rfl
@[simp] theorem enqueue_reqBsq (w : Word) : (s.enqueue w).reqBsq = s.reqBsq := rfl
@[simp] theorem enqueue_bsqWaits (w : Word) : (s.enqueue w).bsqWaits = s.bsqWaits := rfl
@[simp] theorem enqueue_tmp (w : Word) : (s.enqueue w).tmp = s.tmp := rfl
@[simp] theorem enqueue_csv (w : Word) : (s.enqueue w).csv = s.csv := rfl
@[simp] theorem enqueue_deg (w : Word) : (s.enqueue w).deg = s.deg := rfl
@[simp] theorem enqueue_respLcu (w : Word) : (s.enqueue w).respLcu = s.respLcu := rfl
@[simp] theorem enqueue_respBsq (w : Word) : (s.enqueue w).respBsq = s.respBsq := rfl
@[simp] theorem enqueue_regPhase (w : Word) : (s.enqueue w).regPhase = s.regPhase := rfl
@[simp] theorem enqueue_chip (w : Word) : (s.enqueue w).chip = s.chip := rfl
@[simp] theorem enqueue_resetLine (w : Word) : (s.enqueue w).resetLine = s.resetLine := rfl
@[simp] theorem enqueue_answers (w : Word) : (s.enqueue w).answers = s.answers := rfl
@[simp] theorem enqueue_drawn (w : Word) : (s.enqueue w).drawn = s.drawn := rfl
@[simp] theorem enqueue_turns (w : Word) : (s.enqueue w).turns = s.turns := rfl
@[simp] theorem enqueue_cmd (w : Word) : (s.enqueue w).cmd = s.cmd ++ [w] := rfl
@[simp] theorem enqueue_busPort (w : Word) : (s.enqueue w).busPort = s.busPort := rfl
@[simp] theorem enqueue_busReply (w : Word) : (s.enqueue w).busReply = s.busReply := rfl
@[simp] theorem enqueue_events (w : Word) : (s.enqueue w).events = s.events := rfl

/-! ### bsqTake -/

@[simp] theorem bsqTake_curPage (w : Word) : (bsqTake w s).curPage = s.curPage := rfl
@[simp] theorem bsqTake_inst (w : Word) : (bsqTake w s).inst = s.inst := rfl
@[simp] theorem bsqTake_lock (w : Word) : (bsqTake w s).lock = s.lock := rfl
@[simp] theorem bsqTake_lc (w : Word) : (bsqTake w s).lc = s.lc := rfl
@[simp] theorem bsqTake_rstp (w : Word) : (bsqTake w s).rstp = s.rstp := rfl
@[simp] theorem bsqTake_epLiveA (w : Word) : (bsqTake w s).epLiveA = s.epLiveA := rfl
@[simp] theorem bsqTake_epLiveB (w : Word) : (bsqTake w s).epLiveB = s.epLiveB := rfl
@[simp] theorem bsqTake_pcLcu (w : Word) : (bsqTake w s).pcLcu = s.pcLcu := rfl
@[simp] theorem bsqTake_pcBsq (w : Word) : (bsqTake w s).pcBsq = s.pcBsq := rfl
@[simp] theorem bsqTake_reqLcu (w : Word) : (bsqTake w s).reqLcu = s.reqLcu := rfl
@[simp] theorem bsqTake_reqBsq (w : Word) : (bsqTake w s).reqBsq = some w := rfl
@[simp] theorem bsqTake_bsqWaits (w : Word) : (bsqTake w s).bsqWaits = true := rfl
@[simp] theorem bsqTake_tmp (w : Word) : (bsqTake w s).tmp = s.tmp := rfl
@[simp] theorem bsqTake_csv (w : Word) : (bsqTake w s).csv = s.csv := rfl
@[simp] theorem bsqTake_deg (w : Word) : (bsqTake w s).deg = s.deg := rfl
@[simp] theorem bsqTake_respLcu (w : Word) : (bsqTake w s).respLcu = s.respLcu := rfl
@[simp] theorem bsqTake_respBsq (w : Word) : (bsqTake w s).respBsq = s.respBsq := rfl
@[simp] theorem bsqTake_regPhase (w : Word) : (bsqTake w s).regPhase = s.regPhase := rfl
@[simp] theorem bsqTake_chip (w : Word) : (bsqTake w s).chip = s.chip := rfl
@[simp] theorem bsqTake_resetLine (w : Word) : (bsqTake w s).resetLine = s.resetLine := rfl
@[simp] theorem bsqTake_answers (w : Word) : (bsqTake w s).answers = s.answers := rfl
@[simp] theorem bsqTake_drawn (w : Word) : (bsqTake w s).drawn = s.drawn := rfl
@[simp] theorem bsqTake_turns (w : Word) : (bsqTake w s).turns = s.turns := rfl
@[simp] theorem bsqTake_cmd (w : Word) : (bsqTake w s).cmd = s.cmd := rfl
@[simp] theorem bsqTake_busPort (w : Word) : (bsqTake w s).busPort = s.busPort := rfl
@[simp] theorem bsqTake_busReply (w : Word) : (bsqTake w s).busReply = s.busReply := rfl
@[simp] theorem bsqTake_events (w : Word) : (bsqTake w s).events = s.events := rfl

/-! ### bsqAcquire -/

@[simp] theorem bsqAcquire_curPage : (bsqAcquire s).curPage = s.curPage := rfl
@[simp] theorem bsqAcquire_inst : (bsqAcquire s).inst = s.inst := rfl
@[simp] theorem bsqAcquire_lock : (bsqAcquire s).lock = .bsq := rfl
@[simp] theorem bsqAcquire_lc : (bsqAcquire s).lc = s.lc := rfl
@[simp] theorem bsqAcquire_rstp : (bsqAcquire s).rstp = s.rstp := rfl
@[simp] theorem bsqAcquire_epLiveA : (bsqAcquire s).epLiveA = s.epLiveA := rfl
@[simp] theorem bsqAcquire_epLiveB : (bsqAcquire s).epLiveB = s.epLiveB := rfl
@[simp] theorem bsqAcquire_pcLcu : (bsqAcquire s).pcLcu = s.pcLcu := rfl
@[simp] theorem bsqAcquire_pcBsq : (bsqAcquire s).pcBsq = s.pcBsq := rfl
@[simp] theorem bsqAcquire_reqLcu : (bsqAcquire s).reqLcu = s.reqLcu := rfl
@[simp] theorem bsqAcquire_reqBsq : (bsqAcquire s).reqBsq = s.reqBsq := rfl
@[simp] theorem bsqAcquire_bsqWaits : (bsqAcquire s).bsqWaits = false := rfl
@[simp] theorem bsqAcquire_tmp : (bsqAcquire s).tmp = s.tmp := rfl
@[simp] theorem bsqAcquire_csv : (bsqAcquire s).csv = s.csv := rfl
@[simp] theorem bsqAcquire_deg : (bsqAcquire s).deg = s.deg := rfl
@[simp] theorem bsqAcquire_respLcu : (bsqAcquire s).respLcu = s.respLcu := rfl
@[simp] theorem bsqAcquire_respBsq : (bsqAcquire s).respBsq = s.respBsq := rfl
@[simp] theorem bsqAcquire_regPhase : (bsqAcquire s).regPhase = s.regPhase := rfl
@[simp] theorem bsqAcquire_chip : (bsqAcquire s).chip = s.chip := rfl
@[simp] theorem bsqAcquire_resetLine : (bsqAcquire s).resetLine = s.resetLine := rfl
@[simp] theorem bsqAcquire_answers : (bsqAcquire s).answers = s.answers := rfl
@[simp] theorem bsqAcquire_drawn : (bsqAcquire s).drawn = s.drawn := rfl
@[simp] theorem bsqAcquire_turns : (bsqAcquire s).turns = s.turns := rfl
@[simp] theorem bsqAcquire_cmd : (bsqAcquire s).cmd = s.cmd := rfl
@[simp] theorem bsqAcquire_busPort : (bsqAcquire s).busPort = s.busPort := rfl
@[simp] theorem bsqAcquire_busReply : (bsqAcquire s).busReply = s.busReply := rfl
@[simp] theorem bsqAcquire_events : (bsqAcquire s).events = s.events := rfl

/-! ### release -/

@[simp] theorem release_curPage : (release s).curPage = s.curPage := rfl
@[simp] theorem release_inst : (release s).inst = s.inst := rfl
@[simp] theorem release_lock : (release s).lock = .free := rfl
@[simp] theorem release_lc : (release s).lc = s.lc := rfl
@[simp] theorem release_rstp : (release s).rstp = s.rstp := rfl
@[simp] theorem release_epLiveA : (release s).epLiveA = s.epLiveA := rfl
@[simp] theorem release_epLiveB : (release s).epLiveB = s.epLiveB := rfl
@[simp] theorem release_pcLcu : (release s).pcLcu = s.pcLcu := rfl
@[simp] theorem release_pcBsq : (release s).pcBsq = s.pcBsq := rfl
@[simp] theorem release_reqLcu : (release s).reqLcu = s.reqLcu := rfl
@[simp] theorem release_reqBsq : (release s).reqBsq = s.reqBsq := rfl
@[simp] theorem release_bsqWaits : (release s).bsqWaits = s.bsqWaits := rfl
@[simp] theorem release_tmp : (release s).tmp = s.tmp := rfl
@[simp] theorem release_csv : (release s).csv = s.csv := rfl
@[simp] theorem release_deg : (release s).deg = s.deg := rfl
@[simp] theorem release_respLcu : (release s).respLcu = s.respLcu := rfl
@[simp] theorem release_respBsq : (release s).respBsq = s.respBsq := rfl
@[simp] theorem release_regPhase : (release s).regPhase = s.regPhase := rfl
@[simp] theorem release_chip : (release s).chip = s.chip := rfl
@[simp] theorem release_resetLine : (release s).resetLine = s.resetLine := rfl
@[simp] theorem release_answers : (release s).answers = s.answers := rfl
@[simp] theorem release_drawn : (release s).drawn = s.drawn := rfl
@[simp] theorem release_turns : (release s).turns = s.turns := rfl
@[simp] theorem release_cmd : (release s).cmd = s.cmd := rfl
@[simp] theorem release_busPort : (release s).busPort = s.busPort := rfl
@[simp] theorem release_busReply : (release s).busReply = s.busReply := rfl
@[simp] theorem release_events : (release s).events = s.events := rfl

/-! ### destroyInstance -/

@[simp] theorem destroyInstance_curPage : (destroyInstance s).curPage = .unknown := rfl
@[simp] theorem destroyInstance_inst : (destroyInstance s).inst = false := rfl
@[simp] theorem destroyInstance_lock : (destroyInstance s).lock = s.lock := rfl
@[simp] theorem destroyInstance_lc : (destroyInstance s).lc = s.lc := rfl
@[simp] theorem destroyInstance_rstp : (destroyInstance s).rstp = s.rstp := rfl
@[simp] theorem destroyInstance_epLiveA : (destroyInstance s).epLiveA = s.epLiveA := rfl
@[simp] theorem destroyInstance_epLiveB : (destroyInstance s).epLiveB = s.epLiveB := rfl
@[simp] theorem destroyInstance_pcLcu : (destroyInstance s).pcLcu = s.pcLcu := rfl
@[simp] theorem destroyInstance_pcBsq : (destroyInstance s).pcBsq = s.pcBsq := rfl
@[simp] theorem destroyInstance_reqLcu : (destroyInstance s).reqLcu = s.reqLcu := rfl
@[simp] theorem destroyInstance_reqBsq : (destroyInstance s).reqBsq = s.reqBsq := rfl
@[simp] theorem destroyInstance_bsqWaits : (destroyInstance s).bsqWaits = s.bsqWaits := rfl
@[simp] theorem destroyInstance_tmp : (destroyInstance s).tmp = s.tmp := rfl
@[simp] theorem destroyInstance_csv : (destroyInstance s).csv = s.csv := rfl
@[simp] theorem destroyInstance_deg : (destroyInstance s).deg = s.deg := rfl
@[simp] theorem destroyInstance_respLcu : (destroyInstance s).respLcu = s.respLcu := rfl
@[simp] theorem destroyInstance_respBsq : (destroyInstance s).respBsq = s.respBsq := rfl
@[simp] theorem destroyInstance_regPhase : (destroyInstance s).regPhase = s.regPhase := rfl
@[simp] theorem destroyInstance_chip : (destroyInstance s).chip = s.chip := rfl
@[simp] theorem destroyInstance_resetLine : (destroyInstance s).resetLine = s.resetLine := rfl
@[simp] theorem destroyInstance_answers : (destroyInstance s).answers = s.answers := rfl
@[simp] theorem destroyInstance_drawn : (destroyInstance s).drawn = s.drawn := rfl
@[simp] theorem destroyInstance_turns : (destroyInstance s).turns = s.turns := rfl
@[simp] theorem destroyInstance_cmd : (destroyInstance s).cmd = s.cmd := rfl
@[simp] theorem destroyInstance_busPort : (destroyInstance s).busPort = s.busPort := rfl
@[simp] theorem destroyInstance_busReply : (destroyInstance s).busReply = s.busReply := rfl
@[simp] theorem destroyInstance_events : (destroyInstance s).events = s.events := rfl

/-! ### setLive -/

@[simp] theorem setLive_curPage (ep : Endpoint) (v : Bool) : (s.setLive ep v).curPage = s.curPage := by cases ep <;> rfl
@[simp] theorem setLive_inst (ep : Endpoint) (v : Bool) : (s.setLive ep v).inst = s.inst := by cases ep <;> rfl
@[simp] theorem setLive_lock (ep : Endpoint) (v : Bool) : (s.setLive ep v).lock = s.lock := by cases ep <;> rfl
@[simp] theorem setLive_lc (ep : Endpoint) (v : Bool) : (s.setLive ep v).lc = s.lc := by cases ep <;> rfl
@[simp] theorem setLive_rstp (ep : Endpoint) (v : Bool) : (s.setLive ep v).rstp = s.rstp := by cases ep <;> rfl
@[simp] theorem setLive_epLiveA (ep : Endpoint) (v : Bool) : (s.setLive ep v).epLiveA = (if ep = .a then v else s.epLiveA) := by cases ep <;> rfl
@[simp] theorem setLive_epLiveB (ep : Endpoint) (v : Bool) : (s.setLive ep v).epLiveB = (if ep = .b then v else s.epLiveB) := by cases ep <;> rfl
@[simp] theorem setLive_pcLcu (ep : Endpoint) (v : Bool) : (s.setLive ep v).pcLcu = s.pcLcu := by cases ep <;> rfl
@[simp] theorem setLive_pcBsq (ep : Endpoint) (v : Bool) : (s.setLive ep v).pcBsq = s.pcBsq := by cases ep <;> rfl
@[simp] theorem setLive_reqLcu (ep : Endpoint) (v : Bool) : (s.setLive ep v).reqLcu = s.reqLcu := by cases ep <;> rfl
@[simp] theorem setLive_reqBsq (ep : Endpoint) (v : Bool) : (s.setLive ep v).reqBsq = s.reqBsq := by cases ep <;> rfl
@[simp] theorem setLive_bsqWaits (ep : Endpoint) (v : Bool) : (s.setLive ep v).bsqWaits = s.bsqWaits := by cases ep <;> rfl
@[simp] theorem setLive_tmp (ep : Endpoint) (v : Bool) : (s.setLive ep v).tmp = s.tmp := by cases ep <;> rfl
@[simp] theorem setLive_csv (ep : Endpoint) (v : Bool) : (s.setLive ep v).csv = s.csv := by cases ep <;> rfl
@[simp] theorem setLive_deg (ep : Endpoint) (v : Bool) : (s.setLive ep v).deg = s.deg := by cases ep <;> rfl
@[simp] theorem setLive_respLcu (ep : Endpoint) (v : Bool) : (s.setLive ep v).respLcu = s.respLcu := by cases ep <;> rfl
@[simp] theorem setLive_respBsq (ep : Endpoint) (v : Bool) : (s.setLive ep v).respBsq = s.respBsq := by cases ep <;> rfl
@[simp] theorem setLive_regPhase (ep : Endpoint) (v : Bool) : (s.setLive ep v).regPhase = s.regPhase := by cases ep <;> rfl
@[simp] theorem setLive_chip (ep : Endpoint) (v : Bool) : (s.setLive ep v).chip = s.chip := by cases ep <;> rfl
@[simp] theorem setLive_resetLine (ep : Endpoint) (v : Bool) : (s.setLive ep v).resetLine = s.resetLine := by cases ep <;> rfl
@[simp] theorem setLive_answers (ep : Endpoint) (v : Bool) : (s.setLive ep v).answers = s.answers := by cases ep <;> rfl
@[simp] theorem setLive_drawn (ep : Endpoint) (v : Bool) : (s.setLive ep v).drawn = s.drawn := by cases ep <;> rfl
@[simp] theorem setLive_turns (ep : Endpoint) (v : Bool) : (s.setLive ep v).turns = s.turns := by cases ep <;> rfl
@[simp] theorem setLive_cmd (ep : Endpoint) (v : Bool) : (s.setLive ep v).cmd = s.cmd := by cases ep <;> rfl
@[simp] theorem setLive_busPort (ep : Endpoint) (v : Bool) : (s.setLive ep v).busPort = s.busPort := by cases ep <;> rfl
@[simp] theorem setLive_busReply (ep : Endpoint) (v : Bool) : (s.setLive ep v).busReply = s.busReply := by cases ep <;> rfl
@[simp] theorem setLive_events (ep : Endpoint) (v : Bool) : (s.setLive ep v).events = s.events := by cases ep <;> rfl

end Sys2Proof.Machine
end

