-- ==== Sys2Proof/Laws/Ops.lean ====
section
/-! SUPPORT. What each shared operation can do, said once: the record of the concentrator, the exchanges, the
primitives. -/

namespace Sys2Proof.Machine

/-! ### Memory -/

theorem Memory.read_write_same (m : Memory) (a : Nat) (v : Byte) : (m.write a v).read a = some v := by
  induction m with
  | nil => simp [Memory.write, Memory.read]
  | cons c m ih =>
    obtain ⟨k, x⟩ := c
    simp only [Memory.write]
    split
    · simp [Memory.read]
    · split
      · simp [Memory.read]
      · rename_i h
        simp [Memory.read, ih, Ne.symm h]

theorem Memory.read_write_other (m : Memory) {a b : Nat} (v : Byte) (h : b ≠ a) : (m.write a v).read b = m.read b := by
  induction m with
  | nil => simp [Memory.write, Memory.read, Ne.symm h]
  | cons c m ih =>
    obtain ⟨k, x⟩ := c
    simp only [Memory.write]
    split
    · simp [Memory.read, Ne.symm h]
    · split
      · rename_i h2
        simp [Memory.read, ← h2, Ne.symm h]
      · simp [Memory.read, ih]

theorem Memory.read_forget_same (m : Memory) (a : Nat) : (m.forget a).read a = none := by
  induction m with
  | nil => simp [Memory.forget, Memory.read]
  | cons c m ih =>
    obtain ⟨k, x⟩ := c
    simp only [Memory.forget] at ih
    by_cases h : k = a <;> simp [Memory.forget, Memory.read, h, ih]

theorem Memory.read_forget_other (m : Memory) {a b : Nat} (h : b ≠ a) : (m.forget a).read b = m.read b := by
  induction m with
  | nil => simp [Memory.forget]
  | cons c m ih =>
    obtain ⟨k, x⟩ := c
    simp only [Memory.forget] at ih
    by_cases h2 : k = a
    · subst h2; simp [Memory.forget, Memory.read, ih, Ne.symm h]
    · simp [Memory.forget, Memory.read, h2, ih]

/-- Every key of the memory after a write is an old one or the one written. -/
theorem Memory.mem_write (m : Memory) (a : Nat) (v : Byte) (c : Host.Cell) (h : c ∈ m.write a v) :
    c ∈ m ∨ c = (a, v) := by
  induction m with
  | nil => simpa [Memory.write] using h
  | cons d m ih =>
    obtain ⟨k, x⟩ := d
    simp only [Memory.write] at h
    split at h
    · simp at h; simp; tauto
    · split at h
      · simp at h; simp; tauto
      · simp at h; simp; tauto

/-- 20 R51: 128 registers a page. -/
theorem pageSpan_eq : pageSpan = 128 := rfl

/-- 20 R51: 4 pages of 128 registers. -/
theorem memSpan_eq : Config.hw.nPages * pageSpan = 512 := rfl

theorem pagedKey_eq (p : Page) (a : RegAddr) : pagedKey p a = 128 * p.toNat + a.toNat := rfl

/-- A pair of a page and an address has a key of its own. -/
theorem pagedKey_inj {p q : Page} {a b : RegAddr} (h : pagedKey p a = pagedKey q b) : p = q ∧ a = b := by
  rw [pagedKey_eq, pagedKey_eq] at h
  have ha := a.isLt
  have hb := b.isLt
  exact ⟨BitVec.eq_of_toNat_eq (by omega), BitVec.eq_of_toNat_eq (by omega)⟩

theorem Memory.wf_nil : Memory.wf [] := by simp [Memory.wf]

theorem Memory.wf_write {m : Memory} {a : Nat} (v : Byte) (h : m.wf) (ha : a < Config.hw.nPages * pageSpan) : (m.write a v).wf := by
  refine ⟨?_, fun c hc => ?_⟩
  · induction m with
    | nil => simp [Memory.write]
    | cons d m ih =>
      obtain ⟨k, x⟩ := d
      obtain ⟨hp, hb⟩ := h
      have hp' := List.pairwise_cons.mp hp
      have hm : Memory.wf m := ⟨hp'.2, fun c hc => hb c (List.mem_cons_of_mem _ hc)⟩
      simp only [Memory.write]
      split
      · rename_i hlt
        refine List.pairwise_cons.mpr ⟨fun c hc => ?_, hp⟩
        rcases List.mem_cons.mp hc with rfl | hc
        · exact hlt
        · exact Nat.lt_trans hlt (hp'.1 c hc)
      · split
        · rename_i heq
          subst heq
          exact List.pairwise_cons.mpr ⟨fun c hc => hp'.1 c hc, hp'.2⟩
        · rename_i h1 h2
          refine List.pairwise_cons.mpr ⟨fun c hc => ?_, ih hm⟩
          rcases Memory.mem_write m a v c hc with hc | rfl
          · exact hp'.1 c hc
          · show k < a
            omega
  · rcases Memory.mem_write m a v c hc with hc | rfl
    · exact h.2 c hc
    · exact ha

theorem Memory.wf_forget {m : Memory} (a : Nat) (h : m.wf) : (m.forget a).wf :=
  ⟨h.1.filter _, fun c hc => h.2 c (List.mem_filter.mp hc).1⟩

/-! ### Pages -/

theorem page_cases : ∀ p : Page, p = 0 ∨ p = 1 ∨ p = 2 ∨ p = 3 := by decide

/-- A set of exactly one page has that page. -/
theorem PageSet.mem_single {ps : PageSet} {p : Page} (h : ps.single = some p) : ps.mem p = true := by
  obtain ⟨a, b, c, d⟩ := ps
  revert a b c d p
  decide

theorem PageSet.mem_all (p : Page) : PageSet.all.mem p = true := by revert p; decide

theorem PageSet.mem_only (p q : Page) : (PageSet.only p).mem q = (q == p) := by revert p q; decide

theorem PageSet.mem_insert (ps : PageSet) (p q : Page) : (ps.insert p).mem q = (ps.mem q || q == p) := by
  obtain ⟨a, b, c, d⟩ := ps
  revert p q a b c d
  decide

theorem PageSet.single_only (p : Page) : (PageSet.only p).single = some p := by revert p; decide

theorem regKey_lt (p : Page) (a : RegAddr) : regKey p a < Config.hw.nPages * pageSpan := by
  rw [memSpan_eq, regKey, pagedKey_eq]
  have h1 := p.isLt
  have h2 := a.isLt
  split <;> omega

/-! ### The concentrator -/

theorem Chip.wf_forget {c : Chip} (a : RegAddr) (h : c.mem.wf) : (c.forget a).mem.wf := by
  have drop : ∀ (m : Memory) (p : Page), m.wf →
      Memory.wf (if (pageFree a || c.pages.mem p) = true then m.forget (regKey p a) else m) := by
    intro m p hm
    split
    · exact Memory.wf_forget _ hm
    · exact hm
  exact drop _ 3 (drop _ 2 (drop _ 1 (drop _ 0 h)))

/-- The record of a paged register after it was dropped: none in a page that may be selected, kept in any other. -/
theorem Chip.read_forget_paged (c : Chip) {a : RegAddr} (p : Page) (hf : pageFree a = false) :
    (c.forget a).mem.read (pagedKey p a) = if c.pages.mem p then none else c.mem.read (pagedKey p a) := by
  have hk : ∀ q, regKey q a = pagedKey q a := fun q => by simp [regKey, hf]
  have hd : ∀ (m : Memory) (q : Page),
      Memory.read (if c.pages.mem q then m.forget (regKey q a) else m) (pagedKey p a)
        = if q = p ∧ c.pages.mem p = true then none else m.read (pagedKey p a) := by
    intro m q
    rw [hk]
    by_cases hq : q = p
    · subst hq
      split <;> simp_all [Memory.read_forget_same]
    · split
      · rw [Memory.read_forget_other _ (fun h => hq (pagedKey_inj h).1.symm)]
        simp [hq]
      · simp [hq]
  have h4 : p = 0 ∨ p = 1 ∨ p = 2 ∨ p = 3 := page_cases p
  simp only [Chip.forget, hf, Bool.false_or, hd]
  rcases h4 with rfl | rfl | rfl | rfl <;> simp

/-- The canonical form is kept by every write exchange. -/
theorem Chip.wf_write {c : Chip} (a : RegAddr) (v : Byte) (failed : Bool) (h : c.mem.wf) :
    (c.write a v failed).mem.wf := by
  unfold Chip.write
  split
  · unfold Chip.pageReg
    split
    · exact Memory.wf_nil
    · split <;> exact h
  · split
    · exact Chip.wf_forget a h
    · unfold Chip.record
      split
      · exact Memory.wf_write v h (regKey_lt _ _)
      · exact Chip.wf_forget a h

/-- A register whose key is not one of `a`'s keeps its record when `a` is forgotten. -/
theorem Chip.read_forget_other {c : Chip} {a : RegAddr} {k : Nat} (h : ∀ p, k ≠ regKey p a) :
    (c.forget a).mem.read k = c.mem.read k := by
  have drop : ∀ (m : Memory) (p : Page),
      Memory.read (if (pageFree a || c.pages.mem p) = true then m.forget (regKey p a) else m) k = m.read k := by
    intro m p
    split
    · exact Memory.read_forget_other m (h p)
    · rfl
  show Memory.read _ k = _
  simp only [Chip.forget]
  rw [drop, drop, drop, drop]

/-- A write to a register other than the page register leaves the record of every other register alone. -/
theorem Chip.read_write_other {c : Chip} {a : RegAddr} (v : Byte) (failed : Bool) {k : Nat}
    (ha : a ≠ Config.hw.pageReg) (h : ∀ p, k ≠ regKey p a) : (c.write a v failed).mem.read k = c.mem.read k := by
  unfold Chip.write
  rw [if_neg ha]
  split
  · exact Chip.read_forget_other h
  · unfold Chip.record
    split
    · exact Memory.read_write_other _ _ (h _)
    · exact Chip.read_forget_other h

/-! ### Answers -/

@[simp] theorem answer_draw (s : State) (k : Nat) : s.draw.answer k = s.answer (k + 1) := by
  simp only [State.answer, State.draw]
  have h : s.drawn + 1 + k = s.drawn + (k + 1) := by omega
  rw [h]
  cases s.answers <;> simp [List.getD]

/-- The answers to come depend on the two fields that hold them and on no other. -/
theorem answer_congr {s t : State} (h1 : t.answers = s.answers) (h2 : t.drawn = s.drawn) (k : Nat) :
    t.answer k = s.answer k := by simp [State.answer, h1, h2]

/-- The answer as a function of what it depends on: the answers to come and the count (20 R60). -/
def answerOf (l : List Answer) (d k : Nat) : Answer := l.getD k (Config.freeAnswer (d + k))

theorem answer_eq (s : State) (k : Nat) : s.answer k = answerOf s.answers s.drawn k := rfl

theorem answerOf_tail (l : List Answer) (d k : Nat) : answerOf l.tail (d + 1) k = answerOf l d (k + 1) := by
  have h : d + 1 + k = d + (k + 1) := by omega
  unfold answerOf
  rw [h]
  cases l <;> simp [List.getD]

theorem answerOf_drop (l : List Answer) (d k n : Nat) : answerOf (l.drop n) (d + n) k = answerOf l d (n + k) := by
  have h : d + n + k = d + (n + k) := by omega
  unfold answerOf
  rw [h]
  simp [List.getD]

theorem tail_eq_drop (l : List Answer) : l.tail = l.drop 1 := by cases l <;> rfl

theorem failOf_ok (v : Byte) : failOf (.ok v) = none := rfl

theorem failOf_err (c : Cause) : failOf (.err c) = some c := rfl

/-! ### Exchanges: everything each does -/

theorem memWrite_eq (a : RegAddr) (v : Byte) (s : State) :
    memWrite a v s =
      ({ s with
          chip := s.chip.write a v (failOf (s.answer 0)).isSome
          answers := s.answers.tail
          drawn := s.drawn + 1
          busReply := some (writeReply (failOf (s.answer 0)))
          events := s.events ++ [.wr a v (failOf (s.answer 0))] },
        failOf (s.answer 0)) := rfl

theorem memRead_eq (a : RegAddr) (s : State) :
    memRead a s =
      ({ s with
          answers := s.answers.tail
          drawn := s.drawn + 1
          busReply := some (readReply (s.answer 0))
          events := s.events ++ [.rd a (s.answer 0)] },
        s.answer 0) := rfl

theorem configure_eq (s : State) :
    configure s =
      ({ s with
          answers := s.answers.tail
          drawn := s.drawn + 1
          events := s.events ++ [.cfg (failOf (s.answer 0))] },
        failOf (s.answer 0)) := rfl

theorem registerEp_eq (ep : Endpoint) (s : State) :
    registerEp ep s =
      ({ s with
          answers := s.answers.tail
          drawn := s.drawn + 1
          events := s.events ++ [.reg ep (failOf (s.answer 0))] },
        failOf (s.answer 0)) := rfl

/-- `EnsurePage` of the tracked page does nothing (40 R128, third row). -/
theorem ensurePage_same {p : Page} {s : State} (h : s.curPage = .page p) : ensurePage p s = (s, none) := by
  simp [ensurePage, h]

/-- `EnsurePage` of another page is one write exchange, and `CUR_PAGE` follows only on Ok (40 R128). -/
theorem ensurePage_other {p : Page} {s : State} (h : s.curPage ≠ .page p) :
    ensurePage p s =
      ({ (memWrite Config.hw.pageReg (pageValue p) s).1 with
          curPage := if (failOf (s.answer 0)).isSome then s.curPage else .page p },
        failOf (s.answer 0)) := by
  rw [ensurePage, if_neg h, memWrite_eq]
  cases failOf (s.answer 0) <;> rfl

/-- `DEG` after a CS exchange: it stays set, and a failure sets it. -/
theorem degrade_eq (tag : LogTag) (r : Option Cause) (s : State) :
    degrade tag r s = { s with
      deg := s.deg || r.isSome
      events := s.events ++ (if r.isSome then [.log tag] else []) } := by
  cases r <;> simp [degrade, State.emit]

/-- A live endpoint is cleared and unregistered; a dead one is left alone. -/
theorem unregisterLive_eq (ep : Endpoint) (s : State) :
    unregisterLive ep s = { s with
      epLiveA := if ep = .a then false else s.epLiveA
      epLiveB := if ep = .b then false else s.epLiveB
      events := s.events ++ (if s.live ep then [.unreg ep] else []) } := by
  cases ep
  · cases h : s.epLiveA <;> simp [unregisterLive, State.live, State.setLive, State.emit, h]
    rw [← h]
  · cases h : s.epLiveB <;> simp [unregisterLive, State.live, State.setLive, State.emit, h]
    rw [← h]

end Sys2Proof.Machine
end

