-- ==== Sys2Proof/Laws/Transfer.lean ====
section
/-! SUPPORT. The response words of the errors as numerals, and what each phase of a transfer does when its exchange
succeeds. -/

namespace Sys2Proof.Machine

/-! ### Response words -/

/-- Each field of a response is read back as it was put (30 R90). -/
theorem responseWord_fields (code : BitVec 4) (phase : BitVec 3) (deg : Bool) (cause rdata : Byte) (ridx : BitVec 2) :
    let w := responseWord code phase deg cause rdata ridx
    respCode w = code ∧ respPhase w = phase ∧ respDeg w = bitOfBool deg ∧ respCause w = cause ∧ respRdata w = rdata
      ∧ respRidx w = ridx ∧ respReserved w = 0 := by
  simp (disch := omega) only [responseWord, respCode, respPhase, respDeg, respCause, respRdata, respRidx, respReserved,
    extract_or, extract_place_same, extract_place_disjoint]
  simp

theorem busError_word (c : Cause) : (CmdError.busError c).word = (0x00000001#32 ||| c.setWidth 32 <<< 8) := by
  simp [CmdError.word, responseWord, CmdError.code, place, bitOfBool, BitVec.or_comm]

theorem registrationFailed_word (c : Cause) :
    (CmdError.registrationFailed c).word = (0x00000005#32 ||| c.setWidth 32 <<< 8) := by
  simp [CmdError.word, responseWord, CmdError.code, place, bitOfBool, BitVec.or_comm]

theorem unexpectedIdentity_word (v : Byte) :
    (CmdError.unexpectedIdentity v).word = (0x00000003#32 ||| v.setWidth 32 <<< 16) := by
  simp [CmdError.word, responseWord, CmdError.code, place, bitOfBool, BitVec.or_comm]

theorem pageSwitchFailed_word (c : Cause) :
    (CmdError.transferFailed .pageSwitch c).word = (0x00000004#32 ||| c.setWidth 32 <<< 8) := by
  simp [CmdError.word, responseWord, CmdError.code, Phase.code, place, bitOfBool, BitVec.or_comm]

theorem addressFailed_word (c : Cause) :
    (CmdError.transferFailed .address c).word = (0x00000014#32 ||| c.setWidth 32 <<< 8) := by
  simp [CmdError.word, responseWord, CmdError.code, Phase.code, place, bitOfBool, BitVec.or_assoc]
  rw [BitVec.or_comm]

theorem dataFailed_word (c : Cause) :
    (CmdError.transferFailed .data c).word = (0x00000024#32 ||| c.setWidth 32 <<< 8) := by
  simp [CmdError.word, responseWord, CmdError.code, Phase.code, place, bitOfBool, BitVec.or_assoc]
  rw [BitVec.or_comm]

theorem readbackFailed_word (c : Cause) :
    (CmdError.transferFailed .readback c).word = (0x00000044#32 ||| c.setWidth 32 <<< 8) := by
  simp [CmdError.word, responseWord, CmdError.code, Phase.code, place, bitOfBool, BitVec.or_assoc]
  rw [BitVec.or_comm]

theorem okWord_eq : okWord = 0x00000000#32 := by decide

theorem writeDoneWord_eq (d : Bool) : writeDoneWord d = if d then 0x00000080#32 else 0x00000000#32 := by
  cases d <;> decide

theorem readDoneWord_eq {len : Nat} (v : Byte) (h1 : 1 ≤ len) (h2 : len ≤ 3) :
    readDoneWord len v = (BitVec.ofNat 32 (len - 1) <<< 24 ||| v.setWidth 32 <<< 16) := by
  have h : len - 1 = 0 ∨ len - 1 = 1 ∨ len - 1 = 2 := by omega
  rcases h with h | h | h <;> rw [readDoneWord, h] <;> simp [responseWord, place, bitOfBool]

/-! ### Operands -/

theorem lenValid_true (n : Nat) : lenValid n = true ↔ 1 ≤ n ∧ n ≤ 3 := by
  have h : lenValid n = (decide (1 ≤ n) && decide (n ≤ 3)) := rfl
  simp [h]

theorem lenValid_false (n : Nat) : lenValid n = false ↔ n = 0 ∨ 3 < n := by
  rw [← Bool.not_eq_true, lenValid_true]
  omega

theorem pageValue_eq (p : Page) : pageValue p = p.setWidth 8 := by revert p; decide

/-- A page write leaves every record as it was: the page it selects is what is known afterwards (20 R54). -/
theorem Chip.write_page (c : Chip) (p : Page) (failed : Bool) :
    c.write 0 (pageValue p) failed = { c with pages := if failed then c.pages.insert p else .only p } := by
  have h1 : pageValue p &&& ~~~Config.hw.pageMask = 0 := by revert p; decide
  have h2 : BitVec.setWidth 2 (pageValue p) = p := by revert p; decide
  have h3 : (0 : RegAddr) = Config.hw.pageReg := rfl
  unfold Chip.write Chip.pageReg
  rw [if_pos h3, h1, if_neg (by simp), h2]
  cases failed <;> simp

/-- A soft reset leaves nothing known (70 R261). -/
theorem Chip.write_softReset (c : Chip) (failed : Bool) : c.write 0 softResetValue failed = .unknown := by
  have h1 : softResetValue &&& ~~~Config.hw.pageMask ≠ 0 := by decide
  have h3 : (0 : RegAddr) = Config.hw.pageReg := rfl
  unfold Chip.write Chip.pageReg
  rw [if_pos h3, if_pos h1]

/-! ### Taking a transfer, and its phases -/

theorem bsqReady_idle {s : State} (h : s.bsqReady = true) : s.pcBsq = .idle := by
  simp [State.bsqReady, State.bsqFree] at h
  exact h.1.1

theorem bsqReady_waits {s : State} (h : s.bsqReady = true) : s.bsqWaits = false := by
  simp [State.bsqReady, State.bsqFree] at h
  exact h.1.2

theorem bsqReady_free {s : State} (h : s.bsqReady = true) : s.bsqFree = true := by
  simp [State.bsqReady] at h
  exact h.1

theorem bsqReady_lock {s : State} (h : s.bsqReady = true) : s.lock ≠ .lcu := by
  simp [State.bsqReady, State.lockOpenToBsq] at h
  exact h.2

/-- The lock is open: a command that is handed over enters its critical section at once. -/
theorem enterPageCmd_open (pc : BsqPc) {s : State} (hw : s.bsqWaits = true) (hl : s.lock ≠ .lcu) :
    enterPageCmd pc s = if s.inst then { bsqAcquire s with pcBsq := pc } else bsqRaise .notAttached (bsqAcquire s) := by
  rw [enterPageCmd, if_pos ⟨hw, by simpa [State.lockOpenToBsq] using hl⟩]
  rfl

/-- BSQ waits while LCU holds the lock, and it does nothing when it has no command. -/
theorem enterPageCmd_wait (pc : BsqPc) {s : State} (h : s.bsqWaits = false ∨ s.lock = .lcu) : enterPageCmd pc s = s := by
  rcases h with h | h <;> simp [enterPageCmd, State.lockOpenToBsq, h]

theorem enterXfer_open (ep : Endpoint) (len : Nat) {s : State} (hw : s.bsqWaits = true) (hl : s.lock ≠ .lcu) :
    enterXfer ep len s = if s.live ep = false then bsqRaise .notAttached (bsqAcquire s)
      else if lenValid len = false then bsqRaise .invalidLength (bsqAcquire s)
      else { bsqAcquire s with pcBsq := .pageSwitching } := by
  rw [enterXfer, if_pos ⟨hw, by simpa [State.lockOpenToBsq] using hl⟩]
  cases ep <;> rfl

theorem enterXfer_wait (ep : Endpoint) (len : Nat) {s : State} (h : s.bsqWaits = false ∨ s.lock = .lcu) :
    enterXfer ep len s = s := by
  rcases h with h | h <;> simp [enterXfer, State.lockOpenToBsq, h]

theorem beginXfer_ok (w : Word) (ep : Endpoint) {len : Nat} (s : State) (hr : s.bsqReady = true)
    (h : s.live ep = true) (h1 : 1 ≤ len) (h2 : len ≤ 3) :
    beginXfer w ep len s = { s with reqBsq := some w, lock := .bsq, pcBsq := .pageSwitching } := by
  have hw := bsqReady_waits hr
  rw [beginXfer, enterXfer_open ep len (by simp) (by simpa using bsqReady_lock hr)]
  cases ep <;> simp only [State.live] at h <;>
    simp [State.live, h, (lenValid_true len).2 ⟨h1, h2⟩, bsqTake, bsqAcquire, hw]

/-- In `IDLE`, where a command was refused or waits for the lock, the phases do nothing. -/
theorem runXferWr_idle (ep : Endpoint) (dv : Bool) (addr data : Byte) {s : State} (h : s.pcBsq = .idle) :
    runXferWr ep dv addr data s = s := by
  simp [runXferWr, pageSwitching, addressPhase, dataPhase, csPhase, bsqReply, h]

theorem runXferRd_idle (ep : Endpoint) (len : Nat) {s : State} (h : s.pcBsq = .idle) : runXferRd ep len s = s := by
  simp [runXferRd, pageSwitching, readBack, bsqReply, h]

/-- The page switch of a transfer when it succeeds or is not needed. -/
theorem pageSwitching_ok (next : BsqPc) (w : Option Word) (s : State) (h : s.PageSwitchOk) :
    pageSwitching next { s with reqBsq := w, lock := .bsq, pcBsq := .pageSwitching } = { s with
      curPage := .page 2
      lock := .bsq
      reqBsq := w
      pcBsq := next
      chip := pageSwitchChip s
      answers := s.answers.drop (pageSwitchCount s)
      drawn := s.drawn + pageSwitchCount s
      busReply := if s.curPage = .page 2 then s.busReply else some .done
      events := s.events ++ pageSwitchTrace s } := by
  have hr : Config.hw.pageRadio = 2#2 := rfl
  have hp : Config.hw.pageReg = 0#7 := rfl
  have hv : pageValue 2#2 = 2#8 := rfl
  by_cases hc : s.curPage = .page 2#2
  · simp [pageSwitching, ensurePage, hr, hc, pageSwitchChip, pageSwitchCount, pageSwitchTrace]
  · have ha := h hc
    simp only [answer_eq] at ha
    simp [pageSwitching, ensurePage, hr, hc, memWrite, State.draw, State.emit, answer_eq, ha, hp, hv, writeReply,
      pageSwitchChip, pageSwitchCount, pageSwitchTrace, tail_eq_drop, -List.drop_one]

/-- The chip-select pulse, whatever its three exchanges return. -/
theorem csPulse_eq (ep : Endpoint) (s : State) :
    csPulse ep s =
      let r := s.answer 0
      let w1 := failOf (s.answer 1)
      let w2 := failOf (s.answer 2)
      { s with
        csv := some (csValue r)
        deg := csDegraded r w1 w2
        chip := (s.chip.write ep.csReg (csValue r ||| 0x01) w1.isSome).write ep.csReg (csValue r &&& 0xFE) w2.isSome
        answers := s.answers.drop 3
        drawn := s.drawn + 3
        busReply := some (writeReply w2)
        events := s.events ++ csTrace ep r w1 w2 } := by
  have h1 : bitMask Config.hw.csBit = 1#8 := by decide
  simp only [answer_eq]
  cases ha : answerOf s.answers s.drawn 0 <;>
    simp [csPulse, csRead, csWrite, memRead, memWrite, degrade_eq, State.draw, State.emit, answer_eq, ha, csValue,
      csDegraded, csAssertValue, csDeassertValue, h1, failOf_ok, failOf_err, csTrace, logIf, tail_eq_drop,
      -List.drop_one, Nat.add_assoc, answerOf_drop]

end Sys2Proof.Machine
end

