-- ==== Sys2Proof/Laws/BringUp.lean ====
section
/-! SUPPORT. What each step of bring-up does when its exchanges succeed (42_lifecycle.md), and what a registration does
on each answer. -/

namespace Sys2Proof.Machine

theorem pageReg_eq : Config.hw.pageReg = 0#7 := rfl

theorem pageRadio_eq : Config.hw.pageRadio = 2#2 := rfl

theorem pageValue_2 : pageValue 2#2 = 2#8 := rfl

theorem softResetValue_eq : softResetValue = 0x80#8 := by decide

theorem Chip.write_0x80 (c : Chip) (failed : Bool) : Chip.write 0#7 128#8 failed c = Chip.unknown :=
  Chip.write_softReset c failed

theorem lcuReady_idle {s : State} (h : s.lcuReady = true) : s.pcLcu = .idle := by
  simp [State.lcuReady, State.lcuBusy] at h; exact h.1

/-- Step 1 cannot fail (42 R181). -/

theorem step1_eq (s : State) (h : s.pcLcu = .step1) : step1 s = { s with
    pcLcu := .step2
    chip := if s.rstp then .unknown else s.chip
    resetLine := if s.rstp then some .inactive else s.resetLine
    events := s.events ++ resetLineTrace s.rstp } := by
  cases hr : s.rstp <;> simp [step1, h, hr, delay, gpioInactive, gpioActive, State.emit, resetLineTrace, Config.hw]

/-- Step 2 with an answer Ok (42 R182). -/

theorem step2_ok (s : State) (h : s.pcLcu = .step2) (b0 : failOf (answerOf s.answers s.drawn 0) = none) : step2 s = {
    s with
    pcLcu := .step3
    answers := s.answers.drop 1
    drawn := s.drawn + 1
    events := s.events ++ [.cfg none] } := by
  simp [step2, h, configure, State.emit, State.draw, answer_eq, b0, orBusError, tail_eq_drop, -List.drop_one]

theorem idReg_eq : Config.hw.idReg = 1 := rfl

theorem idExpected_eq : Config.hw.idExpected = 103 := rfl

/-- Step 3 with the expected identity (42 R183). -/

theorem step3_ok (s : State) (h : s.pcLcu = .step3) (b0 : (answerOf s.answers s.drawn 0) = .ok 103) : step3 s = { s
    with
    pcLcu := .step4
    tmp := some 103
    inst := true
    curPage := .unknown
    answers := s.answers.drop 1
    drawn := s.drawn + 1
    busReply := some (.byte 103)
    events := s.events ++ [.rd 1 (.ok 103)] } := by
  simp [step3, h, memRead, State.emit, State.draw, answer_eq, b0, tail_eq_drop, -List.drop_one, idReg_eq,
      idExpected_eq, readReply]

/-- Step 4 with both writes answered Ok (42 R184, R185). -/

theorem step4_ok (s : State) (h : s.pcLcu = .step4) (b0 : failOf (answerOf s.answers s.drawn 0) = none) (b1 : failOf
    (answerOf s.answers s.drawn 1) = none) : step4 s = { s with
    pcLcu := .step5
    curPage := .page 0
    chip := .unknown
    answers := s.answers.drop 2
    drawn := s.drawn + 2
    busReply := some .done
    events := s.events ++ [.wr 0 0x00 none, .wr 0 0x80 none] } := by
  simp [step4, h, memWrite, softReset, State.emit, State.draw, answer_eq, b0, b1, answerOf_drop,
      tail_eq_drop, -List.drop_one, orBusError, writeReply, softResetValue_eq, pageReg_eq, Chip.write_0x80]

/-- A read-modify-write whose read and write succeed (40 R127). -/

theorem rmw_ok (a clr set) (s : State) (v) (b0 : (answerOf s.answers s.drawn 0) = .ok v) (b1 : failOf (answerOf
    s.answers s.drawn 1) = none) :
    rmw a clr set s = ({ s with
    tmp := some v
    chip := s.chip.write a ((v &&& ~~~clr) ||| set) false
    answers := s.answers.drop 2
    drawn := s.drawn + 2
    busReply := some .done
    events := s.events ++ [.rd a (.ok v), .wr a ((v &&& ~~~clr) ||| set) none] }, none) := by
  simp [rmw, memWrite, memRead, State.emit, State.draw, answer_eq, b0, b1, answerOf_drop,
      tail_eq_drop, -List.drop_one, writeReply, rmwValue]

theorem and_255 (x : Byte) : x &&& 255#8 = x := by ext i hi; interval_cases i <;> simp

theorem genMask_eq : genMask = 0x08#8 := by decide

theorem clkMask_eq : clkMask = 0x01#8 := by decide

theorem radioEnMask_eq : radioEnMask = 0x03#8 := by decide

theorem radioRstMask_eq : radioRstMask = 0x04#8 := by decide

/-- Step 5 with every answer Ok (42 R186). -/

theorem step5_ok (s : State) (g k) (h : s.pcLcu = .step5) (hc : s.curPage = .page 0) (b0 : (answerOf s.answers
    s.drawn 0) = .ok g) (b1 : failOf (answerOf s.answers s.drawn 1) = none)  (b2 : (answerOf s.answers s.drawn 2) =
    .ok k) (b3 : failOf (answerOf s.answers s.drawn 3) = none) : step5 s = { s with
    pcLcu := .step6
    tmp := some k
    chip := (s.chip.write 16 (g &&& 0xF7) false).write 17 (k &&& 0xFE) false
    answers := s.answers.drop 4
    drawn := s.drawn + 4
    busReply := some .done
    events := s.events ++ [.rd 16 (.ok g), .wr 16 (g &&& 0xF7) none, .rd 17 (.ok k), .wr 17 (k &&& 0xFE) none] } := by
  have hc' : s.curPage = .page Config.hw.pageCtrl := hc
  rw [step5, if_pos h, ensurePage_same hc']
  simp only [orBusError]
  rw [rmw_ok _ _ _ _ g b0 b1]
  simp only
  rw [rmw_ok _ _ _ _ k (by simpa [answerOf_drop] using b2) (by simpa [answerOf_drop] using b3)]
  simp [Config.hw, genMask_eq, clkMask_eq]

/-- Step 6 with every answer Ok (42 R187). -/

theorem step6_ok (s : State) (x) (h : s.pcLcu = .step6) (hc : s.curPage ≠ .page 2) (b0 : failOf (answerOf s.answers
    s.drawn 0) = none) (b1 : (answerOf s.answers s.drawn 1) = .ok x) (b2 : failOf (answerOf s.answers s.drawn 2) =
    none) : step6 s = { s with
    pcLcu := .step7
    curPage := .page 2
    tmp := some x
    chip := (s.chip.write 0 2 false).write 43 (x ||| 3) false
    answers := s.answers.drop 3
    drawn := s.drawn + 3
    busReply := some .done
    events := s.events ++ [.wr 0 2 none, .rd 43 (.ok x), .wr 43 (x ||| 3) none] } := by
  have hc' : ¬ s.curPage = .page 2#2 := hc
  have he : ensurePage 2#2 s = ({ s with
    curPage := .page 2
    chip := (s.chip.write 0 2 false)
    answers := s.answers.drop 1
    drawn := s.drawn + 1
    busReply := some .done
    events := s.events ++ [.wr 0 2 none] }, none) := by
    simp [ensurePage, hc', memWrite, State.draw, State.emit, answer_eq, b0, tail_eq_drop, -List.drop_one, pageReg_eq,
        pageValue_2, writeReply]
  rw [step6, if_pos h, pageRadio_eq, he]
  simp only [orBusError]
  rw [rmw_ok _ _ _ _ x (by simpa [answerOf_drop, -List.drop_one] using b1) (by simpa [answerOf_drop, -List.drop_one]
      using b2)]
  simp [Config.hw, radioEnMask_eq, and_255, -List.drop_one]

/-- Step 7 with every answer Ok; the lock is released after it (42 R188, R180). -/

theorem step7_ok (s : State) (x y) (h : s.pcLcu = .step7) (hc : s.curPage = .page 2) (b0 : (answerOf s.answers
    s.drawn 0) = .ok x) (b1 : failOf (answerOf s.answers s.drawn 1) = none) (b2 : (answerOf s.answers s.drawn 2) =
    .ok y) (b3 : failOf (answerOf s.answers s.drawn 3) = none) : step7 s = { s with
    pcLcu := .step8
    regPhase := .start
    lock := .free
    tmp := some y
    chip := (s.chip.write 43 (x ||| 4) false).write 43 (y &&& 0xFB) false
    answers := s.answers.drop 4
    drawn := s.drawn + 4
    busReply := some .done
    events := s.events ++ [.delay 500, .rd 43 (.ok x), .wr 43 (x ||| 4) none, .delay 5, .rd 43 (.ok y), .wr 43 (y &&&
        0xFB) none] } := by
  have he : ∀ n (t : State), t.curPage = .page 2 → ensurePage 2#2 (delay n t) = (delay n t, none) := by
    intro n t ht
    exact ensurePage_same (by simpa [delay, State.emit] using ht)
  rw [step7, if_pos h, pageRadio_eq, he _ _ hc]
  simp only [orBusError]
  rw [rmw_ok _ _ _ _ x (by simpa [delay, State.emit] using b0) (by simpa [delay, State.emit] using b1)]
  simp only
  rw [he _ _ (by simpa [delay, State.emit] using hc)]
  simp only
  rw [rmw_ok _ _ _ _ y (by simpa [delay, State.emit, answerOf_drop] using b2) (by simpa [delay, State.emit,
      answerOf_drop] using b3)]
  simp [Config.hw, radioRstMask_eq, and_255, release, delay, State.emit]

/-- A registration the framework answers Ok (42 R189). -/

theorem registerEp_ok (ep) (s : State) (b0 : failOf (answerOf s.answers s.drawn 0) = none) : registerEp ep s = ({ s
    with answers := s.answers.drop 1, drawn := s.drawn + 1, events := s.events ++ [.reg ep none]}, none) := by
  simp [registerEp, State.emit, State.draw, answer_eq, b0, tail_eq_drop, -List.drop_one]

/-- A registration the framework answers Err. -/

theorem registerEp_err (ep) (s : State) (c) (b0 : failOf (answerOf s.answers s.drawn 0) = some c) : registerEp ep s =
    ({ s with answers := s.answers.drop 1, drawn := s.drawn + 1, events := s.events ++ [.reg ep (some c)]}, some c)
    := by
  simp [registerEp, State.emit, State.draw, answer_eq, b0, tail_eq_drop, -List.drop_one]

/-- ATTACH taken on a detached block when the lock is open to LCU (42 R180). -/

theorem beginAttach_ok (s : State) (w rstp) (h : s.lcuReady = true) (hl : s.lc = .detached) (hlk : s.lock ≠ .bsq) :
    beginAttach w rstp s = { s with reqLcu := some w, lc := .attaching, rstp := rstp, lock := .lcu, pcLcu := .step1 }
        := by
  simp [beginAttach, hl, attachAcquire, lcuReady_idle h, State.lockOpenToLcu, hlk]

end Sys2Proof.Machine
end

