-- ==== Sys2Proof/Laws/BsqCourse.lean ====
section
/-! SUPPORT. What a move of BSQ can do, said once: nothing, the entry of a command that waited for the lock, or one phase of
a command, which keeps the lock or ends with the response (`bsqMove_course`). -/

namespace Sys2Proof.Machine

/-- How many moves BSQ makes from this sequencer state to its response at most (10 R31). -/
def movesLeft : BsqPc → Nat
  | .idle => 0
  | .pageSwitching => 5
  | .addressPhase => 4
  | .dataPhase => 3
  | .csPulse => 2
  | .readBack => 2
  | .done => 1
  | .failed => 1
  | .pageOp => 1
  | .srstOp => 1

/-- What no move of BSQ changes: the lifecycle, the endpoints, LCU's registers, its own command, and the channels that the
block only reads. -/
def BsqKeeps (s t : State) : Prop :=
  t.inst = s.inst ∧ t.lc = s.lc ∧ t.rstp = s.rstp ∧ t.epLiveA = s.epLiveA ∧ t.epLiveB = s.epLiveB ∧ t.pcLcu = s.pcLcu
    ∧ t.reqLcu = s.reqLcu ∧ t.reqBsq = s.reqBsq ∧ t.tmp = s.tmp ∧ t.respLcu = s.respLcu ∧ t.regPhase = s.regPhase
    ∧ t.resetLine = s.resetLine ∧ t.turns = s.turns ∧ t.cmd = s.cmd ∧ t.busPort = s.busPort

theorem BsqKeeps.refl (s : State) : BsqKeeps s s :=
  ⟨rfl, rfl, rfl, rfl, rfl, rfl, rfl, rfl, rfl, rfl, rfl, rfl, rfl, rfl, rfl⟩

/-- A phase of BSQ, from `s` to `t`: it keeps the lock and goes on without a response, or it responds, frees the lock and is
idle. -/
def BsqGoes (s t : State) : Prop :=
  BsqKeeps s t ∧ t.bsqWaits = s.bsqWaits ∧ ∃ es, (∀ w, .resp w ∉ es)
    ∧ ((t.lock = s.lock ∧ t.pcBsq ≠ .idle ∧ movesLeft t.pcBsq < movesLeft s.pcBsq ∧ t.events = s.events ++ es)
      ∨ (t.lock = .free ∧ t.pcBsq = .idle ∧ ∃ w, t.respBsq = some w ∧ t.events = s.events ++ es ++ [.resp w]))

theorem memWrite_goes (a : RegAddr) (v : Byte) (s : State) :
    BsqKeeps s (memWrite a v s).1 ∧ (memWrite a v s).1.bsqWaits = s.bsqWaits ∧ (memWrite a v s).1.lock = s.lock ∧ (memWrite a v s).1.pcBsq = s.pcBsq
      ∧ ∃ f, (memWrite a v s).1.events = s.events ++ [.wr a v f] := by
  rw [memWrite_eq]; exact ⟨BsqKeeps.refl s, rfl, rfl, rfl, _, rfl⟩

theorem ensurePage_goes (p : Page) (s : State) :
    BsqKeeps s (ensurePage p s).1 ∧ (ensurePage p s).1.bsqWaits = s.bsqWaits ∧ (ensurePage p s).1.lock = s.lock ∧ (ensurePage p s).1.pcBsq = s.pcBsq
      ∧ ∃ es, (∀ w, .resp w ∉ es) ∧ (ensurePage p s).1.events = s.events ++ es := by
  by_cases hc : s.curPage = .page p
  · rw [ensurePage_same hc]; exact ⟨BsqKeeps.refl s, rfl, rfl, rfl, [], by simp⟩
  · rw [ensurePage_other hc, memWrite_eq]; exact ⟨BsqKeeps.refl s, rfl, rfl, rfl, [_], by simp, rfl⟩

theorem finishPageCmd_goes {s : State} (r : State × Option Cause) (h0 : BsqKeeps s r.1) (h1 : r.1.bsqWaits = s.bsqWaits)
    (h2 : ∃ es, (∀ w, .resp w ∉ es) ∧ r.1.events = s.events ++ es) : BsqGoes s (finishPageCmd r) := by
  obtain ⟨t, c⟩ := r
  obtain ⟨es, he, h2⟩ := h2
  have h2' : t.events = s.events ++ es := h2
  cases c <;>
    exact ⟨h0, h1, es, he, .inr ⟨rfl, rfl, _, rfl, by
      simp [finishPageCmd, bsqRespond, bsqRaise, release, State.emit, h2']⟩⟩

theorem pageOp_goes (p : Page) {s : State} (h : s.pcBsq = .pageOp) : BsqGoes s (pageOp p s) := by
  rw [pageOp, if_pos h]
  have := ensurePage_goes p s
  exact finishPageCmd_goes _ this.1 this.2.1 this.2.2.2.2

theorem srstOp_goes {s : State} (h : s.pcBsq = .srstOp) : BsqGoes s (srstOp s) := by
  rw [srstOp, if_pos h, softReset]
  obtain ⟨h0, h1, -, -, f, h2⟩ := memWrite_goes Config.hw.pageReg softResetValue s
  exact finishPageCmd_goes _ h0 h1 ⟨[_], by simp, h2⟩

theorem pageSwitching_goes {next : BsqPc} {s : State} (h : s.pcBsq = .pageSwitching) (hn : next ≠ .idle)
    (hl : movesLeft next < 5) : BsqGoes s (pageSwitching next s) := by
  rw [pageSwitching, if_pos h]
  obtain ⟨h0, h1, h2, -, es, he, h3⟩ := ensurePage_goes Config.hw.pageRadio s
  split
  · rename_i t heq; rw [heq] at h0 h1 h2 h3
    exact ⟨h0, h1, es, he, .inl ⟨h2, hn, by rw [h]; exact hl, h3⟩⟩
  · rename_i t c heq; rw [heq] at h0 h1 h2 h3
    exact ⟨h0, h1, es, he, .inl ⟨h2, by simp [bsqFail], by rw [h]; simp [bsqFail, movesLeft], h3⟩⟩

theorem addressPhase_goes (ep : Endpoint) (v : Byte) {s : State} (h : s.pcBsq = .addressPhase) :
    BsqGoes s (addressPhase ep v s) := by
  rw [addressPhase, if_pos h]
  obtain ⟨h0, h1, h2, -, f, h3⟩ := memWrite_goes ep.addrReg v s
  split
  all_goals
    rename_i heq; rw [heq] at h0 h1 h2 h3
    exact ⟨h0, h1, [_], by simp, .inl ⟨h2, by simp [bsqFail], by rw [h]; simp [bsqFail, movesLeft], h3⟩⟩

theorem dataPhase_goes (ep : Endpoint) (v : Byte) {s : State} (h : s.pcBsq = .dataPhase) :
    BsqGoes s (dataPhase ep v s) := by
  rw [dataPhase, if_pos h]
  obtain ⟨h0, h1, h2, -, f, h3⟩ := memWrite_goes ep.dataReg v s
  split
  all_goals
    rename_i heq; rw [heq] at h0 h1 h2 h3
    exact ⟨h0, h1, [_], by simp, .inl ⟨h2, by simp [bsqFail], by rw [h]; simp [bsqFail, movesLeft], h3⟩⟩

theorem csPhase_goes (ep : Endpoint) {s : State} (h : s.pcBsq = .csPulse) : BsqGoes s (csPhase ep s) := by
  rw [csPhase, if_pos h, csPulse_eq]
  refine ⟨BsqKeeps.refl s, rfl, _, ?_, .inl ⟨rfl, by simp [bsqDone], by rw [h]; simp [bsqDone, movesLeft], rfl⟩⟩
  intro w
  simp only [csTrace, logIf]
  split <;> split <;> split <;> simp

theorem readBack_goes (ep : Endpoint) (len : Nat) {s : State} (h : s.pcBsq = .readBack) :
    BsqGoes s (readBack ep len s) := by
  rw [readBack, if_pos h, memRead_eq]
  split
  all_goals
    rename_i heq
    have heq := (Prod.mk.inj heq).1
    subst heq
    exact ⟨BsqKeeps.refl s, rfl, [_], by simp, .inl ⟨rfl, by simp [bsqFail, bsqDone], by rw [h]; simp [bsqFail, bsqDone, movesLeft], rfl⟩⟩

theorem bsqReply_goes {s : State} (h : s.pcBsq = .done ∨ s.pcBsq = .failed) (hr : s.respBsq ≠ none) :
    BsqGoes s (bsqReply s) := by
  obtain ⟨w, hw⟩ := Option.ne_none_iff_exists'.1 hr
  rw [bsqReply, if_pos h]
  simp only [hw]
  exact ⟨BsqKeeps.refl s, rfl, [], by simp, .inr ⟨rfl, rfl, w, by simp, by simp [State.emit]⟩⟩

/-- Entering: the first sequencer state with the lock, or a refusal. -/
def BsqEnters (s t : State) : Prop :=
  BsqKeeps s t ∧ t.bsqWaits = false ∧ ((t.lock = .bsq ∧ t.pcBsq ≠ .idle ∧ movesLeft t.pcBsq ≤ 5 ∧ t.events = s.events)
    ∨ (t.lock = .free ∧ t.pcBsq = .idle ∧ ∃ w, t.respBsq = some w ∧ t.events = s.events ++ [.resp w]))

theorem enterPageCmd_enters {pc : BsqPc} {s : State} (hp : pc ≠ .idle) (hm : movesLeft pc ≤ 5) (hw : s.bsqWaits = true)
    (hl : s.lock ≠ .lcu) : BsqEnters s (enterPageCmd pc s) := by
  rw [enterPageCmd_open pc hw hl]
  split
  · exact ⟨BsqKeeps.refl s, rfl, .inl ⟨rfl, hp, hm, rfl⟩⟩
  · exact ⟨BsqKeeps.refl s, rfl, .inr ⟨rfl, rfl, _, rfl, rfl⟩⟩

theorem enterXfer_enters (ep : Endpoint) (len : Nat) {s : State} (hw : s.bsqWaits = true)
    (hl : s.lock ≠ .lcu) : BsqEnters s (enterXfer ep len s) := by
  rw [enterXfer_open ep len hw hl]
  split
  · exact ⟨BsqKeeps.refl s, rfl, .inr ⟨rfl, rfl, _, rfl, rfl⟩⟩
  · split
    · exact ⟨BsqKeeps.refl s, rfl, .inr ⟨rfl, rfl, _, rfl, rfl⟩⟩
    · exact ⟨BsqKeeps.refl s, rfl, .inl ⟨rfl, by simp, by simp [movesLeft], rfl⟩⟩

/-- What a move of BSQ can do: nothing, the entry of a command that waited, or one phase. -/
def BsqCourse (s t : State) : Prop :=
  (t = s ∧ s.pcBsq = .idle ∧ (s.bsqWaits = false ∨ s.lock = .lcu))
    ∨ (s.pcBsq = .idle ∧ s.bsqWaits = true ∧ s.lock ≠ .lcu ∧ BsqEnters s t)
    ∨ (s.pcBsq ≠ .idle ∧ BsqGoes s t)

theorem bsqMove_course {s t : State} (h : bsqMove s = .next t) : BsqCourse s t := by
  unfold bsqMove at h
  split at h
  · rename_i hf
    injection h with h
    have hf := (by simpa [State.bsqFree] using hf : s.pcBsq = .idle ∧ s.bsqWaits = false)
    exact .inl ⟨h.symm, hf.1, .inl hf.2⟩
  rename_i hf
  split at h
  · cases h
  split at h
  · cases h
  rename_i i hd
  split at h
  · cases h
  rename_i hon
  split at h
  · cases h
  rename_i hr
  injection h with h
  subst h
  have hr : s.pcBsq = .done ∨ s.pcBsq = .failed → s.respBsq ≠ none := fun h1 h2 => hr ⟨h1, h2⟩
  have entry : ∀ f : State → State, bsqActions i s = f s → s.pcBsq = .idle →
      (s.bsqWaits = false ∨ s.lock = .lcu → f s = s) → (s.bsqWaits = true → s.lock ≠ .lcu → BsqEnters s (f s)) →
      BsqCourse s (bsqActions i s) := by
    intro f he hp h1 h2
    rw [he]
    by_cases hw : s.bsqWaits = true ∧ s.lock ≠ .lcu
    · exact .inr (.inl ⟨hp, hw.1, hw.2, h2 hw.1 hw.2⟩)
    · have : s.bsqWaits = false ∨ s.lock = .lcu := by cases hh : s.bsqWaits <;> simp_all
      exact .inl ⟨h1 this, hp, this⟩
  have phase : ∀ u, bsqActions i s = u → s.pcBsq ≠ .idle → BsqGoes s u → BsqCourse s (bsqActions i s) :=
    fun u he hp hu => .inr (.inr ⟨hp, he ▸ hu⟩)
  have hon : bsqOnPath i s.pcBsq = true := by simpa using hon
  cases i with
  | ensurePage p x =>
    simp only [bsqOnPath, Bool.or_eq_true, beq_iff_eq] at hon
    rcases hon with hp | hp
    · exact entry (enterPageCmd .pageOp) (by simp only [bsqActions, hp]) hp (fun hw => enterPageCmd_wait _ hw) (enterPageCmd_enters (by decide) (by decide))
    · exact phase (pageOp p s) (by simp only [bsqActions, hp]) (by simp [hp]) (pageOp_goes _ hp)
  | softReset x =>
    simp only [bsqOnPath, Bool.or_eq_true, beq_iff_eq] at hon
    rcases hon with hp | hp
    · exact entry (enterPageCmd .srstOp) (by simp only [bsqActions, hp]) hp (fun hw => enterPageCmd_wait _ hw) (enterPageCmd_enters (by decide) (by decide))
    · exact phase (srstOp s) (by simp only [bsqActions, hp]) (by simp [hp]) (srstOp_goes hp)
  | xferWr ep len dv addr data x =>
    simp only [bsqOnPath, Bool.or_eq_true, Bool.and_eq_true, beq_iff_eq] at hon
    rcases hon with hp | ⟨-, ((((hp | hp) | hp) | hp) | hp) | hp⟩
    · exact entry (enterXfer ep len) (by simp only [bsqActions, hp]) hp (fun hw => enterXfer_wait _ _ hw) (enterXfer_enters _ _)
    · exact phase (pageSwitching .addressPhase s) (by simp only [bsqActions, hp]) (by simp [hp]) (pageSwitching_goes hp (by decide) (by decide))
    · exact phase (addressPhase ep addr s) (by simp only [bsqActions, hp]) (by simp [hp]) (addressPhase_goes _ _ hp)
    · exact phase (dataPhase ep (dataByte dv data) s) (by simp only [bsqActions, hp]) (by simp [hp]) (dataPhase_goes _ _ hp)
    · exact phase (csPhase ep s) (by simp only [bsqActions, hp]) (by simp [hp]) (csPhase_goes _ hp)
    · exact phase (bsqReply s) (by simp only [bsqActions, hp]) (by simp [hp]) (bsqReply_goes (.inl hp) (hr (.inl hp)))
    · exact phase (bsqReply s) (by simp only [bsqActions, hp]) (by simp [hp]) (bsqReply_goes (.inr hp) (hr (.inr hp)))
  | xferRd ep len x =>
    simp only [bsqOnPath, Bool.or_eq_true, Bool.and_eq_true, beq_iff_eq] at hon
    rcases hon with hp | ⟨-, ((hp | hp) | hp) | hp⟩
    · exact entry (enterXfer ep len) (by simp only [bsqActions, hp]) hp (fun hw => enterXfer_wait _ _ hw) (enterXfer_enters _ _)
    · exact phase (pageSwitching .readBack s) (by simp only [bsqActions, hp]) (by simp [hp]) (pageSwitching_goes hp (by decide) (by decide))
    · exact phase (readBack ep len s) (by simp only [bsqActions, hp]) (by simp [hp]) (readBack_goes _ _ hp)
    · exact phase (bsqReply s) (by simp only [bsqActions, hp]) (by simp [hp]) (bsqReply_goes (.inl hp) (hr (.inl hp)))
    · exact phase (bsqReply s) (by simp only [bsqActions, hp]) (by simp [hp]) (bsqReply_goes (.inr hp) (hr (.inr hp)))
  | attach r x => simp [bsqOnPath] at hon
  | detach x => simp [bsqOnPath] at hon
  | busWr a v => simp [bsqOnPath] at hon
  | busRd a => simp [bsqOnPath] at hon

end Sys2Proof.Machine
end

