-- ==== Sys2Proof/Laws/Course.lean ====
section
/-! SUPPORT. What each step of bring-up can do, whatever the environment answers: it goes on to the next step with no
endpoint live, or it stops with the failing event last and the error in `RESP` (42 R192). Beside it, what ATTACH can do to
the record of the concentrator's registers. -/

namespace Sys2Proof.Machine

/-! ### The course of bring-up -/

/-- No registration and no unregistration is among the events. -/
def NoRegistration (es : List Event) : Prop := (∀ ep r, Event.reg ep r ∉ es) ∧ ∀ ep, Event.unreg ep ∉ es

theorem NoRegistration.nil : NoRegistration [] := by simp [NoRegistration]

theorem NoRegistration.snoc {es : List Event} {e : Event} (h : NoRegistration es) (he : NoRegistration [e]) :
    NoRegistration (es ++ [e]) := by
  simp only [NoRegistration, List.mem_append, not_or] at *
  exact ⟨fun ep r => ⟨h.1 ep r, he.1 ep r⟩, fun ep => ⟨h.2 ep, he.2 ep⟩⟩

/-- The event is an exchange on BUS or CFG that failed with the cause. -/
def Event.FailedWith (e : Event) (c : Cause) : Prop :=
  e = .cfg (some c) ∨ (∃ a v, e = .wr a v (some c)) ∨ ∃ a, e = .rd a (.err c)

/-- Bring-up before its step 8: the lock is not BSQ's, no endpoint is live, and no registration was made since the trace
was `b`. -/
def OnCourse (b : List Event) (s : State) : Prop :=
  s.lock ≠ .bsq ∧ s.epLiveA = false ∧ s.epLiveB = false ∧ s.regPhase = .start
    ∧ ∃ es, NoRegistration es ∧ s.events = b ++ es

/-- The same, with the last event named. -/
def OnCourseTo (b : List Event) (e : Event) (s : State) : Prop :=
  s.lock ≠ .bsq ∧ s.epLiveA = false ∧ s.epLiveB = false ∧ s.regPhase = .start
    ∧ ∃ es, NoRegistration es ∧ s.events = b ++ es ++ [e]

/-- A primitive of bring-up succeeded, or the failed exchange is the last event. -/
def OnCourseOrFailed (b : List Event) (r : State × Option Cause) : Prop :=
  match r with
  | (t, none) => OnCourse b t
  | (t, some c) => ∃ e, e.FailedWith c ∧ OnCourseTo b e t

/-- Bring-up stopped before its step 8: `L_UNWIND`, with the failing event last and its error in `RESP` (42 R192). -/
def Stopped (b : List Event) (s : State) : Prop :=
  s.pcLcu = .unwind ∧ ∃ e err, OnCourseTo b e s ∧ s.respLcu = some (CmdError.word err)
    ∧ ((∃ c, err = .busError c ∧ e.FailedWith c)
      ∨ ∃ v, err = .unexpectedIdentity v ∧ v ≠ Config.hw.idExpected ∧ e = .rd Config.hw.idReg (.ok v))

/-- Bring-up has come to the sequencer state `pc`, or has stopped before it. -/
def Reaches (b : List Event) (pc : LcuPc) (s : State) : Prop := OnCourse b s ∧ s.pcLcu = pc ∨ Stopped b s

theorem OnCourse.emit {b : List Event} {s : State} {e : Event} (h : OnCourse b s) (he : NoRegistration [e]) :
    OnCourse b (s.emit e) := by
  obtain ⟨h0, h1, h2, h3, es, h4, h5⟩ := h
  exact ⟨h0, h1, h2, h3, es ++ [e], h4.snoc he, by simp [State.emit, h5]⟩

theorem OnCourseTo.onCourse {b : List Event} {s : State} {e : Event} (h : OnCourseTo b e s) (he : NoRegistration [e]) :
    OnCourse b s := by
  obtain ⟨h0, h1, h2, h3, es, h4, h5⟩ := h
  exact ⟨h0, h1, h2, h3, es ++ [e], h4.snoc he, by simp [h5]⟩

theorem OnCourse.memWrite {b : List Event} {s : State} (a : RegAddr) (v : Byte) (h : OnCourse b s) :
    OnCourseOrFailed b (memWrite a v s) := by
  rw [memWrite_eq]
  obtain ⟨h0, h1, h2, h3, es, h4, h5⟩ := h
  cases hf : failOf (s.answer 0) with
  | none => exact ⟨h0, h1, h2, h3, es ++ [.wr a v none], h4.snoc (by simp [NoRegistration]), by simp [h5]⟩
  | some c => exact ⟨.wr a v (some c), .inr (.inl ⟨a, v, rfl⟩), h0, h1, h2, h3, es, h4, by simp [h5]⟩

theorem OnCourse.configure {b : List Event} {s : State} (h : OnCourse b s) : OnCourseOrFailed b (configure s) := by
  rw [configure_eq]
  obtain ⟨h0, h1, h2, h3, es, h4, h5⟩ := h
  cases hf : failOf (s.answer 0) with
  | none => exact ⟨h0, h1, h2, h3, es ++ [.cfg none], h4.snoc (by simp [NoRegistration]), by simp [h5]⟩
  | some c => exact ⟨.cfg (some c), .inl rfl, h0, h1, h2, h3, es, h4, by simp [h5]⟩

/-- After a read the read is the last event, whatever it returned. -/
theorem OnCourse.memRead {b : List Event} {s : State} (a : RegAddr) (h : OnCourse b s) :
    OnCourseTo b (.rd a (memRead a s).2) (memRead a s).1 := by
  rw [memRead_eq]
  obtain ⟨h0, h1, h2, h3, es, h4, h5⟩ := h
  exact ⟨h0, h1, h2, h3, es, h4, by simp [h5]⟩

theorem OnCourse.ensurePage {b : List Event} {s : State} (p : Page) (h : OnCourse b s) :
    OnCourseOrFailed b (ensurePage p s) := by
  unfold Machine.ensurePage
  split
  · exact h
  · have hw := h.memWrite Config.hw.pageReg (pageValue p)
    cases hm : Machine.memWrite Config.hw.pageReg (pageValue p) s with | mk t r =>
    rw [hm] at hw
    cases r <;> exact hw

theorem OnCourse.rmw {b : List Event} {s : State} (a : RegAddr) (clr set : Byte) (h : OnCourse b s) :
    OnCourseOrFailed b (rmw a clr set s) := by
  unfold Machine.rmw
  have hr := h.memRead a
  cases hm : Machine.memRead a s with | mk t r =>
  rw [hm] at hr
  cases r with
  | err c => exact ⟨_, .inr (.inr ⟨a, rfl⟩), hr⟩
  | ok v => exact OnCourse.memWrite (s := { t with tmp := some v }) a _ (hr.onCourse (by simp [NoRegistration]))

theorem OnCourse.delay {b : List Event} {s : State} (n : Nat) (h : OnCourse b s) : OnCourse b (delay n s) :=
  h.emit (by simp [NoRegistration])

/-- The next sequencer state, or the error of the primitive that failed. -/
theorem OnCourseOrFailed.reaches {b : List Event} {pc : LcuPc} {r : State × Option Cause} {k : State → State}
    (h : OnCourseOrFailed b r) (hk : ∀ t, OnCourse b t → Reaches b pc (k t)) : Reaches b pc (orBusError r k) := by
  obtain ⟨t, c⟩ := r
  cases c with
  | none => exact hk t h
  | some c =>
    obtain ⟨e, he, h0, h1, h2, _, h4⟩ := h
    exact .inr ⟨rfl, e, .busError c, ⟨h0, h1, h2, rfl, h4⟩, rfl, .inl ⟨c, rfl, he⟩⟩

/-- A step does its work when bring-up has come to it, and nothing when bring-up has stopped. -/
theorem Reaches.step {b : List Event} {pc next : LcuPc} {s t : State} (h : Reaches b pc s) (hu : pc ≠ .unwind)
    (ht : OnCourse b s → Reaches b next t) : Reaches b next (if s.pcLcu = pc then t else s) := by
  rcases h with ⟨h, hp⟩ | h
  · rw [if_pos hp]
    exact ht h
  · rw [if_neg (by rw [h.1]; exact hu.symm)]
    exact .inr h

theorem step1_reaches {b : List Event} {s : State} (h : Reaches b .step1 s) : Reaches b .step2 (step1 s) := by
  refine h.step (by simp) fun h => .inl ⟨?_, rfl⟩
  split
  · have h1 : OnCourse b (gpioActive s) :=
      OnCourse.emit (s := { s with chip := _, resetLine := _ }) h (by simp [NoRegistration])
    have h2 : OnCourse b (gpioInactive (delay Config.hw.tRstHold (gpioActive s))) :=
      OnCourse.emit (s := { delay Config.hw.tRstHold (gpioActive s) with resetLine := _ }) (h1.delay _)
        (by simp [NoRegistration])
    exact h2.delay _
  · exact h

theorem step2_reaches {b : List Event} {s : State} (h : Reaches b .step2 s) : Reaches b .step3 (step2 s) :=
  h.step (by simp) fun h => h.configure.reaches fun _ h => .inl ⟨h, rfl⟩

theorem step3_reaches {b : List Event} {s : State} (h : Reaches b .step3 s) : Reaches b .step4 (step3 s) := by
  refine h.step (by simp) fun h => ?_
  have hr := h.memRead Config.hw.idReg
  cases hm : memRead Config.hw.idReg s with | mk t r =>
  rw [hm] at hr
  cases r with
  | err c =>
    obtain ⟨h0, h1, h2, _, h4⟩ := hr
    exact .inr ⟨rfl, _, .busError c, ⟨h0, h1, h2, rfl, h4⟩, rfl, .inl ⟨c, rfl, .inr (.inr ⟨_, rfl⟩)⟩⟩
  | ok v =>
    simp only
    split
    · exact .inl ⟨hr.onCourse (by simp [NoRegistration]), rfl⟩
    · obtain ⟨h0, h1, h2, _, h4⟩ := hr
      exact .inr ⟨rfl, _, .unexpectedIdentity v, ⟨h0, h1, h2, rfl, h4⟩, rfl, .inr ⟨v, rfl, ‹_›, rfl⟩⟩

theorem step4_reaches {b : List Event} {s : State} (h : Reaches b .step4 s) : Reaches b .step5 (step4 s) :=
  h.step (by simp) fun h => (h.memWrite _ _).reaches fun t h =>
    (OnCourse.memWrite (s := { t with curPage := .page 0 }) _ _ h).reaches fun _ h => .inl ⟨h, rfl⟩

theorem step5_reaches {b : List Event} {s : State} (h : Reaches b .step5 s) : Reaches b .step6 (step5 s) :=
  h.step (by simp) fun h => (h.ensurePage _).reaches fun _ h => (h.rmw _ _ _).reaches fun _ h =>
    (h.rmw _ _ _).reaches fun _ h => .inl ⟨h, rfl⟩

theorem step6_reaches {b : List Event} {s : State} (h : Reaches b .step6 s) : Reaches b .step7 (step6 s) :=
  h.step (by simp) fun h => (h.ensurePage _).reaches fun _ h => (h.rmw _ _ _).reaches fun _ h => .inl ⟨h, rfl⟩

theorem step7_reaches {b : List Event} {s : State} (h : Reaches b .step7 s) : Reaches b .step8 (step7 s) :=
  h.step (by simp) fun h => ((h.delay _).ensurePage _).reaches fun _ h => (h.rmw _ _ _).reaches fun _ h =>
    ((h.delay _).ensurePage _).reaches fun _ h => (h.rmw _ _ _).reaches fun _ h =>
      .inl ⟨⟨by simp [release], h.2.1, h.2.2.1, rfl, h.2.2.2.2⟩, rfl⟩

/-- ATTACH taken in a state of the invariant comes to step 8 or stops before it. -/
theorem steps_reach {s : State} (w : Word) (rstp : Bool) (hi : s.Inv) (h : s.lcuReady = true) (hl : s.lc = .detached)
    (hlk : s.lock ≠ .bsq) :
    Reaches s.events .step8
      (step7 (step6 (step5 (step4 (step3 (step2 (step1 (beginAttach w rstp s)))))))) := by
  have hd := hi.2.2.1.1 hl
  have he := hi.2.2.2.1.1 hd.2
  have hp : s.regPhase = .start := hi.2.2.1.2.2.2.2.2.2.1 (by rw [hd.1]; simp)
  refine step7_reaches (step6_reaches (step5_reaches (step4_reaches (step3_reaches (step2_reaches
    (step1_reaches ?_))))))
  rw [beginAttach_ok s w rstp h hl hlk]
  exact .inl ⟨⟨by simp, he.1, he.2.1, hp, [], NoRegistration.nil, by simp⟩, rfl⟩

/-! ### The record of the concentrator's registers over ATTACH -/

/-- The registers that bring-up writes beside the page register (42 R186 to R188). -/
def BringUpWrites (a : RegAddr) : Prop := a = Config.hw.genReg ∨ a = Config.hw.clkReg ∨ a = Config.hw.rctrlReg

/-- Every register that bring-up does not write keeps its record or has none. -/
def RecordKept (s t : State) : Prop :=
  ∀ k, (∀ a, BringUpWrites a → ∀ p, k ≠ regKey p a) →
    t.chip.mem.read k = s.chip.mem.read k ∨ t.chip.mem.read k = none

theorem RecordKept.of_eq {s t : State} (h : t.chip = s.chip) : RecordKept s t := fun _ _ => .inl (by rw [h])

theorem RecordKept.trans {s t u : State} (h1 : RecordKept s t) (h2 : RecordKept t u) : RecordKept s u := fun k hk => by
  rcases h2 k hk with h | h
  · rw [h]
    exact h1 k hk
  · exact .inr h

theorem recordKept_memWrite (a : RegAddr) (v : Byte) (s : State) (h : a = Config.hw.pageReg ∨ BringUpWrites a) :
    RecordKept s (memWrite a v s).1 := fun k hk => by
  rw [memWrite_eq]
  by_cases ha : a = Config.hw.pageReg
  · simp only [Chip.write, if_pos ha, Chip.pageReg]
    split
    · exact .inr rfl
    · split <;> exact .inl rfl
  · exact .inl (Chip.read_write_other v _ ha (hk a (h.resolve_left ha)))

theorem recordKept_ensurePage (p : Page) (s : State) : RecordKept s (ensurePage p s).1 := by
  by_cases h : s.curPage = .page p
  · rw [ensurePage_same h]
    exact .of_eq rfl
  · rw [ensurePage_other h]
    exact recordKept_memWrite Config.hw.pageReg (pageValue p) s (.inl rfl)

theorem recordKept_rmw (a : RegAddr) (clr set : Byte) (s : State) (h : BringUpWrites a) :
    RecordKept s (rmw a clr set s).1 := by
  unfold rmw
  have hr : RecordKept s (memRead a s).1 := .of_eq (by rw [memRead_eq])
  cases hm : memRead a s with | mk t r =>
  rw [hm] at hr
  cases r with
  | err c => exact hr
  | ok v => exact hr.trans (.trans (t := { t with tmp := some v }) (.of_eq rfl) (recordKept_memWrite a _ _ (.inr h)))

theorem recordKept_or {s : State} {r : State × Option Cause} {k : State → State} (h : RecordKept s r.1)
    (hk : ∀ t, RecordKept t (k t)) : RecordKept s (orBusError r k) := by
  obtain ⟨t, c⟩ := r
  cases c with
  | none => exact h.trans (hk t)
  | some c => exact h.trans (.of_eq rfl)

theorem recordKept_if {s t : State} {c : Prop} [Decidable c] (h : RecordKept s t) : RecordKept s (if c then t else s) := by
  split
  · exact h
  · exact .of_eq rfl

theorem recordKept_step1 (s : State) : RecordKept s (step1 s) := by
  refine recordKept_if fun k _ => ?_
  split
  · exact .inr rfl
  · exact .inl rfl

theorem recordKept_step2 (s : State) : RecordKept s (step2 s) :=
  recordKept_if (recordKept_or (.of_eq (by rw [configure_eq])) fun _ => .of_eq rfl)

theorem recordKept_step3 (s : State) : RecordKept s (step3 s) := by
  refine recordKept_if ?_
  have hr : (memRead Config.hw.idReg s).1.chip = s.chip := by rw [memRead_eq]
  cases hm : memRead Config.hw.idReg s with | mk t r =>
  rw [hm] at hr
  cases r with
  | err c => exact .of_eq hr
  | ok v => simp only; split <;> exact .of_eq hr

theorem recordKept_step4 (s : State) : RecordKept s (step4 s) :=
  recordKept_if (recordKept_or (recordKept_memWrite _ _ _ (.inl rfl)) fun t =>
    .trans (t := { t with curPage := .page 0 }) (.of_eq rfl)
      (recordKept_or (recordKept_memWrite _ _ _ (.inl rfl)) fun _ => .of_eq rfl))

theorem recordKept_step5 (s : State) : RecordKept s (step5 s) :=
  recordKept_if (recordKept_or (recordKept_ensurePage _ _) fun _ =>
    recordKept_or (recordKept_rmw _ _ _ _ (.inl rfl)) fun _ =>
      recordKept_or (recordKept_rmw _ _ _ _ (.inr (.inl rfl))) fun _ => .of_eq rfl)

theorem recordKept_step6 (s : State) : RecordKept s (step6 s) :=
  recordKept_if (recordKept_or (recordKept_ensurePage _ _) fun _ =>
    recordKept_or (recordKept_rmw _ _ _ _ (.inr (.inr rfl))) fun _ => .of_eq rfl)

theorem recordKept_step7 (s : State) : RecordKept s (step7 s) :=
  recordKept_if (recordKept_or (.trans (t := delay Config.hw.tSettle s) (.of_eq rfl) (recordKept_ensurePage _ _)) fun _ =>
    recordKept_or (recordKept_rmw _ _ _ _ (.inr (.inr rfl))) fun u =>
      recordKept_or (.trans (t := delay Config.hw.tRpulse u) (.of_eq rfl) (recordKept_ensurePage _ _)) fun _ =>
        recordKept_or (recordKept_rmw _ _ _ _ (.inr (.inr rfl))) fun _ => .of_eq rfl)

theorem registerEp_chip (ep : Endpoint) (s : State) : (registerEp ep s).1.chip = s.chip := by rw [registerEp_eq]

theorem step8AnswerA_chip (s : State) : (step8AnswerA s).chip = s.chip := by
  unfold step8AnswerA
  split
  · have h := registerEp_chip .a s
    cases hm : registerEp .a s with | mk t r =>
    rw [hm] at h
    cases r <;> exact h
  · rfl

theorem step8AnswerB_chip (s : State) : (step8AnswerB s).chip = s.chip := by
  unfold step8AnswerB
  split
  · have h := registerEp_chip .b s
    cases hm : registerEp .b s with | mk t r =>
    rw [hm] at h
    cases r <;> exact h
  · rfl

/-- Step 8 makes no exchange on BUS: nothing known of the concentrator changes (42 R189, R190). -/
theorem step8_chip (s : State) : (step8 s).chip = s.chip := by
  have hA : ∀ s, (step8AskA s).chip = s.chip := fun s => by unfold step8AskA; split <;> rfl
  have hB : ∀ s, (step8AskB s).chip = s.chip := fun s => by unfold step8AskB; split <;> rfl
  have hF : ∀ s, (step8Finish s).chip = s.chip := fun s => by unfold step8Finish; split <;> rfl
  rw [step8, hF, step8AnswerB_chip, hB, step8AnswerA_chip, hA]

/-- The unwinding performs no event on BUS, CFG or GPIO (42 R193). -/
theorem unwind_chip (s : State) : (unwind s).chip = s.chip := by
  unfold unwind
  split
  · cases s.respLcu with
    | none => rfl
    | some w => simp [unregisterLive_eq, lcuRespond, State.emit, release, destroyInstance]
  · rfl

theorem beginAttach_chip (w : Word) (rstp : Bool) (s : State) : (beginAttach w rstp s).chip = s.chip := by
  unfold beginAttach attachAcquire
  dsimp only
  split
  · rfl
  · split <;> rfl

end Sys2Proof.Machine
end

