-- ==== Sys2Proof/Laws/Invariant.lean ====
section
/-! SUPPORT. Every operation, phase and step keeps the invariant `State.Inv`. -/

namespace Sys2Proof.Machine

/-- The invariant depends on the block's registers and on the form of the record only. -/

theorem inv_same {s t : State} (h : s.Inv) (hm : Memory.wf t.chip.mem) (h1 : t.curPage = s.curPage) (h2 : t.inst =
    s.inst) (h3 : t.lock = s.lock)
  (h4 : t.lc = s.lc) (h5 : t.epLiveA = s.epLiveA) (h6 : t.epLiveB = s.epLiveB) (h7 : t.pcLcu = s.pcLcu) (h8 : t.pcBsq
      = s.pcBsq)
  (h9 : t.reqBsq = s.reqBsq) (h10 : t.respBsq = s.respBsq) (h11 : t.respLcu = s.respLcu) (h12 : t.regPhase =
      s.regPhase) (h13 : t.bsqWaits = s.bsqWaits := by rfl) : t.Inv := by
  obtain ⟨a, b, c, d, e⟩ := h
  refine ⟨hm, ?_, ?_, ?_, ?_⟩
  · simp only [State.LockInv, h7, h3, h8]; exact b
  · simp only [State.LifecycleInv, h4, h7, h2, h5, h6, h12, h11]; exact c
  · simp only [State.InstanceInv, h2, h5, h6, h1, h3]; exact d
  · simp only [State.BsqInv, h8, h9, h10, h13]; exact e

theorem inv_memWrite {s : State} (a v) (h : s.Inv) : (memWrite a v s).1.Inv := by
  rw [memWrite_eq]; exact inv_same h (Chip.wf_write a v _ h.1) rfl rfl rfl rfl rfl rfl rfl rfl rfl rfl rfl rfl

theorem inv_memRead {s : State} (a) (h : s.Inv) : (memRead a s).1.Inv := by
  rw [memRead_eq]; exact inv_same h h.1 rfl rfl rfl rfl rfl rfl rfl rfl rfl rfl rfl rfl

theorem inv_emit {s : State} (e) (h : s.Inv) : (s.emit e).Inv := inv_same h h.1 rfl rfl rfl rfl rfl rfl rfl rfl rfl
    rfl rfl rfl

theorem inv_curPage {s : State} (p) (h : s.Inv) (hi : s.inst = true) : State.Inv { s with curPage := p } := by
  obtain ⟨a, b, c, d, e⟩ := h
  exact ⟨a, b, c, ⟨fun hh => by simp_all, d.2⟩, e⟩

theorem memWrite_inst (a v s) : (memWrite a v s).1.inst = s.inst := by rw [memWrite_eq]

theorem inv_ensurePage {s : State} (p) (h : s.Inv) (hi : s.inst = true) : (ensurePage p s).1.Inv := by
  by_cases hc : s.curPage = .page p
  · rw [ensurePage_same hc]; exact h
  · rw [ensurePage_other hc]; exact inv_curPage _ (inv_memWrite _ _ h) (by rw [memWrite_inst]; exact hi)

/-- BSQ in a critical section does not wait for the lock. -/

theorem no_wait {s : State} (h : s.Inv) (hl : s.pcBsq.holdsLock = true) : s.bsqWaits = false := by
  cases hw : s.bsqWaits
  · rfl
  · rw [h.2.2.2.2.2.1 hw] at hl; cases hl

/-- BSQ moves to another state of its critical section. -/

theorem inv_bsq_move {s : State} (pc' r) (h : s.Inv) (hl : s.pcBsq.holdsLock = true) (hp' : BsqPc.holdsLock pc' = true)
    (hq : (s.reqBsq.map (reqOnPath · pc')) = some true) (hr : pc' = .done ∨ pc' = .failed → r.isSome = true) :
    State.Inv { s with pcBsq := pc', respBsq := r } := by
  have hw := no_wait h hl
  obtain ⟨a, ⟨b1, b2, b3⟩, c, d, e⟩ := h
  refine ⟨a, ⟨b1, b2, ?_⟩, c, d, ⟨fun _ => hq, by simp [hw], hr⟩⟩
  simp only [hp', true_iff]; exact b3.1 hl

theorem inv_bsq_pc {s : State} (pc') (h : s.Inv) (hl : s.pcBsq.holdsLock = true) (hp' : BsqPc.holdsLock pc' = true)
    (hn : pc' ≠ .done ∧ pc' ≠ .failed) (hq : (s.reqBsq.map (reqOnPath · pc')) = some true) :
    State.Inv { s with pcBsq := pc' } :=
  inv_bsq_move pc' s.respBsq h hl hp' hq (by simp [hn])

/-- BSQ ends its critical section. -/

theorem inv_bsq_end {s : State} (r) (h : s.Inv) (hl : s.pcBsq.holdsLock = true) :
    State.Inv { s with pcBsq := .idle, lock := .free, respBsq := r } := by
  have hw := no_wait h hl
  obtain ⟨a, ⟨b1, b2, b3⟩, c, d, e⟩ := h
  have hlk := b3.1 hl
  refine ⟨a, ⟨?_, by simp, by simp [BsqPc.holdsLock]⟩, c, ⟨d.1, by simp⟩, ⟨by simp [hw], by simp, by simp⟩⟩
  intro hh; have := b1 hh; rw [hlk] at this; cases this

theorem ensurePage_keeps (p s) : (ensurePage p s).1.pcBsq = s.pcBsq ∧ (ensurePage p s).1.reqBsq = s.reqBsq ∧
    (ensurePage p s).1.inst = s.inst := by
  by_cases hc : s.curPage = .page p
  · rw [ensurePage_same hc]; simp
  · rw [ensurePage_other hc, memWrite_eq]; simp

theorem memWrite_keeps (a v s) : (memWrite a v s).1.pcBsq = s.pcBsq ∧ (memWrite a v s).1.reqBsq = s.reqBsq ∧
    (memWrite a v s).1.inst = s.inst ∧ (memWrite a v s).1.respBsq = s.respBsq := by
  rw [memWrite_eq]; simp

theorem memRead_keeps (a s) : (memRead a s).1.pcBsq = s.pcBsq ∧ (memRead a s).1.reqBsq = s.reqBsq ∧ (memRead a
    s).1.inst = s.inst := by
  rw [memRead_eq]; simp

/-- BSQ holds the word of command `i`. -/

def OnPath (i : Instr) (s : State) : Prop := ∃ w, s.reqBsq = some w ∧ decodeCommand w = .ok i

theorem OnPath.map {i s} (h : OnPath i s) (pc) : (s.reqBsq.map (reqOnPath · pc)) = some (bsqOnPath i pc) := by
  obtain ⟨w, h1, h2⟩ := h; simp [h1, reqOnPath, h2]

theorem inst_of {s : State} (h : s.Inv) (hl : s.pcBsq.holdsLock = true) : s.inst = true := h.2.2.2.1.2 (h.2.1.2.2.1
    hl)

theorem inv_fail {i} {s : State} (e) (h : s.Inv) (hl : s.pcBsq.holdsLock = true) (ho : OnPath i s) (hp : bsqOnPath i
    .failed = true) : (bsqFail e s).Inv ∧ OnPath i (bsqFail e s) :=
  ⟨inv_bsq_move (s := s) .failed _ h hl rfl (by rw [ho.map, hp]) (fun _ => rfl), ho⟩

theorem inv_done {i} {s : State} (e) (h : s.Inv) (hl : s.pcBsq.holdsLock = true) (ho : OnPath i s) (hp : bsqOnPath i
    .done = true) : (bsqDone e s).Inv ∧ OnPath i (bsqDone e s) :=
  ⟨inv_bsq_move (s := s) .done _ h hl rfl (by rw [ho.map, hp]) (fun _ => rfl), ho⟩

theorem inv_pageSwitching {i s} (next) (h : s.Inv) (ho : OnPath i s) (hp : bsqOnPath i .failed = true) (hp2 :
    bsqOnPath i next = true) (hn : next.holdsLock = true) (hn' : next ≠ .done ∧ next ≠ .failed) :
   (pageSwitching next s).Inv ∧ OnPath i (pageSwitching next s) := by
  unfold pageSwitching
  split
  · rename_i hpc
    have hl : s.pcBsq.holdsLock = true := by rw [hpc]; rfl
    have h1 := inv_ensurePage Config.hw.pageRadio h (inst_of h hl)
    have h2 := ensurePage_keeps Config.hw.pageRadio s
    have ho' : OnPath i (ensurePage Config.hw.pageRadio s).1 := by simpa [OnPath, h2.2.1] using ho
    split
    · rename_i t heq
      rw [heq] at h1 h2 ho'
      exact ⟨inv_bsq_pc _ h1 (by rw [h2.1]; exact hl) hn hn' (by rw [ho'.map, hp2]), ho'⟩
    · rename_i t c heq
      rw [heq] at h1 h2 ho'
      exact inv_fail _ h1 (by rw [h2.1]; exact hl) ho' hp
  · exact ⟨h, ho⟩

theorem inv_addressPhase {i s} (ep addr) (h : s.Inv) (ho : OnPath i s) (hp : bsqOnPath i .failed = true) (hp2 :
    bsqOnPath i .dataPhase = true) :
   (addressPhase ep addr s).Inv ∧ OnPath i (addressPhase ep addr s) := by
  unfold addressPhase
  split
  · rename_i hpc
    have hl : s.pcBsq.holdsLock = true := by rw [hpc]; rfl
    have h1 := inv_memWrite ep.addrReg addr h
    have h2 := memWrite_keeps ep.addrReg addr s
    have ho' : OnPath i (memWrite ep.addrReg addr s).1 := by simpa [OnPath, h2.2.1] using ho
    split
    · rename_i t heq
      rw [heq] at h1 h2 ho'
      exact ⟨inv_bsq_pc _ h1 (by rw [h2.1]; exact hl) rfl (by decide) (by rw [ho'.map, hp2]), ho'⟩
    · rename_i t c heq
      rw [heq] at h1 h2 ho'
      exact inv_fail _ h1 (by rw [h2.1]; exact hl) ho' hp
  · exact ⟨h, ho⟩

theorem inv_dataPhase {i s} (ep addr) (h : s.Inv) (ho : OnPath i s) (hp : bsqOnPath i .failed = true) (hp2 :
    bsqOnPath i .csPulse = true) :
   (dataPhase ep addr s).Inv ∧ OnPath i (dataPhase ep addr s) := by
  unfold dataPhase
  split
  · rename_i hpc
    have hl : s.pcBsq.holdsLock = true := by rw [hpc]; rfl
    have h1 := inv_memWrite ep.dataReg addr h
    have h2 := memWrite_keeps ep.dataReg addr s
    have ho' : OnPath i (memWrite ep.dataReg addr s).1 := by simpa [OnPath, h2.2.1] using ho
    split
    · rename_i t heq
      rw [heq] at h1 h2 ho'
      exact ⟨inv_bsq_pc _ h1 (by rw [h2.1]; exact hl) rfl (by decide) (by rw [ho'.map, hp2]), ho'⟩
    · rename_i t c heq
      rw [heq] at h1 h2 ho'
      exact inv_fail _ h1 (by rw [h2.1]; exact hl) ho' hp
  · exact ⟨h, ho⟩

theorem csPulse_shape (ep : Endpoint) (s : State) :
    ∃ c v d a n b e,
      csPulse ep s
        = { s with chip := c, csv := v, deg := d, answers := a, drawn := n, busReply := b, events := e }
      ∧ (Memory.wf s.chip.mem → Memory.wf c.mem) := by
  rw [csPulse_eq]
  exact ⟨_, _, _, _, _, _, _, rfl, fun h => Chip.wf_write _ _ _ (Chip.wf_write _ _ _ h)⟩

theorem inv_csPhase {i s} (ep) (h : s.Inv) (ho : OnPath i s) (hp : bsqOnPath i .done = true) :
   (csPhase ep s).Inv ∧ OnPath i (csPhase ep s) := by
  unfold csPhase
  split
  · rename_i hpc
    have hl : s.pcBsq.holdsLock = true := by rw [hpc]; rfl
    obtain ⟨c, v, d, a, n, b, e, heq, hwf⟩ := csPulse_shape ep s
    rw [heq]
    exact inv_done _ (inv_same h (hwf h.1) rfl rfl rfl rfl rfl rfl rfl rfl rfl rfl rfl rfl) hl ho hp
  · exact ⟨h, ho⟩

theorem inv_readBack {i s} (ep len) (h : s.Inv) (ho : OnPath i s) (hp : bsqOnPath i .done = true) (hp' : bsqOnPath i
    .failed = true) :
   (readBack ep len s).Inv ∧ OnPath i (readBack ep len s) := by
  unfold readBack
  split
  · rename_i hpc
    have hl : s.pcBsq.holdsLock = true := by rw [hpc]; rfl
    have h1 := inv_memRead ep.rbReg h
    have h2 := memRead_keeps ep.rbReg s
    have ho' : OnPath i (memRead ep.rbReg s).1 := by simpa [OnPath, h2.2.1] using ho
    split
    · rename_i t c heq
      rw [heq] at h1 h2 ho'
      exact inv_done _ h1 (by rw [h2.1]; exact hl) ho' hp
    · rename_i t c heq
      rw [heq] at h1 h2 ho'
      exact inv_fail _ h1 (by rw [h2.1]; exact hl) ho' hp'
  · exact ⟨h, ho⟩

theorem inv_bsqReply {s : State} (h : s.Inv) : (bsqReply s).Inv := by
  unfold bsqReply
  split
  · rename_i hpc
    split
    · exact inv_emit _ (inv_bsq_end (s := s) s.respBsq h (by rcases hpc with h | h <;> rw [h] <;> rfl))
    · exact h
  · exact h

theorem inv_finish {r : State × Option Cause} (h : r.1.Inv) (hl : r.1.pcBsq.holdsLock = true) : (finishPageCmd r).Inv
    := by
  obtain ⟨t, c⟩ := r
  cases c
  · exact inv_emit _ (inv_bsq_end (s := t) _ h hl)
  · exact inv_emit _ (inv_bsq_end (s := t) _ h hl)

theorem inv_pageOp {s : State} (p) (h : s.Inv) : (pageOp p s).Inv := by
  unfold pageOp
  split
  · rename_i hpc
    have hl : s.pcBsq.holdsLock = true := by rw [hpc]; rfl
    exact inv_finish (inv_ensurePage p h (inst_of h hl)) (by rw [(ensurePage_keeps p s).1]; exact hl)
  · exact h

theorem inv_srstOp {s : State} (h : s.Inv) : (srstOp s).Inv := by
  unfold srstOp
  split
  · rename_i hpc
    have hl : s.pcBsq.holdsLock = true := by rw [hpc]; rfl
    exact inv_finish (inv_memWrite _ _ h) (by unfold softReset; rw [(memWrite_keeps _ _ s).1]; exact hl)
  · exact h

/-- The word of a BSQ command is handed over. -/

theorem inv_bsqTake {s : State} (w) (h : s.Inv) (hf : s.bsqFree = true) (hq : reqOnPath w .idle = true) :
    (bsqTake w s).Inv := by
  have hi := (by simpa [State.bsqFree] using hf : s.pcBsq = .idle ∧ s.bsqWaits = false)
  obtain ⟨a, b, c, d, e⟩ := h
  exact ⟨a, b, c, d, by simp [hi, hq], by simp [hi], by simp [hi]⟩

/-- The lock is not held by LCU, so bring-up is in no critical section. -/

theorem not_lcu_hold {s : State} (h : s.Inv) (hl : s.lock ≠ .lcu) : s.pcLcu.holdsLock = false := by
  cases hh : s.pcLcu.holdsLock
  · rfl
  · exact absurd (h.2.1.1 hh) hl

/-- BSQ acquires the lock when there is an instance. -/

theorem inv_acquire {s : State} (pc) (h : s.Inv) (hl : s.lock ≠ .lcu) (hi : s.inst = true)
    (hp : BsqPc.holdsLock pc = true) (hn : pc ≠ .done ∧ pc ≠ .failed)
    (hq : (s.reqBsq.map (reqOnPath · pc)) = some true) : State.Inv { bsqAcquire s with pcBsq := pc } := by
  have hk := not_lcu_hold h hl
  obtain ⟨a, ⟨b1, b2, b3⟩, c, d, e⟩ := h
  exact ⟨a, ⟨by simp [hk], by simp, by simp [hp]⟩, c, ⟨by simp [hi], by simp [hi]⟩, fun _ => hq, by simp, by simp [hn]⟩

/-- BSQ is refused after it acquired the lock. -/

theorem inv_raise {s : State} (e) (h : s.Inv) (hl : s.lock ≠ .lcu) : (bsqRaise e (bsqAcquire s)).Inv := by
  have hk := not_lcu_hold h hl
  obtain ⟨a, ⟨b1, b2, b3⟩, c, d, e⟩ := h
  refine inv_emit _ ⟨a, ⟨?_, ?_, ?_⟩, c, ⟨d.1, ?_⟩, ⟨?_, ?_, ?_⟩⟩
  all_goals simp [release, bsqAcquire, hk, BsqPc.holdsLock]

theorem inv_enterPageCmd {s : State} (pc) (h : s.Inv) (hp : BsqPc.holdsLock pc = true) (hn : pc ≠ .done ∧ pc ≠ .failed)
    (hq : s.bsqWaits = true → (s.reqBsq.map (reqOnPath · pc)) = some true) : (enterPageCmd pc s).Inv := by
  by_cases hw : s.bsqWaits = true ∧ s.lock ≠ .lcu
  · rw [enterPageCmd_open pc hw.1 hw.2]
    split
    · rename_i hi; exact inv_acquire pc h hw.2 hi hp hn (hq hw.1)
    · exact inv_raise _ h hw.2
  · rw [enterPageCmd_wait pc (by cases hh : s.bsqWaits <;> simp_all)]; exact h

theorem inv_enterXfer {i} {s : State} (ep len) (h : s.Inv) (ho : OnPath i s)
    (hq : lenValid len = true → bsqOnPath i .pageSwitching = true) :
    (enterXfer ep len s).Inv ∧ OnPath i (enterXfer ep len s)
      ∧ (s.pcBsq = .idle → (enterXfer ep len s).pcBsq ≠ .idle → lenValid len = true) := by
  by_cases hw : s.bsqWaits = true ∧ s.lock ≠ .lcu
  · rw [enterXfer_open ep len hw.1 hw.2]
    split
    · exact ⟨inv_raise _ h hw.2, ho, fun _ hh => absurd rfl hh⟩
    · rename_i hlive
      split
      · exact ⟨inv_raise _ h hw.2, ho, fun _ hh => absurd rfl hh⟩
      · rename_i hlen
        have hlen : lenValid len = true := by simpa using hlen
        have hi : s.inst = true := by
          cases hh : s.inst
          · have := h.2.2.2.1.1 hh
            cases ep <;> simp [State.live] at hlive <;> simp_all
          · rfl
        exact ⟨inv_acquire _ h hw.2 hi rfl (by decide) (by rw [ho.map, hq hlen]), ho, fun _ _ => hlen⟩
  · rw [enterXfer_wait ep len (by cases hh : s.bsqWaits <;> simp_all)]
    exact ⟨h, ho, fun h1 h2 => absurd h1 h2⟩

theorem inv_beginPageCmd {s : State} (pc w) (h : s.Inv) (hf : s.bsqFree = true) (hp : BsqPc.holdsLock pc = true)
    (hn : pc ≠ .done ∧ pc ≠ .failed) (hq0 : reqOnPath w .idle = true) (hq : reqOnPath w pc = true) :
    (beginPageCmd pc w s).Inv :=
  inv_enterPageCmd pc (inv_bsqTake w h hf hq0) hp hn (fun _ => by simp [hq])

theorem inv_beginXfer {i} {s : State} (w ep len) (h : s.Inv) (hf : s.bsqFree = true) (hw : decodeCommand w = .ok i)
    (hq0 : bsqOnPath i .idle = true) (hq : lenValid len = true → bsqOnPath i .pageSwitching = true) :
    (beginXfer w ep len s).Inv ∧ OnPath i (beginXfer w ep len s)
      ∧ ((beginXfer w ep len s).pcBsq ≠ .idle → lenValid len = true) := by
  have hi := (by simpa [State.bsqFree] using hf : s.pcBsq = .idle ∧ s.bsqWaits = false)
  have := inv_enterXfer ep len (inv_bsqTake w h hf (by simp [reqOnPath, hw, hq0])) ⟨w, rfl, hw⟩ hq
  exact ⟨this.1, this.2.1, this.2.2 hi.1⟩

/-! ### LCU -/

/-- The invariant after a change of LCU's part of the state. -/

theorem inv_lcu {s t : State} (h : s.Inv) (hl : t.LifecycleInv) (hm : Memory.wf t.chip.mem)
  (hb : t.pcBsq = s.pcBsq) (hq : t.reqBsq = s.reqBsq) (hrb : t.respBsq = s.respBsq)
  (hk : (t.pcLcu.holdsLock = true → t.lock = .lcu) ∧ (t.lock = .lcu → t.pcLcu.holdsLock = true ∨ t.pcLcu = .unwind))
  (hlk : t.lock = .bsq ↔ s.lock = .bsq)
  (hI : t.InstanceInv) (hw : t.bsqWaits = s.bsqWaits := by rfl) : t.Inv := by
  obtain ⟨a, ⟨b1, b2, b3⟩, c, d, e⟩ := h
  refine ⟨hm, ⟨hk.1, hk.2, ?_⟩, hl, hI, ?_⟩
  · rw [hb, b3, hlk]
  · simp only [State.BsqInv, hb, hq, hrb, hw]; exact e

/-- An error taken inside bring-up. -/

theorem inv_lcuRaise {s : State} (e) (h : s.Inv) (hl : s.pcLcu.holdsLock = true ∨ (s.pcLcu = .step8 ∧ s.lock ≠ .lcu))
    : (lcuRaise e s).Inv := by
  have hk := h.2.1
  have hc := h.2.2.1
  refine inv_lcu h ?_ h.1 rfl rfl rfl ⟨?_, ?_⟩ Iff.rfl h.2.2.2.1
  · obtain ⟨c1, c2, c3, c4, c5, c6, c7, c8, c9⟩ := hc
    have hlc : s.lc = .attaching := by
      cases hh : s.lc
      · have := (c1 hh).1; rw [this] at hl; simp [LcuPc.holdsLock] at hl
      · rfl
      · have := (c2 hh).1; rcases this with h | h <;> rw [h] at hl <;> simp [LcuPc.holdsLock] at hl
    simp [lcuRaise, State.LifecycleInv, hlc]
  · simp [lcuRaise, LcuPc.holdsLock]
  · simp [lcuRaise]

theorem lcu_hold_facts {s : State} (h : s.Inv) (hl : s.pcLcu.holdsLock = true) : s.lock = .lcu ∧ s.lc = .attaching :=
    by
  refine ⟨h.2.1.1 hl, ?_⟩
  obtain ⟨c1, c2, c3, c4, c5, c6, c7, c8, c9⟩ := h.2.2.1
  cases hh : s.lc
  · have := (c1 hh).1; rw [this] at hl; simp [LcuPc.holdsLock] at hl
  · rfl
  · have := (c2 hh).1; rcases this with h | h <;> rw [h] at hl <;> simp [LcuPc.holdsLock] at hl

theorem inv_attachAcquire {s : State} (h : s.Inv) : (attachAcquire s).Inv := by
  unfold attachAcquire
  split
  · rename_i hh
    obtain ⟨h1, h2, h3⟩ := hh
    have h3 : s.lock ≠ .bsq := by simpa [State.lockOpenToLcu] using h3
    obtain ⟨c1, c2, c3, c4, c5, c6, c7, c8, c9⟩ := h.2.2.1
    have hi : s.inst = false := c5 ⟨h2, .inl h1⟩
    have := c7 (by rw [h1]; decide)
    have hd := h.2.2.2.1
    refine inv_lcu h ?_ h.1 rfl rfl rfl ⟨?_, ?_⟩ ?_ ?_
    · simp [State.LifecycleInv, h2, hi, this]
    · simp
    · simp [LcuPc.holdsLock]
    · simp [h3]
    · exact ⟨hd.1, by simp⟩
  · exact h

theorem inv_reqLcu {s : State} (w) (h : s.Inv) : State.Inv { s with reqLcu := w } := inv_same h h.1 rfl rfl rfl rfl
    rfl rfl rfl rfl rfl rfl rfl rfl

theorem inv_lcuRespond {s : State} (w) (h : s.Inv) : (lcuRespond w s).Inv := by
  refine inv_emit _ (inv_lcu h ?_ h.1 rfl rfl rfl ⟨h.2.1.1, h.2.1.2.1⟩ Iff.rfl h.2.2.2.1)
  obtain ⟨c1, c2, c3, c4, c5, c6, c7, c8, c9⟩ := h.2.2.1
  exact ⟨c1, c2, c3, c4, c5, c6, c7, c8, fun _ => rfl⟩

theorem inv_beginAttach {s : State} (w r) (h : s.Inv) (hr : s.lcuReady = true) : (beginAttach w r s).Inv := by
  have hp := (by simpa [State.lcuReady, State.lcuBusy] using hr : s.pcLcu = .idle ∧ ¬ s.lc = .attaching)
  have h' := inv_reqLcu (some w) h
  unfold beginAttach
  simp only
  split
  · exact inv_lcuRespond _ h'
  · rename_i hd
    have hd : s.lc = .detached := by simpa using hd
    obtain ⟨c1, c2, c3, c4, c5, c6, c7, c8, c9⟩ := h.2.2.1
    refine inv_attachAcquire (inv_lcu (s := s) h ?_ h.1 rfl rfl rfl ⟨h.2.1.1, h.2.1.2.1⟩ Iff.rfl h.2.2.2.1)
    have := c7 (by rw [hp.1]; decide)
    simp [State.LifecycleInv, hp.1, this, (c1 hd).2]

/-- LCU moves to another step in which bring-up holds the lock. -/

theorem hold_step {s : State} (pc') (h : s.Inv) (hl : s.pcLcu.holdsLock = true) (hp : LcuPc.holdsLock pc' = true)
   (h1 : pc' = .step1 ∨ pc' = .step2 ∨ pc' = .step3 → s.inst = false)
   (h2 : pc' = .step4 ∨ pc' = .step5 ∨ pc' = .step6 ∨ pc' = .step7 → s.inst = true ∧ s.epLiveA = false ∧ s.epLiveB =
       false) : State.Inv { s with pcLcu := pc' } := by
  obtain ⟨hk, hlc⟩ := lcu_hold_facts h hl
  obtain ⟨c1, c2, c3, c4, c5, c6, c7, c8, c9⟩ := h.2.2.1
  have c7' := c7 (by intro hh; rw [hh] at hl; simp [LcuPc.holdsLock] at hl)
  refine inv_lcu (s := s) h ?_ h.1 rfl rfl rfl ⟨fun _ => hk, fun _ => .inl hp⟩ Iff.rfl h.2.2.2.1
  refine ⟨by simp [hlc], by simp [hlc], by simp [hlc], ?_, ?_, h2, fun _ => c7', ?_, ?_⟩
  · rintro _ rfl; simp [LcuPc.holdsLock] at hp
  · rintro ⟨_, h | h⟩
    · simp only at h; subst h; simp [LcuPc.holdsLock] at hp
    · exact h1 h
  · rintro rfl; simp [LcuPc.holdsLock] at hp
  · rintro rfl; simp [LcuPc.holdsLock] at hp

theorem inv_step1 {s : State} (h : s.Inv) : (step1 s).Inv := by
  by_cases hp : s.pcLcu = .step1
  · rw [step1_eq s hp]
    have hi := h.2.2.1.2.2.2.2.1 ⟨(lcu_hold_facts h (by rw [hp]; rfl)).2, by simp [hp]⟩
    have hwf : Memory.wf (if s.rstp = true then Chip.unknown else s.chip).mem := by
      split
      · simp [Chip.unknown, Memory.wf]
      · exact h.1
    have h1 := hold_step .step2 h (by rw [hp]; rfl) rfl (fun _ => hi) (by simp)
    exact inv_same h1 hwf rfl rfl rfl rfl rfl rfl rfl rfl rfl rfl rfl rfl
  · unfold step1; rw [if_neg hp]; exact h

theorem inv_step2 {s : State} (h : s.Inv) : (step2 s).Inv := by
  unfold step2
  split
  · rename_i hp
    have hi := h.2.2.1.2.2.2.2.1 ⟨(lcu_hold_facts h (by rw [hp]; rfl)).2, by simp [hp]⟩
    have h1 : (configure s).1.Inv := by
      rw [configure_eq]
      exact inv_same h h.1 rfl rfl rfl rfl rfl rfl rfl rfl rfl rfl rfl rfl
    have h2 : (configure s).1.pcLcu = .step2 ∧ (configure s).1.inst = false := by rw [configure_eq]; exact ⟨hp, hi⟩
    unfold orBusError
    split
    · rename_i t heq
      rw [heq] at h1 h2
      exact hold_step (s := t) .step3 h1 (by rw [h2.1]; rfl) rfl (fun _ => h2.2) (by simp)
    · rename_i t c heq
      rw [heq] at h1 h2
      exact inv_lcuRaise _ h1 (.inl (by rw [h2.1]; rfl))
  · exact h

theorem inv_step3 {s : State} (h : s.Inv) : (step3 s).Inv := by
  unfold step3
  split
  · rename_i hp
    have hi := h.2.2.1.2.2.2.2.1 ⟨(lcu_hold_facts h (by rw [hp]; rfl)).2, by simp [hp]⟩
    rw [memRead_eq]
    split
    · rename_i t c heq
      have heq := (Prod.mk.inj heq).1
      subst heq
      exact inv_lcuRaise _ (inv_same (s := s) h h.1 rfl rfl rfl rfl rfl rfl rfl rfl rfl rfl rfl rfl) (.inl (by simp
          [hp, LcuPc.holdsLock]))
    · rename_i t v heq
      have heq := (Prod.mk.inj heq).1
      have ht : t.Inv := by rw [← heq]; exact inv_same h h.1 rfl rfl rfl rfl rfl rfl rfl rfl rfl rfl rfl rfl
      have htp : t.pcLcu = .step3 := by rw [← heq]; exact hp
      have hti : t.inst = false := by rw [← heq]; exact hi
      split
      · obtain ⟨hk, hlc⟩ := lcu_hold_facts ht (by rw [htp]; rfl)
        have hr := ht.2.2.1.2.2.2.2.2.2.1 (by rw [htp]; decide)
        have hd := ht.2.2.2.1.1 hti
        refine inv_lcu (s := t) ht ?_ ht.1 rfl rfl rfl ⟨fun _ => hk, fun _ => .inl rfl⟩ Iff.rfl ⟨by simp, by simp⟩
        simp [State.LifecycleInv, hlc, hr, hd]
      · exact inv_lcuRaise _ (inv_same ht ht.1 rfl rfl rfl rfl rfl rfl rfl rfl rfl rfl rfl rfl) (.inl (by simp [htp,
          LcuPc.holdsLock]))
  · exact h

/-- LCU is in the step `pc` past the identity check, in a state of the invariant. -/

def PastIdentity (pc : LcuPc) (s : State) : Prop := s.Inv ∧ s.pcLcu = pc ∧ s.inst = true ∧ s.epLiveA = false ∧
    s.epLiveB = false

theorem PastIdentity.same {pc} {s t : State} (h : PastIdentity pc s) (ht : t.Inv) (h1 : t.pcLcu = s.pcLcu) (h2 :
    t.inst = s.inst) (h3 : t.epLiveA = s.epLiveA) (h4 : t.epLiveB = s.epLiveB) : PastIdentity pc t :=
  ⟨ht, by rw [h1]; exact h.2.1, by rw [h2]; exact h.2.2.1, by rw [h3]; exact h.2.2.2.1, by rw [h4]; exact h.2.2.2.2⟩

theorem PastIdentity.mw {pc s} (a v) (h : PastIdentity pc s) : PastIdentity pc (memWrite a v s).1 := by
  refine h.same (inv_memWrite _ _ h.1) ?_ ?_ ?_ ?_ <;> rw [memWrite_eq]

theorem PastIdentity.mr {pc s} (a) (h : PastIdentity pc s) : PastIdentity pc (memRead a s).1 := by
  refine h.same (inv_memRead _ h.1) ?_ ?_ ?_ ?_ <;> rw [memRead_eq]

theorem PastIdentity.cp {pc s} (p) (h : PastIdentity pc s) : PastIdentity pc { s with curPage := p } := h.same
    (inv_curPage _ h.1 h.2.2.1) rfl rfl rfl rfl

theorem PastIdentity.ep {pc s} (p) (h : PastIdentity pc s) : PastIdentity pc (ensurePage p s).1 := by
  refine h.same (inv_ensurePage _ h.1 h.2.2.1) ?_ ?_ ?_ ?_
  all_goals
    by_cases hc : s.curPage = .page p
    · rw [ensurePage_same hc]
    · rw [ensurePage_other hc, memWrite_eq]

theorem PastIdentity.tmp {pc s} (p) (h : PastIdentity pc s) : PastIdentity pc { s with tmp := p } := h.same (inv_same
    h.1 h.1.1 rfl rfl rfl rfl rfl rfl rfl rfl rfl rfl rfl rfl) rfl rfl rfl rfl

theorem PastIdentity.delay {pc s} (n) (h : PastIdentity pc s) : PastIdentity pc (delay n s) := h.same (inv_same h.1
    h.1.1 rfl rfl rfl rfl rfl rfl rfl rfl rfl rfl rfl rfl) rfl rfl rfl rfl

theorem PastIdentity.rmw {pc s} (a c d) (h : PastIdentity pc s) : PastIdentity pc (rmw a c d s).1 := by
  unfold Sys2Proof.Machine.rmw
  have := h.mr a
  split
  · rename_i t e heq; rw [heq] at this; exact this
  · rename_i t e heq; rw [heq] at this; exact (this.tmp _).mw _ _

theorem PastIdentity.or {pc} {r : State × Option Cause} {k} (hp : pc.holdsLock = true) (h : PastIdentity pc r.1) (hk
    : ∀ t, PastIdentity pc t → (k t).Inv) : (orBusError r k).Inv := by
  obtain ⟨t, c⟩ := r
  cases c
  · exact hk t h
  · exact inv_lcuRaise _ h.1 (.inl (by have := h.2.1; simp only at this; rw [this]; exact hp))

theorem PastIdentity.next {pc s} (pc') (hp : pc.holdsLock = true) (h : PastIdentity pc s) (hp' : LcuPc.holdsLock pc'
    = true) (h1 : ¬ (pc' = .step1 ∨ pc' = .step2 ∨ pc' = .step3)) : State.Inv { s with pcLcu := pc' } :=
  hold_step _ h.1 (by rw [h.2.1]; exact hp) hp' (fun h => absurd h h1) (fun _ => ⟨h.2.2.1, h.2.2.2.1, h.2.2.2.2⟩)

theorem PastIdentity.of {s : State} (pc) (h : s.Inv) (hp : s.pcLcu = pc) (h1 : pc = .step4 ∨ pc = .step5 ∨ pc =
    .step6 ∨ pc = .step7) : PastIdentity pc s :=
  ⟨h, hp, h.2.2.1.2.2.2.2.2.1 (by rw [hp]; exact h1)⟩

theorem inv_step4 {s : State} (h : s.Inv) : (step4 s).Inv := by
  unfold step4
  split
  · rename_i hp
    refine PastIdentity.or rfl ((PastIdentity.of .step4 h hp (by simp)).mw _ _) fun t ht => PastIdentity.or rfl
        ((ht.cp _).mw _ _) fun u hu => hu.next _ rfl rfl (by simp)
  · exact h

theorem inv_step5 {s : State} (h : s.Inv) : (step5 s).Inv := by
  unfold step5
  split
  · rename_i hp
    exact PastIdentity.or rfl ((PastIdentity.of .step5 h hp (by simp)).ep _) fun t ht => PastIdentity.or rfl (ht.rmw
        _ _ _) fun u hu => PastIdentity.or rfl (hu.rmw _ _ _) fun u hu => hu.next _ rfl rfl (by simp)
  · exact h

theorem inv_step6 {s : State} (h : s.Inv) : (step6 s).Inv := by
  unfold step6
  split
  · rename_i hp
    exact PastIdentity.or rfl ((PastIdentity.of .step6 h hp (by simp)).ep _) fun t ht => PastIdentity.or rfl (ht.rmw
        _ _ _) fun u hu => hu.next _ rfl rfl (by simp)
  · exact h

theorem inv_step7 {s : State} (h : s.Inv) : (step7 s).Inv := by
  unfold step7
  split
  · rename_i hp
    refine PastIdentity.or rfl (((PastIdentity.of .step7 h hp (by simp)).delay _).ep _) fun t ht => PastIdentity.or
        rfl (ht.rmw _ _ _) fun u hu => PastIdentity.or rfl ((hu.delay _).ep _) fun v hv => PastIdentity.or rfl
        (hv.rmw _ _ _) fun z hz => ?_
    obtain ⟨hz, hzp, hzi, hA, hB⟩ := hz
    obtain ⟨hk, hlc⟩ := lcu_hold_facts hz (by rw [hzp]; rfl)
    refine inv_lcu (s := z) hz ?_ hz.1 rfl rfl rfl ⟨?_, ?_⟩ ?_ ⟨hz.2.2.2.1.1, ?_⟩
    · simp [State.LifecycleInv, release, hlc, hzi, hA, hB]
    · simp [LcuPc.holdsLock, release]
    · simp [release]
    · simp [release, hk]
    · simp [release]
  · exact h

theorem step8_facts {s : State} (h : s.Inv) (hp : s.pcLcu = .step8) : s.lc = .attaching ∧ s.inst = true ∧ s.lock ≠
    .lcu ∧ s.epLiveA = (s.regPhase != .start) ∧ s.epLiveB = (s.regPhase == .waitB || s.regPhase == .gotB) := by
  obtain ⟨c1, c2, c3, c4, c5, c6, c7, c8, c9⟩ := h.2.2.1
  refine ⟨?_, (c8 hp).1, ?_, (c8 hp).2⟩
  · cases hh : s.lc
    · have := (c1 hh).1; rw [hp] at this; cases this
    · rfl
    · have := (c2 hh).1; rw [hp] at this; rcases this with h | h <;> cases h
  · intro hh
    have := h.2.1.2.1 hh
    rw [hp] at this; simp [LcuPc.holdsLock] at this

theorem inv_step8 {s : State} (h : s.Inv) : (step8AskA s).Inv ∧ (step8AnswerA s).Inv ∧ (step8AskB s).Inv ∧
    (step8AnswerB s).Inv ∧ (step8Finish s).Inv := by
  have hd := h.2.2.2.1
  refine ⟨?_, ?_, ?_, ?_, ?_⟩
  · unfold step8AskA
    split
    · rename_i hh; obtain ⟨hp, hr⟩ := hh
      obtain ⟨f1, f2, f3, f4, f5⟩ := step8_facts h hp
      simp only [hr] at f4 f5
      refine inv_lcu (s := s) h ?_ h.1 rfl rfl rfl ⟨h.2.1.1, h.2.1.2.1⟩ Iff.rfl ⟨by simp [f2], by simp [f2]⟩
      simp [State.LifecycleInv, f1, f2, hp, f5]
      decide
    · exact h
  · unfold step8AnswerA
    split
    · rename_i hh; obtain ⟨hp, hr⟩ := hh
      obtain ⟨f1, f2, f3, f4, f5⟩ := step8_facts h hp
      simp only [hr] at f4 f5
      rw [registerEp_eq]
      cases failOf (s.answer 0)
      · refine inv_lcu (s := s) h ?_ h.1 rfl rfl rfl ⟨h.2.1.1, h.2.1.2.1⟩ Iff.rfl ⟨by simp [f2], by simp [f2]⟩
        simp [State.LifecycleInv, f1, f2, hp, f4, f5]
        decide
      · refine inv_lcu (s := s) h ?_ h.1 rfl rfl rfl ⟨by simp [lcuRaise, LcuPc.holdsLock], by simp [lcuRaise]⟩
          Iff.rfl ⟨by simp [lcuRaise, f2], by simp [lcuRaise, f2]⟩
        simp [lcuRaise, State.LifecycleInv, f1]
    · exact h
  · unfold step8AskB
    split
    · rename_i hh; obtain ⟨hp, hr⟩ := hh
      obtain ⟨f1, f2, f3, f4, f5⟩ := step8_facts h hp
      simp only [hr] at f4 f5
      refine inv_lcu (s := s) h ?_ h.1 rfl rfl rfl ⟨h.2.1.1, h.2.1.2.1⟩ Iff.rfl ⟨by simp [f2], by simp [f2]⟩
      simp [State.LifecycleInv, f1, f2, hp, f4]
      decide
    · exact h
  · unfold step8AnswerB
    split
    · rename_i hh; obtain ⟨hp, hr⟩ := hh
      obtain ⟨f1, f2, f3, f4, f5⟩ := step8_facts h hp
      simp only [hr] at f4 f5
      rw [registerEp_eq]
      cases failOf (s.answer 0)
      · refine inv_lcu (s := s) h ?_ h.1 rfl rfl rfl ⟨h.2.1.1, h.2.1.2.1⟩ Iff.rfl ⟨by simp [f2], by simp [f2]⟩
        simp [State.LifecycleInv, f1, f2, hp, f4, f5]
        decide
      · refine inv_lcu (s := s) h ?_ h.1 rfl rfl rfl ⟨by simp [lcuRaise, LcuPc.holdsLock], by simp [lcuRaise]⟩
          Iff.rfl ⟨by simp [lcuRaise, f2], by simp [lcuRaise, f2]⟩
        simp [lcuRaise, State.LifecycleInv, f1]
    · exact h
  · unfold step8Finish
    split
    · rename_i hh; obtain ⟨hp, hr⟩ := hh
      obtain ⟨f1, f2, f3, f4, f5⟩ := step8_facts h hp
      simp only [hr] at f4 f5
      refine inv_lcuRespond _ (inv_lcu (s := s) h ?_ h.1 rfl rfl rfl ⟨by simp [LcuPc.holdsLock], by simp [f3]⟩
          Iff.rfl ⟨by simp [f2], by simp [f2]⟩)
      simp [State.LifecycleInv, f2, f4, f5]
    · exact h

theorem inv_unwind {s : State} (h : s.Inv) : (unwind s).Inv := by
  unfold unwind
  split
  · rename_i hh
    obtain ⟨hp, hk⟩ := hh
    have hk : s.lock ≠ .bsq := by simpa [State.lockOpenToLcu] using hk
    split
    · simp only [unregisterLive_eq]
      refine inv_lcuRespond _ (inv_lcu (s := s) h ?_ h.1 rfl rfl rfl ⟨by simp [LcuPc.holdsLock], by simp [release]⟩
          ?_ ⟨?_, ?_⟩)
      · have := h.2.2.1.2.2.2.2.2.2.1 (by rw [hp]; decide)
        simp [State.LifecycleInv, destroyInstance, release, this]
      · simp [release, hk]
      · simp [release, destroyInstance]
      · simp [release, destroyInstance]
    · exact h
  · exact h

theorem detach_facts {s : State} (h : s.Inv) (hp : s.pcLcu = .detach) : s.lc = .running ∧ s.lock ≠ .lcu ∧ s.regPhase
    = .start := by
  obtain ⟨c1, c2, c3, c4, c5, c6, c7, c8, c9⟩ := h.2.2.1
  refine ⟨?_, ?_, c7 (by rw [hp]; decide)⟩
  · cases hh : s.lc
    · have := (c1 hh).1; rw [hp] at this; cases this
    · exact absurd hp (c4 hh)
    · rfl
  · intro hh
    have := h.2.1.2.1 hh
    rw [hp] at this; simp [LcuPc.holdsLock] at this

theorem inv_beginDetach {s : State} (w) (h : s.Inv) (hr : s.lcuReady = true) : (beginDetach w s).Inv := by
  have hp := (by simpa [State.lcuReady, State.lcuBusy] using hr : s.pcLcu = .idle ∧ ¬ s.lc = .attaching)
  have h' := inv_reqLcu (some w) h
  unfold beginDetach
  simp only
  split
  · exact inv_lcuRespond _ h'
  · rename_i hd
    have hl : s.lc = .running := by cases hh : s.lc <;> simp_all
    obtain ⟨c1, c2, c3, c4, c5, c6, c7, c8, c9⟩ := h.2.2.1
    have hk : s.lock ≠ .lcu := by
      intro hh
      have := h.2.1.2.1 hh
      rw [hp.1] at this; simp [LcuPc.holdsLock] at this
    refine inv_lcu (s := s) h ?_ h.1 rfl rfl rfl ⟨by simp [LcuPc.holdsLock], by simp [hk]⟩ Iff.rfl h.2.2.2.1
    have := c7 (by rw [hp.1]; decide)
    simp [State.LifecycleInv, hl, (c2 hl).2, this]

theorem inv_detach1 {s : State} (ep) (h : s.Inv) : (if s.pcLcu = .detach then unregisterLive ep s else s).Inv := by
  split
  · rename_i hp
    obtain ⟨f1, f2, f3⟩ := detach_facts h hp
    obtain ⟨c1, c2, c3, c4, c5, c6, c7, c8, c9⟩ := h.2.2.1
    rw [unregisterLive_eq]
    refine inv_lcu (s := s) h ?_ h.1 rfl rfl rfl ⟨h.2.1.1, h.2.1.2.1⟩ Iff.rfl ⟨?_, h.2.2.2.1.2⟩
    · simp [State.LifecycleInv, hp, f1, f3, (c2 f1).2]
    · simp [(c2 f1).2]
  · exact h

theorem inv_detachEnd {s : State} (h : s.Inv) : (detachEnd s).Inv := by
  unfold detachEnd
  split
  · rename_i hh
    obtain ⟨hp, hA, hB, hk⟩ := hh
    have hk : s.lock ≠ .bsq := by simpa [State.lockOpenToLcu] using hk
    obtain ⟨f1, f2, f3⟩ := detach_facts h hp
    refine inv_lcuRespond _ (inv_lcu (s := s) h ?_ h.1 rfl rfl rfl ⟨by simp [LcuPc.holdsLock], by simp [release]⟩ ?_
        ⟨?_, ?_⟩)
    · simp [State.LifecycleInv, destroyInstance, release, f3]
    · simp [release, hk]
    · simp [release, destroyInstance, hA, hB]
    · simp [release, destroyInstance]
  · exact h

end Sys2Proof.Machine
end

