-- ==== Sys2Proof/Laws/Moves.lean ====
section
/-! SUPPORT. The operations neither read nor write the choices to come (`turns`), and what a step does on each choice:
what a command served whole and the same command in moves have in common rests on these. -/

namespace Sys2Proof.Machine

/-- `f` neither reads nor writes the choices to come. -/

def Commutes (f : State → State) : Prop := ∀ s ts, f (State.withTurns ts s) = State.withTurns ts (f s)

/-- The same of an operation that also answers something. -/

def CommutesPair {α} (f : State → State × α) : Prop := ∀ s ts, f (State.withTurns ts s) = (State.withTurns ts (f
    s).1, (f s).2)

theorem commutes_memWrite (a v) : CommutesPair (memWrite a v) := by intro s ts; simp [memWrite_eq, State.answer,
    State.withTurns]

theorem commutes_memRead (a) : CommutesPair (memRead a) := by intro s ts; simp [memRead_eq, State.answer,
    State.withTurns]

theorem commutes_ensurePage (p) : CommutesPair (ensurePage p) := by
  intro s ts
  by_cases h : s.curPage = .page p
  · rw [ensurePage_same h, ensurePage_same (by exact h)]
  · rw [ensurePage_other h, ensurePage_other (by exact h), memWrite_eq, memWrite_eq]; rfl

theorem commutes_rmw (a c d) : CommutesPair (rmw a c d) := by
  intro s ts
  unfold rmw
  rw [commutes_memRead a s ts]
  cases h : memRead a s with | mk t r =>
  cases r with
  | err c => rfl
  | ok v =>
    simp only
    exact commutes_memWrite a _ { t with tmp := some v } ts

theorem commutes_configure : CommutesPair configure := by intro s ts; simp [configure_eq, State.answer,
    State.withTurns]

theorem commutes_registerEp (ep) : CommutesPair (registerEp ep) := by intro s ts; simp [registerEp_eq, State.answer,
    State.withTurns]

theorem commutes_delay (n) : Commutes (delay n) := fun _ _ => rfl

theorem commutes_orBusError {f : State → State × Option Cause} {k : State → State} (hf : CommutesPair f) (hk :
    Commutes k) : Commutes (fun s => orBusError (f s) k) := by
  intro s ts
  simp only
  rw [hf]
  cases h : f s with | mk t c =>
  cases c with
  | none => exact hk t ts
  | some c => rfl

theorem commutes_if {c : State → Prop} [DecidablePred c] {f g : State → State} (hc : ∀ s ts, c (State.withTurns ts s)
    ↔ c s) (hf : Commutes f) (hg : Commutes g) : Commutes (fun s => if c s then f s else g s) := by
  intro s ts
  by_cases h : c s
  · simp only [if_pos h, if_pos ((hc s ts).2 h)]; exact hf s ts
  · simp only [if_neg h, if_neg (fun hh => h ((hc s ts).1 hh))]; exact hg s ts

theorem commutes_id : Commutes id := fun _ _ => rfl

/-! ### Bring-up and teardown -/

theorem commutes_step1 : Commutes step1 := by
  refine commutes_if (c := fun s => s.pcLcu = .step1) (fun _ _ => Iff.rfl) ?_ commutes_id
  intro s ts
  by_cases h : s.rstp = true
  · have h' : (State.withTurns ts s).rstp = true := h
    simp only [h, h']; rfl
  · have h' : ¬ (State.withTurns ts s).rstp = true := h
    simp only [h, h']; rfl

theorem commutes_step2 : Commutes step2 := commutes_if (c := fun s => s.pcLcu = .step2) (fun _ _ => Iff.rfl)
    (commutes_orBusError commutes_configure fun _ _ => rfl) commutes_id

theorem commutes_step3 : Commutes step3 := by
  refine commutes_if (c := fun s => s.pcLcu = .step3) (fun _ _ => Iff.rfl) ?_ commutes_id
  intro s ts
  simp only
  rw [commutes_memRead]
  cases h : memRead Config.hw.idReg s with | mk t r =>
  cases r with
  | err c => rfl
  | ok v => simp only; split <;> rfl

theorem commutesPair_withCurPage {α} {p} {f : State → State × α} (hf : CommutesPair f) : CommutesPair (fun s => f { s
    with curPage := p }) := fun s ts => hf { s with curPage := p } ts

theorem commutes_step4 : Commutes step4 := commutes_if (c := fun s => s.pcLcu = .step4) (fun _ _ => Iff.rfl)
    (commutes_orBusError (commutes_memWrite _ _) (commutes_orBusError (commutesPair_withCurPage (commutes_memWrite _
    _)) fun _ _ => rfl)) commutes_id

theorem commutes_step5 : Commutes step5 := commutes_if (c := fun s => s.pcLcu = .step5) (fun _ _ => Iff.rfl)
    (commutes_orBusError (commutes_ensurePage _) (commutes_orBusError (commutes_rmw _ _ _) (commutes_orBusError
    (commutes_rmw _ _ _) fun _ _ => rfl))) commutes_id

theorem commutes_step6 : Commutes step6 := commutes_if (c := fun s => s.pcLcu = .step6) (fun _ _ => Iff.rfl)
    (commutes_orBusError (commutes_ensurePage _) (commutes_orBusError (commutes_rmw _ _ _) fun _ _ => rfl))
    commutes_id

theorem commutesPair_delay {α} {n} {f : State → State × α} (hf : CommutesPair f) : CommutesPair (fun s => f (delay n
    s)) := fun s ts => hf (delay n s) ts

theorem commutes_step7 : Commutes step7 := commutes_if (c := fun s => s.pcLcu = .step7) (fun _ _ => Iff.rfl)
    (commutes_orBusError (commutesPair_delay (commutes_ensurePage _)) (commutes_orBusError (commutes_rmw _ _ _)
    (commutes_orBusError (commutesPair_delay (commutes_ensurePage _)) (commutes_orBusError (commutes_rmw _ _ _) fun _
    _ => rfl)))) commutes_id

theorem commutes_step8AskA : Commutes step8AskA := commutes_if (c := fun s => s.pcLcu = .step8 ∧ s.regPhase = .start)
    (fun _ _ => Iff.rfl) (fun _ _ => rfl) commutes_id

theorem commutes_step8AskB : Commutes step8AskB := commutes_if (c := fun s => s.pcLcu = .step8 ∧ s.regPhase = .gotA)
    (fun _ _ => Iff.rfl) (fun _ _ => rfl) commutes_id

theorem commutes_step8Finish : Commutes step8Finish := commutes_if (c := fun s => s.pcLcu = .step8 ∧ s.regPhase =
    .gotB) (fun _ _ => Iff.rfl) (fun _ _ => rfl) commutes_id

theorem commutes_step8AnswerA : Commutes step8AnswerA := by
  refine commutes_if (c := fun s => s.pcLcu = .step8 ∧ s.regPhase = .waitA) (fun _ _ => Iff.rfl) ?_ commutes_id
  intro s ts
  simp only
  rw [commutes_registerEp]
  cases h : registerEp .a s with | mk t r => cases r <;> rfl

theorem commutes_step8AnswerB : Commutes step8AnswerB := by
  refine commutes_if (c := fun s => s.pcLcu = .step8 ∧ s.regPhase = .waitB) (fun _ _ => Iff.rfl) ?_ commutes_id
  intro s ts
  simp only
  rw [commutes_registerEp]
  cases h : registerEp .b s with | mk t r => cases r <;> rfl

theorem commutes_unregisterLive (ep) : Commutes (unregisterLive ep) := by
  intro s ts
  rw [unregisterLive_eq, unregisterLive_eq]; cases ep <;> rfl

theorem commutes_unwind : Commutes unwind := by
  refine commutes_if (c := fun s => s.pcLcu = .unwind ∧ s.lockOpenToLcu = true) (fun _ _ => Iff.rfl) ?_ commutes_id
  intro s ts
  cases h : s.respLcu with
  | none => simp [State.withTurns, h]
  | some w =>
    simp [State.withTurns, h, unregisterLive_eq, lcuRespond, State.emit, release, destroyInstance, State.live]
    rfl

theorem commutes_detachB : Commutes detachB := commutes_if (c := fun s => s.pcLcu = .detach) (fun _ _ => Iff.rfl)
    (commutes_unregisterLive _) commutes_id

theorem commutes_detachA : Commutes detachA := commutes_if (c := fun s => s.pcLcu = .detach) (fun _ _ => Iff.rfl)
    (commutes_unregisterLive _) commutes_id

theorem commutes_detachEnd : Commutes detachEnd := commutes_if (c := fun s => s.pcLcu = .detach ∧ s.epLiveA = false ∧
    s.epLiveB = false ∧ s.lockOpenToLcu = true) (fun _ _ => Iff.rfl) (fun _ _ => rfl) commutes_id

theorem commutes_attachAcquire : Commutes attachAcquire := commutes_if (c := fun s => s.pcLcu = .idle ∧ s.lc =
    .attaching ∧ s.lockOpenToLcu = true) (fun _ _ => Iff.rfl) (fun _ _ => rfl) commutes_id

theorem commutes_finishPageCmd {f : State → State × Option Cause} (hf : CommutesPair f) : Commutes (fun s =>
    finishPageCmd (f s)) := by
  intro s ts
  simp only
  rw [hf]
  cases h : f s with | mk t c => cases c <;> rfl

/-! ### The page commands and the transfers -/

theorem commutes_pageOp (p) : Commutes (pageOp p) := commutes_if (c := fun s => s.pcBsq = .pageOp) (fun _ _ =>
    Iff.rfl) (commutes_finishPageCmd (commutes_ensurePage p)) commutes_id

theorem commutes_srstOp : Commutes srstOp := commutes_if (c := fun s => s.pcBsq = .srstOp) (fun _ _ => Iff.rfl)
    (commutes_finishPageCmd (commutes_memWrite _ _)) commutes_id

theorem commutes_pageSwitching (n) : Commutes (pageSwitching n) := by
  intro s ts
  unfold pageSwitching
  by_cases h : s.pcBsq = .pageSwitching
  · rw [if_pos h, if_pos (by exact h), commutes_ensurePage]
    cases hh : (ensurePage _ s) with | mk t c => cases c <;> rfl
  · rw [if_neg h, if_neg (by exact h)]

theorem commutes_addressPhase (ep v) : Commutes (addressPhase ep v) := by
  intro s ts
  unfold addressPhase
  by_cases h : s.pcBsq = .addressPhase
  · rw [if_pos h, if_pos (by exact h), commutes_memWrite]
    cases hh : (memWrite _ _ s) with | mk t c => cases c <;> rfl
  · rw [if_neg h, if_neg (by exact h)]

theorem commutes_dataPhase (ep v) : Commutes (dataPhase ep v) := by
  intro s ts
  unfold dataPhase
  by_cases h : s.pcBsq = .dataPhase
  · rw [if_pos h, if_pos (by exact h), commutes_memWrite]
    cases hh : (memWrite _ _ s) with | mk t c => cases c <;> rfl
  · rw [if_neg h, if_neg (by exact h)]

theorem commutes_csPhase (ep) : Commutes (csPhase ep) := by
  intro s ts
  unfold csPhase
  by_cases h : s.pcBsq = .csPulse
  · rw [if_pos h, if_pos (by exact h), csPulse_eq, csPulse_eq]; rfl
  · rw [if_neg h, if_neg (by exact h)]

theorem commutes_readBack (ep l) : Commutes (readBack ep l) := by
  intro s ts
  unfold readBack
  by_cases h : s.pcBsq = .readBack
  · rw [if_pos h, if_pos (by exact h), commutes_memRead]
    cases hh : (memRead _ s) with | mk t c => cases c <;> rfl
  · rw [if_neg h, if_neg (by exact h)]

theorem commutes_enterPageCmd (pc) : Commutes (enterPageCmd pc) := by
  intro s ts
  unfold enterPageCmd
  by_cases h : s.bsqWaits ∧ s.lockOpenToBsq
  · rw [if_pos h, if_pos (by exact h)]
    cases hi : s.inst <;> simp [State.withTurns, bsqAcquire, bsqRaise, bsqRespond, release, State.emit, hi]
  · rw [if_neg h, if_neg (by exact h)]

theorem commutes_enterXfer (ep l) : Commutes (enterXfer ep l) := by
  intro s ts
  unfold enterXfer
  by_cases h : s.bsqWaits ∧ s.lockOpenToBsq
  · rw [if_pos h, if_pos (by exact h)]
    have hl : (bsqAcquire (State.withTurns ts s)).live ep = (bsqAcquire s).live ep := by cases ep <;> rfl
    simp only [hl]
    split
    · rfl
    · split <;> rfl
  · rw [if_neg h, if_neg (by exact h)]

theorem commutes_bsqReply : Commutes bsqReply := by
  intro s ts
  cases hr : s.respBsq <;> by_cases h : s.pcBsq = .done ∨ s.pcBsq = .failed <;>
    simp [bsqReply, State.withTurns, h, hr, State.emit, release]

/-! ### Steps given by the choices -/

theorem runSteps_succ (n : Nat) (s t : State) (h : step s = .next t) : runSteps (n + 1) s = runSteps n t := by
  simp [runSteps, h]

theorem step_bsq (ts : List Turn) (s : State) (hb : s.busPort = []) :
    step (s.withTurns (.bsq :: ts)) = bsqMove (s.withTurns ts) := by
  simp [step, fetch, State.withTurns, hb, takeTurn]

theorem step_lcu (ts : List Turn) (s : State) (hb : s.busPort = []) :
    step (s.withTurns (.lcu :: ts)) = lcuMove (s.withTurns ts) := by
  simp [step, fetch, State.withTurns, hb, takeTurn]

theorem step_start (k : Nat) (ts : List Turn) (s : State) (hb : s.busPort = []) :
    step (s.withTurns (.start k :: ts)) = start k (s.withTurns ts) := by
  simp [step, fetch, State.withTurns, hb, takeTurn]

end Sys2Proof.Machine
end

