-- ==== Sys2Proof/Laws/PerInstr.lean ====
section
/-! SUPPORT. The family `Spelled`: the code of every instruction has the fixed bits of its row of
spec/opcode_table.json (30 R81, R99). -/

namespace Sys2Proof.Laws.Spelled

/-- The operation field and the reserved field of a command word. -/
def fixedBits (w : Word) : BitVec 4 × BitVec 4 := (fieldOp w, fieldRsv w)

/-- A command's word has its row's `OP` and `RSV` zero; a frame has its row's length and its row's top bit. -/
def Statement : Instr → Prop
  | .ensurePage p x => fixedBits (encodeWord (.ensurePage p x)) = (1, 0)
  | .softReset x => fixedBits (encodeWord (.softReset x)) = (2, 0)
  | .xferWr ep len dv addr data x => fixedBits (encodeWord (.xferWr ep len dv addr data x)) = (3, 0)
  | .xferRd ep len x => fixedBits (encodeWord (.xferRd ep len x)) = (4, 0)
  | .attach rstp x => fixedBits (encodeWord (.attach rstp x)) = (5, 0)
  | .detach x => fixedBits (encodeWord (.detach x)) = (6, 0)
  | .busWr a v => (encodeFrame (.busWr a v)).map (fun b => b.msb) = [true, v.msb]
  | .busRd a => (encodeFrame (.busRd a)).map (fun b => b.msb) = [false]

theorem ensurePage (p : Page) (x : BitVec 22) : Statement (.ensurePage p x) := by
  simp (disch := omega) only [Statement, fixedBits, fieldOp, fieldRsv, encodeWord, extract_or, extract_place_same,
    extract_place_disjoint]
  simp

theorem softReset (x : BitVec 24) : Statement (.softReset x) := by
  simp (disch := omega) only [Statement, fixedBits, fieldOp, fieldRsv, encodeWord, extract_or, extract_place_same,
    extract_place_disjoint]
  simp

theorem xferWr (ep : Endpoint) (len : Nat) (dv : Bool) (addr data : Byte) (x : BitVec 2) :
    Statement (.xferWr ep len dv addr data x) := by
  simp (disch := omega) only [Statement, fixedBits, fieldOp, fieldRsv, encodeWord, extract_or, extract_place_same,
    extract_place_disjoint]
  simp

theorem xferRd (ep : Endpoint) (len : Nat) (x : BitVec 19) : Statement (.xferRd ep len x) := by
  simp (disch := omega) only [Statement, fixedBits, fieldOp, fieldRsv, encodeWord, extract_or, extract_place_same,
    extract_place_disjoint]
  simp

theorem attach (rstp : Bool) (x : BitVec 23) : Statement (.attach rstp x) := by
  simp (disch := omega) only [Statement, fixedBits, fieldOp, fieldRsv, encodeWord, extract_or, extract_place_same,
    extract_place_disjoint]
  simp

theorem detach (x : BitVec 24) : Statement (.detach x) := by
  simp (disch := omega) only [Statement, fixedBits, fieldOp, fieldRsv, encodeWord, extract_or, extract_place_same,
    extract_place_disjoint]
  simp

theorem busWr (a : RegAddr) (v : Byte) : Statement (.busWr a v) := by
  simp [Statement, encodeFrame, frameByte_msb, Config.hw]

theorem busRd (a : RegAddr) : Statement (.busRd a) := by
  simp [Statement, encodeFrame, frameByte_msb, Config.hw]

end Sys2Proof.Laws.Spelled
end

