-- ==== Sys2Proof/Tests/Slice0.lean ====
section
/-! SUPPORT. Tests: ill-formed instructions are refused; words written out in the spec decode as it says; the worked
vectors of 95_test_vectors.md, one step each; and, for each obligation with hypotheses, a state and operands that meet
them all. -/

namespace Sys2Proof.Tests

open Sys2Proof Sys2Proof.Machine

/-! ### Well-formedness: 30 R81, R85 (a 4-bit `LEN`) -/

theorem test_wf_xferWr_len16 : (Instr.xferWr .a 16 true 0 0 0).wellFormed = false := by decide
theorem test_wf_xferRd_len16 : (Instr.xferRd .b 16 0).wellFormed = false := by decide
theorem test_wf_xferWr_len15 : (Instr.xferWr .a 15 true 0 0 0).wellFormed = true := by decide
theorem test_wf_xferRd_len15 : (Instr.xferRd .b 15 0).wellFormed = true := by decide

/-! ### Parameters: 00 R8 -/

/-- Every parameter of 00 R8 has the value of that table (`ARB` is open, and `RSTP` is an operand of ATTACH). -/
theorem test_config_r8 :
    Config.hw = {
      dataBits := 8, regAddrBits := 7, nPages := 4, nEndpoints := 2, causeBits := 8, pageMask := 0x3, pageReg := 0,
      softResetBit := 7, idReg := 1, idExpected := 0x67, genReg := 16, genBit := 3, clkReg := 17, clkBit := 0,
      pageCtrl := 0, pageRadio := 2, baseA := 33, baseB := 38, offData := 0, offRb := 1, offAddr := 2, offCs := 4,
      csBit := 0, rctrlReg := 43, aEnBit := 0, bEnBit := 1, rrstBit := 2, lenMin := 1, lenMax := 3, tRstHold := 100,
      tRstRelease := 100, tSettle := 500, tRpulse := 5, writeFlag := true } := by decide

/-! ### Decode: 95 section 2.1 -/

theorem test_decode_e2_illegal_op : decode (.command 0x70000000) = .error (.illegalOp 7) := by decide
theorem test_decode_e4_rsv : decode (.command 0x10040000) = .error (.reservedBits 1) := by decide
theorem test_decode_e5_rsv : decode (.command 0x603C0000) = .error (.reservedBits 0xF) := by decide
theorem test_decode_e6_ensurePage : decode (.command 0x10020000) = .ok (.ensurePage 2 0) := by decide
theorem test_decode_e8_softReset : decode (.command 0x20000000) = .ok (.softReset 0) := by decide
theorem test_decode_e9_xferWr : decode (.command 0x32400510) = .ok (.xferWr .a 2 true 0x05 0x10 0) := by decide
theorem test_decode_e11_xferWr_no_data : decode (.command 0x31008500) = .ok (.xferWr .a 1 false 0x85 0 0) := by decide
theorem test_decode_e12_xferRd : decode (.command 0x43800000) = .ok (.xferRd .b 3 0) := by decide
theorem test_decode_e14_attach : decode (.command 0x50010000) = .ok (.attach true 0) := by decide
/-- E15: bit 17 is ignored; it is kept as bit 16 of the ignored bits. -/
theorem test_decode_e15_attach : decode (.command 0x50020000) = .ok (.attach false 0x10000) := by decide
theorem test_decode_e16_detach : decode (.command 0x60000000) = .ok (.detach 0) := by decide
/-- 95 section 2.2, F2 and F9. -/
theorem test_decode_f2_busWr : decode (.frame [0x80, 0x80]) = .ok (.busWr 0 0x80) := by decide
theorem test_decode_f9_busRd : decode (.frame [0x22]) = .ok (.busRd 34) := by decide
/-- 30 R103: a write frame without its second byte. -/
theorem test_decode_half_frame : decode (.frame [0x80]) = .error .incompleteWrite := by decide

/-! ### States -/

/-- RUN of 95: the state after a successful ATTACH (70 R265), with the answers to come. -/
def attached (l : List Answer) : State :=
  { State.reset with
    curPage := .page 2, inst := true, lc := .running, epLiveA := true, epLiveB := true,
    chip := { pages := .only 2, mem := [] }, answers := l }

/-- The block after reset, with the answers to come. -/
def fresh (l : List Answer) : State := { State.reset with answers := l }

/-- The state after a step that does not stop. -/
def after : Result → State
  | .next t => t
  | .fault _ => State.reset
  | .refused _ => State.reset

/-- The state after the command `w` was sent to `s`. -/
def sent (w : Nat) (s : State) : State := after (step (s.withFetchWord 32 w))

/-- What the block showed for the command `w`. -/
def shown (w : Nat) (s : State) : List Event := (sent w s).events

/-! ### Commands: 95 sections 2.3 to 2.5 -/

/-- PM3. -/
theorem test_ensurePage_pm3 :
    shown 0x10010000 (attached [.err 0x05]) = [.wr 0 0x01 (some 0x05), .resp 0x00000501]
      ∧ (sent 0x10010000 (attached [.err 0x05])).curPage = .page 2 := by decide
/-- PM2. -/
theorem test_ensurePage_pm2 : shown 0x10020000 (attached []) = [.resp 0] := by decide
/-- PM6. -/
theorem test_softReset_pm6 :
    shown 0x20000000 (attached [.ok 0]) = [.wr 0 0x80 none, .resp 0]
      ∧ (sent 0x20000000 (attached [.ok 0])).curPage = .page 2 := by decide
/-- PM7. -/
theorem test_softReset_pm7 :
    shown 0x20000000 (attached [.err 0x11]) = [.wr 0 0x80 (some 0x11), .resp 0x00001101] := by decide
/-- T2: radio B, `DV = 0`. -/
theorem test_xferWr_t2 :
    shown 0x33801200 (attached [.ok 0, .ok 0, .ok 0xF0, .ok 0, .ok 0])
      = [.wr 40 0x12 none, .wr 38 0x00 none, .rd 42 (.ok 0xF0), .wr 42 0xF1 none, .wr 42 0xF0 none, .resp 0] := by
  decide
/-- T8: the assert write of the CS pulse fails. -/
theorem test_xferWr_t8 :
    shown 0x32400510 (attached [.ok 0, .ok 0, .ok 0x40, .err 0x04, .ok 0])
      = [.wr 35 0x05 none, .wr 33 0x10 none, .rd 37 (.ok 0x40), .wr 37 0x41 (some 0x04), .log .csAssertFailed,
        .wr 37 0x40 none, .resp 0x00000080] := by decide
/-- T15. -/
theorem test_xferRd_t15 :
    shown 0x43800000 (attached [.ok 0x5A]) = [.rd 39 (.ok 0x5A), .resp 0x025A0000] := by decide
/-- T19: the page switch fails. -/
theorem test_xferRd_t19 :
    shown 0x41000000 { attached [.err 0x02] with curPage := .page 1 }
      = [.wr 0 0x02 (some 0x02), .resp 0x00000204] := by decide
/-- L3: a wrong identity. -/
theorem test_attach_l3 :
    shown 0x50010000 (fresh [.ok 0, .ok 0x66])
      = [.gpio .active, .delay 100, .gpio .inactive, .delay 100, .cfg none, .rd 1 (.ok 0x66), .resp 0x00660003] := by
  decide
/-- L9: the registration of A fails; nothing is unregistered. -/
theorem test_attach_l9 :
    ((shown 0x50000000 (fresh [.ok 0, .ok 0x67, .ok 0, .ok 0, .ok 0xFF, .ok 0, .ok 0xFF, .ok 0, .ok 0, .ok 0x00, .ok 0,
      .ok 0x03, .ok 0, .ok 0x07, .ok 0, .err 0x20])).drop 16)
      = [.wr 43 0x03 none, .reg .a (some 0x20), .resp 0x00002005] := by decide
/-- L10: the registration of B fails. -/
theorem test_attach_l10 :
    ((shown 0x50000000 (fresh [.ok 0, .ok 0x67, .ok 0, .ok 0, .ok 0xFF, .ok 0, .ok 0xFF, .ok 0, .ok 0, .ok 0x00, .ok 0,
      .ok 0x03, .ok 0, .ok 0x07, .ok 0, .ok 0, .err 0x21])).drop 15)
      = [.rd 43 (.ok 0x07), .wr 43 0x03 none, .reg .a none, .reg .b (some 0x21), .unreg .a, .resp 0x00002105] := by
  decide
/-- L12. -/
theorem test_detach_l12 : shown 0x60000000 (attached []) = [.unreg .b, .unreg .a, .resp 0] := by decide
/-- L13. -/
theorem test_detach_l13 : shown 0x60000000 (fresh []) = [.resp 0] := by decide
/-- F1. -/
theorem test_busWr_f1 :
    (after (step ((fresh [.ok 0]).withFetchWord 16 0x8002))).events = [.wr 0 0x02 none] := by decide
/-- F3, with 0x67 received. -/
theorem test_busRd_f3 :
    (after (step ((fresh [.ok 0x67]).withFetchWord 8 0x01))).busReply = some (.byte 0x67) := by decide

/-! ### Witnesses: the hypotheses of each obligation are met together -/

/-- A command that waits on CMD, with the choice of serving it. -/
def waiting (w : Word) (s : State) : State := { s with cmd := [w], turns := [.serve 0] }

/-- BSQ holds the lock in the address phase of XFER_WR A, 2, 0x05, 0x10. -/
def inAddressPhase (l : List Answer) : State :=
  { attached l with lock := .bsq, pcBsq := .addressPhase, reqBsq := some 0x32400510 }

/-- LCU holds the lock in step 2 of an ATTACH. -/
def inStep2 (l : List Answer) : State :=
  { fresh l with lock := .lcu, lc := .attaching, pcLcu := .step2, reqLcu := some 0x50000000 }

/-- BSQ waits in `Acquire` with XFER_WR A, 2, 0x05, 0x10 while LCU is in step 2. -/
def waitsForLock (l : List Answer) : State := { inStep2 l with reqBsq := some 0x32400510, bsqWaits := true }

/-- The address write of that transfer failed; its response is not sent yet. -/
def inFailed : State := { inAddressPhase [] with pcBsq := .failed, respBsq := some 0x00000714 }

/-- The answers of a bring-up that succeeds (95, L1), then those of the two registrations. -/
def goodBringUp (l : List Answer) : List Answer :=
  [.ok 0, .ok 103, .ok 0, .ok 0, .ok 0xFF, .ok 0, .ok 0xFF, .ok 0, .ok 0, .ok 0x00, .ok 0, .ok 0x03, .ok 0, .ok 0x07,
    .ok 0] ++ l

/-- The registration of B failed while BSQ may still be in the address phase of a transfer on A: LCU is in `L_UNWIND`. -/
def inUnwind (lock : Lock) : State :=
  { inAddressPhase [] with
    lock := lock, pcBsq := if lock = .bsq then .addressPhase else .idle,
    lc := .attaching, epLiveB := false, pcLcu := .unwind, reqLcu := some 0x50000000, respLcu := some 0x00002105 }

theorem attached_inv (l : List Answer) : (attached l).Inv := by
  refine ⟨Memory.wf_nil, ?_, ?_, ?_, ?_⟩ <;>
    simp [attached, State.LockInv, State.LifecycleInv, State.InstanceInv, State.BsqInv, LcuPc.holdsLock,
      BsqPc.holdsLock, State.reset]

theorem fresh_inv (l : List Answer) : (fresh l).Inv := by
  refine ⟨Memory.wf_nil, ?_, ?_, ?_, ?_⟩ <;>
    simp [fresh, State.LockInv, State.LifecycleInv, State.InstanceInv, State.BsqInv, LcuPc.holdsLock,
      BsqPc.holdsLock, State.reset]

theorem inAddressPhase_inv (l : List Answer) : (inAddressPhase l).Inv := by
  have h : reqOnPath 0x32400510 .addressPhase = true := by decide
  refine ⟨Memory.wf_nil, ?_, ?_, ?_, ?_⟩ <;>
    simp [inAddressPhase, attached, State.LockInv, State.LifecycleInv, State.InstanceInv, State.BsqInv, LcuPc.holdsLock,
      BsqPc.holdsLock, State.reset]
  exact h

theorem waitsForLock_inv (l : List Answer) : (waitsForLock l).Inv := by
  have h : reqOnPath 0x32400510 .idle = true := by decide
  refine ⟨Memory.wf_nil, ?_, ?_, ?_, ?_⟩ <;>
    simp [waitsForLock, inStep2, fresh, State.LockInv, State.LifecycleInv, State.InstanceInv, State.BsqInv,
      LcuPc.holdsLock, BsqPc.holdsLock, State.reset]
  exact h

theorem inFailed_inv : inFailed.Inv := by
  have h : reqOnPath 0x32400510 .failed = true := by decide
  refine ⟨Memory.wf_nil, ?_, ?_, ?_, ?_⟩ <;>
    simp [inFailed, inAddressPhase, attached, State.LockInv, State.LifecycleInv, State.InstanceInv, State.BsqInv,
      LcuPc.holdsLock, BsqPc.holdsLock, State.reset]
  exact h

theorem inUnwind_inv (l : Lock) (h : l = .bsq ∨ l = .free) : (inUnwind l).Inv := by
  have hp : reqOnPath 0x32400510 .addressPhase = true := by decide
  rcases h with rfl | rfl <;> refine ⟨Memory.wf_nil, ?_, ?_, ?_, ?_⟩ <;>
    simp [inUnwind, inAddressPhase, attached, State.LockInv, State.LifecycleInv, State.InstanceInv, State.BsqInv,
      LcuPc.holdsLock, BsqPc.holdsLock, State.reset]
  exact hp

theorem witness_DecodeOfEncodeIsTheInstruction :
    (Instr.xferWr .b 15 true 0xFF 0xFF 3).WellFormed ∧ (Instr.xferRd .a 0 0).WellFormed ∧ (Instr.busRd 127).WellFormed := by
  simp [Instr.WellFormed, LenEncodable]
theorem witness_EncodeOfDecodeIsTheCode :
    decode (.command 0x1F83FFFF) = .ok (.ensurePage 3 0x3EFFFF) ∧ decode (.frame [0xFF, 0x02]) = .ok (.busWr 127 0x02) := by
  decide
theorem witness_IllegalWordsAreAnsweredAtOnce_serve :
    let s : State := { inStep2 [] with cmd := [0x10000000, 0x10040000], turns := [.serve 1] }
    decodeCommand 0x10040000 = .error (.reservedBits 1) ∧ s.busPort = [] ∧ s.cmd[1]? = some 0x10040000
      ∧ s.turns = .serve 1 :: [] := by decide
theorem witness_IllegalWordsAreAnsweredAtOnce_start :
    let s : State := { inAddressPhase [] with cmd := [0xF0000000], turns := [.start 0, .bsq] }
    decodeCommand 0xF0000000 = .error (.illegalOp 15) ∧ s.busPort = [] ∧ s.cmd[0]? = some 0xF0000000
      ∧ s.turns = .start 0 :: [.bsq] := by decide
theorem witness_SpelledWordsDecode : Config.hw.writeFlag = true := rfl
theorem witness_ErrorResponseFields :
    CmdError.transferFailed .readback 0xFF = .transferFailed .readback 0xFF
      ∧ (CmdError.transferFailed .readback 0xFF).word = 0x0000FF44 := by decide
theorem witness_StepRunsTheServedInstruction_command :
    let s := waiting 0x10020000 (attached [])
    s.busPort = [] ∧ s.turns = .serve 0 :: [] ∧ s.cmd[0]? = some 0x10020000
      ∧ decodeCommand 0x10020000 = .ok (.ensurePage 2 0) := by decide
theorem witness_StepRunsTheServedInstruction_frame :
    decodeFrame ({ attached [] with busPort := [0x80, 0x02, 0x01] } : State).busPort = .ok (.busWr 0 0x02, [0x01]) := by
  decide
theorem witness_QuietStepServesTheFirstCommand :
    let s : State := { attached [] with cmd := [0x60000000, 0x10020000] }
    s.Quiet ∧ s.turns = [] ∧ s.cmd = 0x60000000 :: [0x10020000] ∧ decodeCommand 0x60000000 = .ok (.detach 0) := by
  decide
theorem witness_StepRunsThePlacedRow :
    decodeTableWord 32 0x6FC3FFFF = some (.detach 0xFFFFFF) ∧ decodeTableWord 16 0xFFFF = some (.busWr 127 0xFF)
      ∧ decodeTableWord 8 0x7F = some (.busRd 127) := by decide
theorem witness_CommandOfABusyAgentWaits :
    isCommand (.detach 0) = true ∧ canBegin (.detach 0) (inStep2 []) = false
      ∧ isCommand (.softReset 0) = true ∧ canBegin (.softReset 0) (waitsForLock []) = false
      ∧ isCommand (.xferRd .b 1 0) = true ∧ canBegin (.xferRd .b 1 0) (inAddressPhase []) = false := by decide
theorem witness_LegalWordsAreHandedToTheirAgent_bsq :
    let s : State := { inStep2 [] with cmd := [0x60000000, 0x43800000], turns := [.serve 1] }
    decodeCommand 0x43800000 = .ok (.xferRd .b 3 0) ∧ s.busPort = [] ∧ s.cmd[1]? = some 0x43800000
      ∧ s.turns = .serve 1 :: [] ∧ fieldOp 0x43800000 = 4 ∧ s.bsqFree = true := by decide
theorem witness_LegalWordsAreHandedToTheirAgent_lcu :
    let s : State := { inAddressPhase [] with cmd := [0x60000000], turns := [.start 0, .bsq] }
    decodeCommand 0x60000000 = .ok (.detach 0) ∧ s.busPort = [] ∧ s.cmd[0]? = some 0x60000000
      ∧ s.turns = .start 0 :: [.bsq] ∧ fieldOp 0x60000000 = 6 ∧ s.lcuReady = true := by decide
theorem witness_BsqCommandWaitsForTheLock :
    (Instr.xferWr .a 2 true 0x05 0x10 0).WellFormed ∧ (inStep2 []).bsqFree = true ∧ (inStep2 []).lock = .lcu
      ∧ exec (.xferWr .a 2 true 0x05 0x10 0) (inStep2 []) = .next (waitsForLock [])
      ∧ let u : State := { waitsForLock [] with lock := .free, pcLcu := .idle, lc := .detached }
        u.pcBsq = .idle ∧ u.bsqWaits = true ∧ u.reqBsq = (waitsForLock []).reqBsq ∧ u.lock ≠ .lcu :=
  ⟨by simp [Instr.WellFormed, LenEncodable], by decide, by decide, rfl, by decide⟩
theorem witness_StepKeepsTheInvariant :
    (inAddressPhase [.ok 0]).Inv ∧ ∃ t, step (inAddressPhase [.ok 0]) = .next t ∧ t.pcBsq = .dataPhase :=
  ⟨inAddressPhase_inv _, _, rfl, rfl⟩
theorem witness_StepNeverStops :
    (attached []).Inv ∧ (attached []).busPort = []
      ∧ decodeFrame ({ attached [] with busPort := [0x01] } : State).busPort = .ok (.busRd 1, []) :=
  ⟨attached_inv _, rfl, by decide⟩
theorem witness_BusEventsOnlyUnderTheLock_lcu :
    (inStep2 [.ok 0]).LockInv ∧ ∃ t, lcuMove (inStep2 [.ok 0]) = .next t
      ∧ t.events = (inStep2 [.ok 0]).events ++ [.cfg none] ∧ (Event.cfg none).underLock = true :=
  ⟨by simp [inStep2, fresh, State.LockInv, State.reset, LcuPc.holdsLock, BsqPc.holdsLock], _, rfl, rfl, rfl⟩
theorem witness_BusEventsOnlyUnderTheLock_bsq :
    (inAddressPhase [.ok 0]).LockInv ∧ ∃ t, bsqMove (inAddressPhase [.ok 0]) = .next t
      ∧ t.events = (inAddressPhase [.ok 0]).events ++ [.wr 35 0x05 none] ∧ (Event.wr 35 0x05 none).underLock = true :=
  ⟨(inAddressPhase_inv _).2.1, _, rfl, rfl, rfl⟩
theorem witness_BsqHoldsTheLockToItsResponse :
    (inAddressPhase [.err 7]).Inv ∧ (inAddressPhase [.err 7]).pcBsq ≠ .idle
      ∧ (∃ t, bsqMove (inAddressPhase [.err 7]) = .next t ∧ t.lock = .bsq ∧ t.pcBsq = .failed)
      ∧ ∃ t, lcuMove (inAddressPhase [.err 7]) = .next t :=
  ⟨inAddressPhase_inv _, by decide, ⟨_, rfl, by decide⟩, ⟨_, rfl⟩⟩
theorem witness_BsqHoldsTheLockToItsResponse_reply :
    inFailed.Inv ∧ inFailed.pcBsq ≠ .idle ∧ ∃ t, bsqMove inFailed = .next t ∧ t.lock = .free ∧ t.pcBsq = .idle
      ∧ t.events = [.resp 0x00000714] := ⟨inFailed_inv, by decide, _, rfl, by decide⟩
theorem witness_CommandsMakeOnlyListedExchanges :
    isCommand (.softReset 0) = true ∧ ∃ t, exec (.softReset 0) (attached [.ok 0]) = .next t := ⟨rfl, _, rfl⟩
theorem witness_MovesRunTheWholeCommand :
    decodeCommand 0x32400510 = .ok (.xferWr .a 2 true 0x05 0x10 0)
      ∧ canBegin (.xferWr .a 2 true 0x05 0x10 0) (attached []) = true ∧ (attached []).busPort = []
      ∧ decodeCommand 0x50010000 = .ok (.attach true 0) ∧ canBegin (.attach true 0) (fresh []) = true := by decide
theorem witness_BsqCommandEndsInSixMoves :
    (inAddressPhase []).Inv ∧ (inAddressPhase []).busPort = [] ∧ (inAddressPhase []).lock ≠ .lcu
      ∧ (waitsForLock []).Inv ∧ (waitsForLock []).busPort = [] :=
  ⟨inAddressPhase_inv _, rfl, by decide, waitsForLock_inv _, rfl⟩
theorem witness_IgnoredFieldsHaveNoEffect_bsq :
    (attached [.ok 0]).bsqFree = true ∧ (∃ t, exec (.ensurePage 3 0x3FFFFF) (attached [.ok 0]) = .next t)
      ∧ (∃ t, exec (.softReset 0xFFFFFF) (attached [.ok 0]) = .next t)
      ∧ (∃ t, exec (.xferWr .a 1 true 0x05 0x10 3) (attached []) = .next t)
      ∧ ∃ t, exec (.xferRd .b 3 0x7FFFF) (attached [.ok 0]) = .next t :=
  ⟨by decide, ⟨_, rfl⟩, ⟨_, rfl⟩, ⟨_, rfl⟩, ⟨_, rfl⟩⟩
theorem witness_IgnoredFieldsHaveNoEffect_lcu :
    (fresh []).lcuReady = true ∧ (∃ t, exec (.attach true 0x7FFFFF) (fresh []) = .next t)
      ∧ ∃ t, exec (.detach 0xFFFFFF) (fresh []) = .next t := ⟨by decide, ⟨_, rfl⟩, ⟨_, rfl⟩⟩
theorem witness_EnsurePagePrimitive :
    (attached []).curPage = .page 2 ∧ (attached []).curPage ≠ .page 3 ∧ (fresh []).curPage ≠ .page 0 := by decide
theorem witness_EnsurePageCommand :
    (attached [.ok 7]).bsqReady = true ∧ (attached [.ok 7]).inst = true ∧ (attached [.ok 7]).curPage = .page 2
      ∧ (attached [.ok 7]).curPage ≠ .page 3 ∧ (attached [.ok 7]).answer 0 = .ok 7
      ∧ (attached [.err 0xFF]).answer 0 = .err 0xFF := by decide
theorem witness_SoftResetCommand :
    (attached [.ok 7]).bsqReady = true ∧ (attached [.ok 7]).inst = true ∧ (attached [.ok 7]).answer 0 = .ok 7
      ∧ (attached [.err 0xFF]).answer 0 = .err 0xFF := by decide
theorem witness_PageCommandsNeedAnInstance : (fresh []).bsqReady = true ∧ (fresh []).inst = false := by decide
theorem witness_PageSwitchesAreCoalesced :
    pageChanges (fresh [.ok 0, .ok 0]).curPage [0, 0, 2, 2] = 2
      ∧ ∀ k, k < pageChanges (fresh [.ok 0, .ok 0]).curPage [0, 0, 2, 2] →
        failOf ((fresh [.ok 0, .ok 0]).answer k) = none := by decide
theorem witness_FailedSwitchLeavesAStalePage :
    (attached [.err 1]).bsqReady = true ∧ (attached [.err 1]).inst = true ∧ (attached [.err 1]).curPage = .page 2
      ∧ (2 : Page) ≠ 3 ∧ (attached [.err 1]).answer 0 = .err 1
      ∧ ∃ t, exec (.ensurePage 3 0) (attached [.err 1]) = .next t :=
  ⟨by decide, by decide, by decide, by decide, by decide, _, rfl⟩
theorem witness_ReadModifyWrite :
    (attached [.err 9]).answer 0 = .err 9 ∧ (attached [.ok 0xFF]).answer 0 = .ok 0xFF := by decide
theorem witness_RefusedTransfersTouchNothing :
    (fresh []).bsqReady = true ∧ (fresh []).live .a = false
      ∧ (attached []).bsqReady = true ∧ (attached []).live .b = true ∧ (0 < Config.hw.lenMin ∨ Config.hw.lenMax < 0)
      ∧ (4 < Config.hw.lenMin ∨ Config.hw.lenMax < 4) := by decide
theorem witness_TransferPageSwitchPhase_failed :
    let s : State := { attached [.err 5] with curPage := .page 0 }
    s.bsqReady = true ∧ s.live .a = true ∧ Config.hw.lenMin ≤ 3 ∧ 3 ≤ Config.hw.lenMax ∧ s.curPage ≠ .page Config.hw.pageRadio
      ∧ s.answer 0 = .err 5 := by decide
theorem witness_TransferPageSwitchPhase_ok :
    let s : State := { attached [.ok 0] with curPage := .unknown }
    s.bsqReady = true ∧ s.live .b = true ∧ Config.hw.lenMin ≤ 1 ∧ 1 ≤ Config.hw.lenMax ∧ s.PageSwitchOk := by decide
theorem witness_WriteTransferAddressPhase :
    let s := attached [.err 5]
    s.bsqReady = true ∧ s.live .b = true ∧ Config.hw.lenMin ≤ 1 ∧ 1 ≤ Config.hw.lenMax ∧ s.PageSwitchOk ∧ s.answer (pageSwitchCount s) = .err 5
      ∧ failOf ((attached [.ok 0]).answer (pageSwitchCount (attached [.ok 0]))) = none := by decide
theorem witness_WriteTransferDataPhase :
    let s : State := { attached [.ok 0, .ok 0, .err 0x0A] with curPage := .unknown }
    s.bsqReady = true ∧ s.live .a = true ∧ Config.hw.lenMin ≤ 3 ∧ 3 ≤ Config.hw.lenMax ∧ s.PageSwitchOk
      ∧ failOf (s.answer (pageSwitchCount s)) = none ∧ s.answer (pageSwitchCount s + 1) = .err 0x0A := by decide
theorem witness_WriteTransferDataPhase_ok :
    let s := attached [.ok 0, .ok 0]
    s.bsqReady = true ∧ s.live .a = true ∧ Config.hw.lenMin ≤ 1 ∧ 1 ≤ Config.hw.lenMax ∧ s.PageSwitchOk
      ∧ failOf (s.answer (pageSwitchCount s)) = none ∧ failOf (s.answer (pageSwitchCount s + 1)) = none := by decide
theorem witness_StoppedWriteTransferLeaves_address :
    let s := attached [.err 5]
    s.bsqReady = true ∧ s.live .b = true ∧ Config.hw.lenMin ≤ 1 ∧ 1 ≤ Config.hw.lenMax ∧ s.PageSwitchOk
      ∧ (∃ t, exec (.xferWr .b 1 true 1 2 0) s = .next t) ∧ s.answer (pageSwitchCount s) = .err 5 :=
  ⟨by decide, by decide, by decide, by decide, by decide, ⟨_, rfl⟩, by decide⟩
theorem witness_StoppedWriteTransferLeaves_data :
    let s := attached [.ok 0, .err 5]
    s.bsqReady = true ∧ s.live .a = true ∧ Config.hw.lenMin ≤ 3 ∧ 3 ≤ Config.hw.lenMax ∧ s.PageSwitchOk
      ∧ (∃ t, exec (.xferWr .a 3 false 1 2 0) s = .next t) ∧ failOf (s.answer (pageSwitchCount s)) = none
      ∧ s.answer (pageSwitchCount s + 1) = .err 5 :=
  ⟨by decide, by decide, by decide, by decide, by decide, ⟨_, rfl⟩, by decide, by decide⟩
theorem witness_WriteTransferPerformed :
    let s : State := { attached [.ok 0, .ok 0, .ok 0] with curPage := .page 0 }
    s.bsqReady = true ∧ s.live .b = true ∧ Config.hw.lenMin ≤ 3 ∧ 3 ≤ Config.hw.lenMax ∧ s.PageSwitchOk
      ∧ failOf (s.answer (pageSwitchCount s)) = none ∧ failOf (s.answer (pageSwitchCount s + 1)) = none := by decide
theorem witness_ReadTransferPerformed :
    let s := attached []
    s.bsqReady = true ∧ s.live .a = true ∧ Config.hw.lenMin ≤ 1 ∧ 1 ≤ Config.hw.lenMax ∧ s.PageSwitchOk := by decide
theorem witness_OnlyTheLastBufferByteIsPopulated :
    let s := attached [.ok 0x5A]
    s.bsqReady = true ∧ (∃ t, exec (.xferRd .b 3 0) s = .next t ∧ t.respBsq = some 0x025A0000) ∧ s.live .b = true
      ∧ Config.hw.lenMin ≤ 3 ∧ 3 ≤ Config.hw.lenMax ∧ s.PageSwitchOk ∧ s.answer (pageSwitchCount s) = .ok 0x5A
      ∧ [some (0x11 : Byte), none, none].length = 3 :=
  ⟨by decide, ⟨_, rfl, by decide⟩, by decide⟩
theorem witness_OnlyTheLastBufferByteIsPopulated_refused :
    (fresh []).bsqReady = true ∧ (∃ t, exec (.xferRd .b 3 0) (fresh []) = .next t ∧ t.respBsq = some 0x00000006)
      ∧ (fresh []).live .b = false
      ∧ (attached []).bsqReady = true ∧ (∃ t, exec (.xferRd .b 0 0) (attached []) = .next t ∧ t.respBsq = some 0x00000002)
      ∧ 0 < Config.hw.lenMin ∧ (∃ t, exec (.xferRd .b 4 0) (attached []) = .next t ∧ t.respBsq = some 0x00000002)
      ∧ Config.hw.lenMax < 4 :=
  ⟨by decide, ⟨_, rfl, by decide⟩, by decide, by decide, ⟨_, rfl, by decide⟩, by decide, ⟨_, rfl, by decide⟩, by decide⟩
theorem witness_OnlyTheLastBufferByteIsPopulated_pageSwitch :
    let s : State := { attached [.err 2] with curPage := .page 1 }
    s.bsqReady = true ∧ (∃ t, exec (.xferRd .a 1 0) s = .next t ∧ t.respBsq = some 0x00000204)
      ∧ s.curPage ≠ .page Config.hw.pageRadio ∧ s.answer 0 = .err 2 := ⟨by decide, ⟨_, rfl, by decide⟩, by decide⟩
theorem witness_OnlyTheLastBufferByteIsPopulated_failed :
    let s := attached [.err 7]
    s.bsqReady = true ∧ (∃ t, exec (.xferRd .b 1 0) s = .next t ∧ t.respBsq = some 0x00000744) ∧ s.PageSwitchOk
      ∧ s.answer (pageSwitchCount s) = .err 7 := ⟨by decide, ⟨_, rfl, by decide⟩, by decide⟩
theorem witness_BsqCommandsFrame :
    (∃ t, exec (.ensurePage 0 0) (attached [.ok 0]) = .next t) ∧ (attached [.ok 0]).bsqReady = true
      ∧ (∃ t, exec (.softReset 0) (inStep2 []) = .next t) ∧ (inStep2 []).bsqReady = false ∧ (inStep2 []).bsqFree = true
      ∧ (∃ t, exec (.softReset 0) (waitsForLock []) = .next t) ∧ (waitsForLock []).bsqFree = false
      ∧ ∀ ep len dv addr data x, Instr.ensurePage 0 0 ≠ .xferWr ep len dv addr data x :=
  ⟨⟨_, rfl⟩, by decide, ⟨_, rfl⟩, by decide, by decide, ⟨_, rfl⟩, by decide, by simp⟩
theorem witness_BsqCommandsMemoryFrame :
    (∃ t, exec (.xferWr .a 1 true 0x05 0x10 0) (attached []) = .next t)
      ∧ (∀ p, 299 ≠ regKey p Endpoint.a.addrReg) ∧ (∀ p, 299 ≠ regKey p Endpoint.a.dataReg)
      ∧ (∀ p, 299 ≠ regKey p Endpoint.a.csReg) ∧ (∃ t, exec (.xferRd .a 1 0) (attached []) = .next t)
      ∧ ∃ t, exec (.ensurePage 3 0) (attached [.ok 0]) = .next t :=
  ⟨⟨_, rfl⟩, by decide, by decide, by decide, ⟨_, rfl⟩, ⟨_, rfl⟩⟩
theorem witness_AttachPerformed :
    let s := fresh (goodBringUp [.ok 0, .ok 0])
    s.lcuReady = true ∧ s.lc = .detached ∧ s.lock ≠ .bsq ∧ s.BringUpAnswers 0xFF 0xFF 0x00 0x03 0x07
      ∧ failOf (s.answer 15) = none ∧ failOf (s.answer 16) = none := by decide
theorem witness_UnwindingWaitsForTheTransferInFlight :
    (inUnwind .bsq).Inv ∧ (inUnwind .bsq).pcLcu = .unwind ∧ (inUnwind .bsq).lock = .bsq
      ∧ (inUnwind .free).Inv ∧ (inUnwind .free).pcLcu = .unwind ∧ (inUnwind .free).lock ≠ .bsq :=
  ⟨inUnwind_inv _ (.inl rfl), by decide, by decide, inUnwind_inv _ (.inr rfl), by decide, by decide⟩
theorem witness_AttachStopsAtTheConfiguration :
    let s := fresh [.err 2]
    s.lcuReady = true ∧ s.lc = .detached ∧ s.lock ≠ .bsq ∧ s.epLiveA = false ∧ s.epLiveB = false
      ∧ s.answer 0 = .err 2 := by decide
theorem witness_AttachStopsOnAWrongIdentity :
    let s := fresh [.ok 0, .ok 0x66]
    s.lcuReady = true ∧ s.lc = .detached ∧ s.lock ≠ .bsq ∧ s.epLiveA = false ∧ s.epLiveB = false
      ∧ failOf (s.answer 0) = none ∧ s.answer 1 = .ok 0x66 ∧ (0x66 : Byte) ≠ Config.hw.idExpected := by decide
theorem witness_FailedSecondRegistrationUnregistersTheFirst :
    let s := fresh (goodBringUp [.ok 0, .err 0x21])
    s.lcuReady = true ∧ s.lc = .detached ∧ s.lock ≠ .bsq ∧ s.BringUpAnswers 0xFF 0xFF 0x00 0x03 0x07
      ∧ failOf (s.answer 15) = none ∧ s.answer 16 = .err 0x21 := by decide
theorem witness_AttachLeavesAllOrNothing :
    (fresh []).Inv ∧ (fresh []).lcuReady = true ∧ (fresh []).lc = .detached ∧ (fresh []).lock ≠ .bsq :=
  ⟨fresh_inv _, by decide, by decide, by decide⟩
theorem witness_FailedBringUpReportsItsCause :
    let s := fresh [.ok 0, .ok 103, .err 0x04]
    s.Inv ∧ s.lcuReady = true ∧ s.lc = .detached ∧ s.lock ≠ .bsq
      ∧ ∃ t, exec (.attach false 0) s = .next t ∧ t.respLcu = some 0x00000401 ∧ respCode 0x00000401 ≠ 0 :=
  ⟨fresh_inv _, by decide, by decide, by decide, _, rfl, by decide, by decide⟩
theorem witness_FailedBringUpReportsItsCause_identity :
    let s := fresh [.ok 0, .ok 0x66]
    s.Inv ∧ s.lcuReady = true ∧ s.lc = .detached ∧ s.lock ≠ .bsq
      ∧ ∃ t, exec (.attach false 0) s = .next t ∧ t.respLcu = some 0x00660003 ∧ respCode 0x00660003 ≠ 0 :=
  ⟨fresh_inv _, by decide, by decide, by decide, _, rfl, by decide, by decide⟩
theorem witness_FailedBringUpReportsItsCause_registration :
    let s := fresh (goodBringUp [.err 0x20])
    s.Inv ∧ s.lcuReady = true ∧ s.lc = .detached ∧ s.lock ≠ .bsq
      ∧ ∃ t, exec (.attach false 0) s = .next t ∧ t.respLcu = some 0x00002005 ∧ respCode 0x00002005 ≠ 0 :=
  ⟨fresh_inv _, by decide, by decide, by decide, _, rfl, by decide, by decide⟩
theorem witness_IdentityBeforeAnyWrite :
    ∃ t, exec (.attach true 0) (fresh (goodBringUp [])) = .next t := ⟨_, rfl⟩
theorem witness_SecondAttachIsRefused : (attached []).lcuReady = true ∧ (attached []).lc = .running := by decide
theorem witness_DetachPerformed :
    (fresh []).lcuReady = true ∧ (fresh []).lc = .detached
      ∧ (attached []).lcuReady = true ∧ (attached []).lc ≠ .detached ∧ (attached []).lock ≠ .bsq := by decide
theorem witness_DetachWaitsForTheTransferInFlight :
    (inAddressPhase []).lcuReady = true ∧ (inAddressPhase []).lc ≠ .detached ∧ (inAddressPhase []).lock = .bsq
      ∧ (inAddressPhase []).live .a = true := by decide
theorem witness_LifecycleCommandsFrame :
    (∃ t, exec (.attach true 0) (fresh []) = .next t) ∧ (∃ t, exec (.detach 0) (attached []) = .next t)
      ∧ (fresh []).lcuReady = true ∧ (∀ p, regKey 2 37 ≠ regKey p Config.hw.genReg)
      ∧ (∀ p, regKey 2 37 ≠ regKey p Config.hw.clkReg) ∧ ∀ p, regKey 2 37 ≠ regKey p Config.hw.rctrlReg :=
  ⟨⟨_, rfl⟩, ⟨_, rfl⟩, by decide, by decide, by decide, by decide⟩
theorem witness_WriteFrameRecord_ok :
    (33 : RegAddr) ≠ Config.hw.pageReg ∧ (33 : RegAddr) ≠ Config.hw.idReg
      ∧ (∃ t, exec (.busWr 33 0x10) (attached [.ok 0]) = .next t)
      ∧ failOf ((attached [.ok 0]).answer 0) = none ∧ (attached [.ok 0]).chip.pages = .only 2 :=
  ⟨by decide, by decide, ⟨_, rfl⟩, by decide, by decide⟩
theorem witness_WriteFrameRecord_err :
    (2 : RegAddr) ≠ Config.hw.pageReg ∧ (127 : RegAddr) ≠ Config.hw.idReg
      ∧ (∃ t, exec (.busWr 127 0) (attached [.err 1]) = .next t)
      ∧ (attached [.err 1]).answer 0 = .err 1 ∧ (attached [.err 1]).chip.pages.mem 2 = true
      ∧ (fresh []).chip.pages.single = none ∧ (fresh []).chip.pages.mem 3 = true :=
  ⟨by decide, by decide, ⟨_, rfl⟩, by decide, by decide, by decide, by decide⟩
theorem witness_WriteFrameRecord_other_page :
    (33 : RegAddr) ≠ Config.hw.pageReg ∧ (33 : RegAddr) ≠ Config.hw.idReg
      ∧ (∃ t, exec (.busWr 33 0x10) (attached [.ok 0]) = .next t) ∧ (attached [.ok 0]).chip.pages.mem 3 = false :=
  ⟨by decide, by decide, ⟨_, rfl⟩, by decide⟩
theorem witness_PageRegisterFrame :
    (∃ t, exec (.busWr 0 3) (attached [.ok 0]) = .next t) ∧ (3 : Byte).toNat < Config.hw.nPages
      ∧ failOf ((attached [.ok 0]).answer 0) = none ∧ (attached [.err 1]).answer 0 = .err 1 ∧ Config.hw.nPages ≤ (4 : Byte).toNat :=
  ⟨⟨_, rfl⟩, by decide, by decide, by decide, by decide⟩

end Sys2Proof.Tests
end

section
/-! PROOF. The three phases in which a transfer can stop before its last exchange (41 R153 to R155). A phase ends either in the
next sequencer state or in `FAILED` (`endPhase`); in `FAILED` every later phase does nothing, so the transfer raises its
error at once; and whatever is done after the page switch keeps `CUR_PAGE` and only adds to the trace (`Performs`). -/

namespace Sys2Proof.Machine

/-! ### The states between the phases -/

/-- A transfer that was taken and not refused, before its page switch (41 R150). -/
def State.inPageSwitch (w : Word) (s : State) : State :=
  { s with reqBsq := some w, lock := .bsq, pcBsq := .pageSwitching }

/-- A transfer whose page switch succeeded or was not needed, in the state that follows (41 R153). -/
def State.afterPageSwitch (next : BsqPc) (w : Word) (s : State) : State :=
  { s with
    curPage := .page Config.hw.pageRadio
    lock := .bsq
    reqBsq := some w
    pcBsq := next
    chip := pageSwitchChip s
    answers := s.answers.drop (pageSwitchCount s)
    drawn := s.drawn + pageSwitchCount s
    busReply := if s.curPage = .page Config.hw.pageRadio then s.busReply else some .done
    events := s.events ++ pageSwitchTrace s }

/-- `x[pc_BSQ] <- pc`. -/
def State.goTo (pc : BsqPc) (s : State) : State := { s with pcBsq := pc }

section Fields
variable (next : BsqPc) (w : Word) (s : State)

@[simp] theorem inPageSwitch_pcBsq : (s.inPageSwitch w).pcBsq = .pageSwitching := rfl
@[simp] theorem inPageSwitch_curPage : (s.inPageSwitch w).curPage = s.curPage := rfl
@[simp] theorem inPageSwitch_events : (s.inPageSwitch w).events = s.events := rfl
@[simp] theorem inPageSwitch_answer (k : Nat) : (s.inPageSwitch w).answer k = s.answer k := rfl

@[simp] theorem goTo_pcBsq : (s.goTo next).pcBsq = next := rfl
@[simp] theorem goTo_curPage : (s.goTo next).curPage = s.curPage := rfl
@[simp] theorem goTo_events : (s.goTo next).events = s.events := rfl
@[simp] theorem goTo_answer (k : Nat) : (s.goTo next).answer k = s.answer k := rfl

@[simp] theorem afterPageSwitch_pcBsq : (s.afterPageSwitch next w).pcBsq = next := rfl
@[simp] theorem afterPageSwitch_curPage : (s.afterPageSwitch next w).curPage = .page Config.hw.pageRadio := rfl
@[simp] theorem afterPageSwitch_events : (s.afterPageSwitch next w).events = s.events ++ pageSwitchTrace s := rfl

@[simp] theorem afterPageSwitch_answer (k : Nat) :
    (s.afterPageSwitch next w).answer k = s.answer (pageSwitchCount s + k) :=
  answerOf_drop s.answers s.drawn k (pageSwitchCount s)

end Fields

section Fields
variable (e : CmdError) (s : State)

@[simp] theorem bsqRaise_curPage : (bsqRaise e s).curPage = s.curPage := rfl
@[simp] theorem bsqRaise_respBsq : (bsqRaise e s).respBsq = some e.word := rfl
@[simp] theorem bsqRaise_events : (bsqRaise e s).events = s.events ++ [.resp e.word] := rfl

end Fields

section Fields
variable (a : RegAddr) (v : Byte) (s : State)

theorem memWrite_snd : (memWrite a v s).2 = failOf (s.answer 0) := rfl
@[simp] theorem memWrite_curPage : (memWrite a v s).1.curPage = s.curPage := rfl
@[simp] theorem memWrite_events : (memWrite a v s).1.events = s.events ++ [.wr a v (failOf (s.answer 0))] := rfl
@[simp] theorem memWrite_answer (k : Nat) : (memWrite a v s).1.answer k = s.answer (k + 1) := answer_draw s k

end Fields

theorem addrReg_ne_pageReg (ep : Endpoint) : ep.addrReg ≠ Config.hw.pageReg := by cases ep <;> decide

/-! ### The end of a phase -/

/-- A phase whose exchange gave `r`: the next sequencer state, or `FAILED` with the phase and the cause. -/
def endPhase (next : BsqPc) (ph : Phase) (r : State × Option Cause) : State :=
  match r with
  | (t, none) => { t with pcBsq := next }
  | (t, some c) => bsqFail (.transferFailed ph c) t

theorem pageSwitching_eq (next : BsqPc) {s : State} (h : s.pcBsq = .pageSwitching) :
    pageSwitching next s = endPhase next .pageSwitch (ensurePage Config.hw.pageRadio s) := if_pos h

theorem addressPhase_eq (ep : Endpoint) (addr : Byte) {s : State} (h : s.pcBsq = .addressPhase) :
    addressPhase ep addr s = endPhase .dataPhase .address (memWrite ep.addrReg addr s) := if_pos h

theorem dataPhase_eq (ep : Endpoint) (v : Byte) {s : State} (h : s.pcBsq = .dataPhase) :
    dataPhase ep v s = endPhase .csPulse .data (memWrite ep.dataReg v s) := if_pos h

section EndPhase
variable (next : BsqPc) (ph : Phase) {r : State × Option Cause}

theorem endPhase_ok (h : r.2 = none) : endPhase next ph r = r.1.goTo next := by
  obtain ⟨t, f⟩ := r
  cases h
  rfl

theorem endPhase_failed {c : Cause} (h : r.2 = some c) : endPhase next ph r = bsqFail (.transferFailed ph c) r.1 := by
  obtain ⟨t, f⟩ := r
  cases h
  rfl

@[simp] theorem endPhase_curPage : (endPhase next ph r).curPage = r.1.curPage := by
  obtain ⟨t, _ | c⟩ := r <;> rfl

@[simp] theorem endPhase_events : (endPhase next ph r).events = r.1.events := by
  obtain ⟨t, _ | c⟩ := r <;> rfl

end EndPhase

/-! ### What the phases after the page switch do to the trace -/

/-- From `s` to `t`: `CUR_PAGE` is kept, and the first events added are `es`; more may follow them. -/
def Performs (es : List Event) (s t : State) : Prop := t.curPage = s.curPage ∧ s.events ++ es <+: t.events

section Performs
variable {es : List Event} {s t u : State}

theorem Performs.refl (s : State) : Performs [] s s := by simp [Performs]

/-- What is added later does not change the first events. -/
theorem Performs.andMore (h : Performs es s t) (h' : Performs [] t u) : Performs es s u :=
  ⟨h'.1.trans h.1, h.2.trans (by simpa using h'.2)⟩

theorem Performs.weaken (h : Performs es s t) : Performs [] s t :=
  ⟨h.1, List.IsPrefix.trans ⟨es, by simp⟩ h.2⟩

/-- What is added after a write exchange comes after its event. -/
theorem Performs.of_memWrite {a : RegAddr} {v : Byte} {pc : BsqPc} (h : Performs es ((memWrite a v s).1.goTo pc) t) :
    Performs (.wr a v (failOf (s.answer 0)) :: es) s t :=
  ⟨h.1, by simpa using h.2⟩

/-- What is added after the page switch of a transfer comes after its event, when there is one. -/
theorem Performs.exists_events {next : BsqPc} {w : Word} (h : Performs es (s.afterPageSwitch next w) t) :
    ∃ fs, t.events = s.events ++ pageSwitchTrace s ++ (es ++ fs) := by
  obtain ⟨-, fs, hfs⟩ := h
  exact ⟨fs, by simp [← hfs]⟩

/-- A phase does nothing but in its own sequencer state. -/
theorem performs_if {p : Prop} [Decidable p] (h : p → Performs [] s t) : Performs [] s (if p then t else s) := by
  split
  next hp => exact h hp
  next => exact .refl s

end Performs

theorem endPhase_performs (next : BsqPc) (ph : Phase) (a : RegAddr) (v : Byte) (s : State) :
    Performs [.wr a v (failOf (s.answer 0))] s (endPhase next ph (memWrite a v s)) := by
  simp [Performs]

theorem addressPhase_performs (ep : Endpoint) (addr : Byte) {s : State} (h : s.pcBsq = .addressPhase) :
    Performs [.wr ep.addrReg addr (failOf (s.answer 0))] s (addressPhase ep addr s) := by
  rw [addressPhase_eq ep addr h]
  exact endPhase_performs _ _ _ _ s

theorem dataPhase_performs (ep : Endpoint) (v : Byte) {s : State} (h : s.pcBsq = .dataPhase) :
    Performs [.wr ep.dataReg v (failOf (s.answer 0))] s (dataPhase ep v s) := by
  rw [dataPhase_eq ep v h]
  exact endPhase_performs _ _ _ _ s

/-- The CS pulse begins with its read (41 R156). -/
theorem csPhase_performs (ep : Endpoint) {s : State} (h : s.pcBsq = .csPulse) :
    Performs [.rd ep.csReg (s.answer 0)] s (csPhase ep s) := by
  rw [csPhase, if_pos h, csPulse_eq]
  exact ⟨rfl, by simp [bsqDone, csTrace]⟩

theorem readBack_performs (ep : Endpoint) (len : Nat) {s : State} (h : s.pcBsq = .readBack) :
    Performs [.rd ep.rbReg (s.answer 0)] s (readBack ep len s) := by
  rw [readBack, if_pos h, memRead_eq]
  cases s.answer 0 <;> exact ⟨rfl, by simp [bsqDone, bsqFail]⟩

theorem dataPhase_keeps (ep : Endpoint) (v : Byte) (s : State) : Performs [] s (dataPhase ep v s) :=
  performs_if fun _ => (endPhase_performs .csPulse .data _ _ s).weaken

theorem csPhase_keeps (ep : Endpoint) (s : State) : Performs [] s (csPhase ep s) := by
  by_cases h : s.pcBsq = .csPulse
  · exact (csPhase_performs ep h).weaken
  · rw [csPhase, if_neg h]
    exact .refl s

theorem bsqReply_keeps (s : State) : Performs [] s (bsqReply s) := by
  refine performs_if fun _ => ?_
  cases s.respBsq with
  | none => exact .refl s
  | some w => exact ⟨rfl, by simp⟩

/-! ### A write transfer from its data phase and from its address phase -/

/-- A write transfer from `DATA_PHASE` to its response. -/
def writeFromData (ep : Endpoint) (v : Byte) (s : State) : State := bsqReply (csPhase ep (dataPhase ep v s))

/-- A write transfer from `ADDRESS_PHASE` to its response. -/
def writeFromAddress (ep : Endpoint) (addr v : Byte) (s : State) : State :=
  writeFromData ep v (addressPhase ep addr s)

theorem runXferWr_eq (ep : Endpoint) (dv : Bool) (addr data : Byte) (s : State) :
    runXferWr ep dv addr data s
      = writeFromAddress ep addr (if dv then data else 0x00) (pageSwitching .addressPhase s) := rfl

/-- In `FAILED` nothing is done but to release the lock and to respond (41 R165). -/
theorem writeFromData_bsqFail (ep : Endpoint) (v : Byte) (e : CmdError) (s : State) :
    writeFromData ep v (bsqFail e s) = bsqRaise e s := rfl

theorem writeFromData_keeps (ep : Endpoint) (v : Byte) (s : State) : Performs [] s (writeFromData ep v s) :=
  ((dataPhase_keeps ep v s).andMore (csPhase_keeps ep _)).andMore (bsqReply_keeps _)

section DataPhase
variable (ep : Endpoint) (v : Byte) {s : State} (hp : s.pcBsq = .dataPhase)
include hp

theorem writeFromData_failed {c : Cause} (ha : s.answer 0 = .err c) :
    writeFromData ep v s = bsqRaise (.transferFailed .data c) (memWrite ep.dataReg v s).1 := by
  have hf : (memWrite ep.dataReg v s).2 = some c := by rw [memWrite_snd, ha, failOf_err]
  rw [writeFromData, dataPhase_eq ep v hp, endPhase_failed _ _ hf]
  rfl

theorem writeFromData_performs :
    Performs [.wr ep.dataReg v (failOf (s.answer 0))] s (writeFromData ep v s) :=
  ((dataPhase_performs ep v hp).andMore (csPhase_keeps ep _)).andMore (bsqReply_keeps _)

/-- After a data write answered Ok the next event is the read of the CS pulse (41 R156). -/
theorem writeFromData_ok_performs (ha : failOf (s.answer 0) = none) :
    Performs [.wr ep.dataReg v none, .rd ep.csReg (s.answer 1)] s (writeFromData ep v s) := by
  rw [writeFromData, dataPhase_eq ep v hp, endPhase_ok _ _ ((memWrite_snd _ _ _).trans ha)]
  have hcs := csPhase_performs ep (goTo_pcBsq .csPulse (memWrite ep.dataReg v s).1)
  simpa [ha] using (hcs.andMore (bsqReply_keeps _)).of_memWrite

end DataPhase

section AddressPhase
variable (ep : Endpoint) (addr v : Byte) {s : State} (hp : s.pcBsq = .addressPhase)
include hp

theorem writeFromAddress_failed {c : Cause} (ha : s.answer 0 = .err c) :
    writeFromAddress ep addr v s = bsqRaise (.transferFailed .address c) (memWrite ep.addrReg addr s).1 := by
  have hf : (memWrite ep.addrReg addr s).2 = some c := by rw [memWrite_snd, ha, failOf_err]
  rw [writeFromAddress, addressPhase_eq ep addr hp, endPhase_failed _ _ hf, writeFromData_bsqFail]

theorem writeFromAddress_ok (ha : failOf (s.answer 0) = none) :
    writeFromAddress ep addr v s
      = writeFromData ep v ((memWrite ep.addrReg addr s).1.goTo .dataPhase) := by
  rw [writeFromAddress, addressPhase_eq ep addr hp, endPhase_ok _ _ ((memWrite_snd _ _ _).trans ha)]

theorem writeFromAddress_performs :
    Performs [.wr ep.addrReg addr (failOf (s.answer 0))] s (writeFromAddress ep addr v s) :=
  (addressPhase_performs ep addr hp).andMore (writeFromData_keeps ep v _)

/-- After an address write answered Ok the next event is the data write. -/
theorem writeFromAddress_ok_performs (ha : failOf (s.answer 0) = none) :
    Performs [.wr ep.addrReg addr none, .wr ep.dataReg v (failOf (s.answer 1))] s (writeFromAddress ep addr v s) := by
  rw [writeFromAddress_ok ep addr v hp ha]
  simpa [ha] using (writeFromData_performs ep v (goTo_pcBsq .dataPhase (memWrite ep.addrReg addr s).1)).of_memWrite

/-- After both writes answered Ok the next event is the read of the CS pulse. -/
theorem writeFromAddress_dataOk_performs (ha : failOf (s.answer 0) = none) (hd : failOf (s.answer 1) = none) :
    Performs [.wr ep.addrReg addr none, .wr ep.dataReg v none, .rd ep.csReg (s.answer 2)] s
      (writeFromAddress ep addr v s) := by
  rw [writeFromAddress_ok ep addr v hp ha]
  have h := writeFromData_ok_performs ep v (goTo_pcBsq .dataPhase (memWrite ep.addrReg addr s).1) (by simpa using hd)
  simpa [ha] using h.of_memWrite

theorem writeFromAddress_dataFailed {c : Cause} (ha : failOf (s.answer 0) = none) (hd : s.answer 1 = .err c) :
    writeFromAddress ep addr v s = bsqRaise (.transferFailed .data c)
      (memWrite ep.dataReg v ((memWrite ep.addrReg addr s).1.goTo .dataPhase)).1 := by
  rw [writeFromAddress_ok ep addr v hp ha, writeFromData_failed ep v rfl (by simpa using hd)]

end AddressPhase

/-! ### The page switch of a transfer (41 R153) -/

section PageSwitch
variable {s : State} {next : BsqPc} {w : Word}

theorem pageSwitching_goesOn (h : s.PageSwitchOk) :
    pageSwitching next (s.inPageSwitch w) = s.afterPageSwitch next w := pageSwitching_ok next w s h

/-- A page write that failed leaves `CUR_PAGE` as it was (40 R128). -/
theorem pageSwitching_failed {c : Cause} (hc : s.curPage ≠ .page Config.hw.pageRadio) (ha : s.answer 0 = .err c) :
    pageSwitching next (s.inPageSwitch w) = bsqFail (.transferFailed .pageSwitch c)
      (memWrite Config.hw.pageReg (pageValue Config.hw.pageRadio) (s.inPageSwitch w)).1 := by
  have ha' : failOf ((s.inPageSwitch w).answer 0) = some c := by rw [inPageSwitch_answer, ha, failOf_err]
  have hc' : (s.inPageSwitch w).curPage ≠ .page Config.hw.pageRadio := hc
  rw [pageSwitching_eq next rfl, ensurePage_other hc', endPhase_failed _ _ ha', ha']
  rfl

/-- Past its page switch a write transfer makes its address write first. -/
theorem runXferWr_performs {ep : Endpoint} {dv : Bool} {addr data : Byte} (h : s.PageSwitchOk) :
    Performs [.wr ep.addrReg addr (failOf (s.answer (pageSwitchCount s)))] (s.afterPageSwitch .addressPhase w)
      (runXferWr ep dv addr data (s.inPageSwitch w)) := by
  rw [runXferWr_eq, pageSwitching_goesOn h]
  simpa using writeFromAddress_performs ep addr (if dv then data else 0x00) (afterPageSwitch_pcBsq .addressPhase w s)

/-- Past its page switch a read transfer makes its read-back first. -/
theorem runXferRd_performs {ep : Endpoint} {len : Nat} (h : s.PageSwitchOk) :
    Performs [.rd ep.rbReg (s.answer (pageSwitchCount s))] (s.afterPageSwitch .readBack w)
      (runXferRd ep len (s.inPageSwitch w)) := by
  rw [runXferRd, pageSwitching_goesOn h]
  simpa using (readBack_performs ep len (afterPageSwitch_pcBsq .readBack w s)).andMore (bsqReply_keeps _)

/-- A transfer goes on with page 2 tracked when an exchange that is no page write comes next. -/
theorem Performs.goesOn {e : Event} {t : State} (h : Performs [e] (s.afterPageSwitch next w) t) (hb : e.onBus = true)
    (hp : ∀ v f, e ≠ .wr Config.hw.pageReg v f) :
    t.curPage = .page Config.hw.pageRadio ∧ ∃ e es, e.onBus = true ∧ (∀ v f, e ≠ .wr Config.hw.pageReg v f)
      ∧ t.events = s.events ++ pageSwitchTrace s ++ e :: es := by
  obtain ⟨es, hes⟩ := h.exists_events
  exact ⟨h.1, e, es, hb, hp, hes⟩

/-- A write transfer whose page switch failed ends at once with its error. -/
theorem runXferWr_pageSwitchFailed {ep : Endpoint} {dv : Bool} {addr data : Byte} {c : Cause}
    (hc : s.curPage ≠ .page Config.hw.pageRadio) (ha : s.answer 0 = .err c) :
    runXferWr ep dv addr data (s.inPageSwitch w) = bsqRaise (.transferFailed .pageSwitch c)
      (memWrite Config.hw.pageReg (pageValue Config.hw.pageRadio) (s.inPageSwitch w)).1 := by
  rw [runXferWr_eq, pageSwitching_failed hc ha]
  rfl

/-- A read transfer whose page switch failed ends at once with its error. -/
theorem runXferRd_pageSwitchFailed {ep : Endpoint} {len : Nat} {c : Cause}
    (hc : s.curPage ≠ .page Config.hw.pageRadio) (ha : s.answer 0 = .err c) :
    runXferRd ep len (s.inPageSwitch w) = bsqRaise (.transferFailed .pageSwitch c)
      (memWrite Config.hw.pageReg (pageValue Config.hw.pageRadio) (s.inPageSwitch w)).1 := by
  rw [runXferRd, pageSwitching_failed hc ha]
  rfl

/-- What that error leaves: `CUR_PAGE` as it was, the response, and the failed page write before it. -/
theorem pageSwitchFailed_leaves {c : Cause} (ha : s.answer 0 = .err c) :
    let t := bsqRaise (.transferFailed .pageSwitch c)
      (memWrite Config.hw.pageReg (pageValue Config.hw.pageRadio) (s.inPageSwitch w)).1
    t.curPage = s.curPage ∧ t.respBsq = some (0x00000004#32 ||| c.setWidth 32 <<< 8)
      ∧ t.events = s.events ++ [.wr Config.hw.pageReg (pageValue Config.hw.pageRadio) (some c),
          .resp (0x00000004#32 ||| c.setWidth 32 <<< 8)] := by
  simp [pageSwitchFailed_word, ha, failOf_err]

end PageSwitch

/-! ### The two transfers as `exec` runs them -/

section Exec
variable {ep : Endpoint} {len : Nat} {s : State} (hr : s.bsqReady = true) (hl : s.live ep = true)
  (h1 : Config.hw.lenMin ≤ len) (h2 : len ≤ Config.hw.lenMax)
include hr hl h1 h2

theorem exec_xferWr_taken (dv : Bool) (addr data : Byte) (x : BitVec 2) :
    exec (.xferWr ep len dv addr data x) s
      = .next (runXferWr ep dv addr data (s.inPageSwitch (encodeWord (.xferWr ep len dv addr data x)))) := by
  rw [exec, execXferWr, if_pos (bsqReady_free hr), beginXfer_ok _ ep s hr hl h1 h2, State.inPageSwitch]

theorem exec_xferRd_taken (x : BitVec 19) :
    exec (.xferRd ep len x) s = .next (runXferRd ep len (s.inPageSwitch (encodeWord (.xferRd ep len x)))) := by
  rw [exec, execXferRd, if_pos (bsqReady_free hr), beginXfer_ok _ ep s hr hl h1 h2, State.inPageSwitch]

/-- Past its page switch a write transfer goes on with its address phase. -/
theorem exec_xferWr_goesOn (hok : s.PageSwitchOk) (dv : Bool) (addr data : Byte) (x : BitVec 2) :
    exec (.xferWr ep len dv addr data x) s = .next (writeFromAddress ep addr (if dv then data else 0x00)
      (s.afterPageSwitch .addressPhase (encodeWord (.xferWr ep len dv addr data x)))) := by
  rw [exec_xferWr_taken hr hl h1 h2, runXferWr_eq, pageSwitching_goesOn hok]

end Exec

end Sys2Proof.Machine

namespace Sys2Proof.Proofs

open Sys2Proof.Machine

/-- Settles O30: a failed page write raises the error with nothing done after it, and past the page switch the first
exchange is the address write of a write transfer or the read-back of a read transfer. -/
theorem transferPageSwitchPhase : Obligations.TransferPageSwitchPhase := by
  intro i ep len s hi hr hl h1 h2
  refine ⟨rfl, rfl, ?_⟩
  rcases hi with ⟨dv, addr, data, x, rfl⟩ | ⟨x, rfl⟩
  · refine ⟨_, exec_xferWr_taken hr hl h1 h2 dv addr data x, fun c hc ha => ?_, fun hok => ?_⟩
    · rw [runXferWr_pageSwitchFailed hc ha]
      exact pageSwitchFailed_leaves ha
    · exact (runXferWr_performs hok).goesOn rfl (by simp [addrReg_ne_pageReg])
  · refine ⟨_, exec_xferRd_taken hr hl h1 h2 x, fun c hc ha => ?_, fun hok => ?_⟩
    · rw [runXferRd_pageSwitchFailed hc ha]
      exact pageSwitchFailed_leaves ha
    · exact (runXferRd_performs hok).goesOn rfl (by simp)

/-- Settles O31: the address write is the first event after the page switch; its failure ends the transfer, and after its
success comes the data write. -/
theorem writeTransferAddressPhase : Obligations.WriteTransferAddressPhase := by
  intro ep len dv addr data x s hr hl h1 h2 hok
  refine ⟨by cases ep <;> rfl, _, exec_xferWr_goesOn hr hl h1 h2 hok dv addr data x, fun c ha => ?_, fun ha => ?_⟩
  · rw [writeFromAddress_failed (c := c) _ _ _ rfl (by simpa using ha)]
    simp [addressFailed_word, ha, failOf_err]
  · obtain ⟨es, hes⟩ := (writeFromAddress_ok_performs ep addr (if dv then data else 0x00)
      (afterPageSwitch_pcBsq .addressPhase _ s) (by simpa using ha)).exists_events
    exact ⟨_, _, es, hes⟩

/-- Settles O32: the data write follows the address write; its failure ends the transfer, and after its success comes the
read of the CS pulse. -/
theorem writeTransferDataPhase : Obligations.WriteTransferDataPhase := by
  intro ep len dv addr data x s hr hl h1 h2 hok haddr
  refine ⟨by cases ep <;> rfl, _, exec_xferWr_goesOn hr hl h1 h2 hok dv addr data x, fun c ha => ?_, fun ha => ?_⟩
  · rw [writeFromAddress_dataFailed (c := c) _ _ _ rfl (by simpa using haddr) (by simpa using ha)]
    simp [dataFailed_word, haddr, ha, failOf_err]
  · obtain ⟨es, hes⟩ := (writeFromAddress_dataOk_performs ep addr (if dv then data else 0x00)
      (afterPageSwitch_pcBsq .addressPhase _ s) (by simpa using haddr) (by simpa using ha)).exists_events
    exact ⟨_, es, hes⟩

end Sys2Proof.Proofs
end

section
/-! PROOF. DETACH while BSQ is in a critical section (70 R280). Its first two parts unregister the live endpoints and need no
lock (`detachA_detachB`); its last part waits while BSQ holds the lock (`detachEnd_waits`) and destroys the instance when it
is free (`detachEnd_destroys`), so the command leaves LCU in `L_DETACH` with both endpoints dead (`State.detachWaiting`). -/

namespace Sys2Proof.Machine

/-- The events of the endpoints that DETACH finds live, B before A (42 R195). -/
def unregTrace (s : State) : List Event :=
  (if s.live .b then [.unreg .b] else []) ++ (if s.live .a then [.unreg .a] else [])

/-- LCU in `L_DETACH` with both endpoints unregistered, before it has the lock (42 R195). -/
def State.detachWaiting (w : Word) (s : State) : State :=
  { s with
    reqLcu := some w
    pcLcu := .detach
    epLiveA := false
    epLiveB := false
    events := s.events ++ unregTrace s }

variable {s : State}

theorem unreg_mem_unregTrace {ep : Endpoint} (h : s.live ep = true) : .unreg ep ∈ unregTrace s := by
  cases ep <;> simp [unregTrace, h]

/-- DETACH of a block that is not detached enters `L_DETACH` whoever holds the lock (42 R195). -/
theorem beginDetach_enters (w : Word) (h : s.lc ≠ .detached) :
    beginDetach w s = { s with reqLcu := some w, pcLcu := .detach } := if_neg h

/-- The two unregistrations of DETACH together. -/
theorem detachA_detachB (h : s.pcLcu = .detach) :
    detachA (detachB s)
      = { s with epLiveA := false, epLiveB := false, events := s.events ++ unregTrace s } := by
  have hB : detachB s = unregisterLive .b s := if_pos h
  have hA : detachA (unregisterLive .b s) = unregisterLive .a (unregisterLive .b s) :=
    if_pos (by simpa [unregisterLive_eq] using h)
  rw [hB, hA, unregisterLive_eq .a, unregisterLive_eq .b, unregTrace, ← List.append_assoc]
  rfl

theorem detachEnd_waits (h : s.lock = .bsq) : detachEnd s = s := by
  simp [detachEnd, State.lockOpenToLcu, h]

theorem detachEnd_destroys (hp : s.pcLcu = .detach) (hA : s.epLiveA = false) (hB : s.epLiveB = false)
    (hk : s.lock ≠ .bsq) :
    detachEnd s = lcuRespond okWord
      { release (destroyInstance { s with lock := .lcu }) with lc := .detached, pcLcu := .idle } :=
  if_pos ⟨hp, hA, hB, by simpa [State.lockOpenToLcu] using hk⟩

/-- With both endpoints dead the next move of LCU in `L_DETACH` is the last one. -/
theorem lcuMove_detachEnd (hp : s.pcLcu = .detach) (hA : s.epLiveA = false) (hB : s.epLiveB = false) :
    lcuMove s = .next (detachEnd s) := by
  simp [lcuMove, hp, hA, hB]

theorem exec_detach_waits (x : BitVec 24) (hr : s.lcuReady = true) (hd : s.lc ≠ .detached) (hk : s.lock = .bsq) :
    exec (.detach x) s = .next (s.detachWaiting (encodeWord (.detach x))) := by
  rw [exec, execDetach, if_pos hr, beginDetach_enters _ hd, runDetach, detachA_detachB rfl]
  exact congrArg _ (detachEnd_waits hk)

end Sys2Proof.Machine

namespace Sys2Proof.Proofs

open Sys2Proof.Machine

/-- Settles O49: DETACH ends waiting in `L_DETACH`, where LCU's move does nothing while BSQ holds the lock and destroys the
instance once the lock is free. -/
theorem detachWaitsForTheTransferInFlight : Obligations.DetachWaitsForTheTransferInFlight := by
  intro x s hr hd hk
  have hwait : lcuMove (s.detachWaiting (encodeWord (.detach x))) = .next (s.detachWaiting (encodeWord (.detach x))) := by
    rw [lcuMove_detachEnd rfl rfl rfl, detachEnd_waits (s := s.detachWaiting _) hk]
  have hend : ∃ u, lcuMove { s.detachWaiting (encodeWord (.detach x)) with lock := .free } = .next u ∧ u.inst = false
      ∧ u.curPage = .unknown ∧ u.lc = .detached ∧ u.lock = .free ∧ u.pcLcu = .idle := by
    rw [lcuMove_detachEnd rfl rfl rfl, detachEnd_destroys rfl rfl rfl (by simp)]
    exact ⟨_, rfl, rfl, rfl, rfl, rfl, rfl⟩
  exact ⟨_, unregTrace s, exec_detach_waits x hr hd hk, rfl, fun _ => unreg_mem_unregTrace,
    rfl, rfl, rfl, rfl, hk, rfl, rfl, hwait, hend⟩

end Sys2Proof.Proofs
end

section
/-! PROOF. The two directions of the code (30 R81 to R103). A word is the join of its fields (`place_join`, `place_self`), so
the decoder, told field by field (`decodeCommand_cases`), and the encoder undo each other. -/

namespace Sys2Proof

/-! ### Fields side by side -/

/-- Two neighbouring fields of a word, each at its place, are one field. -/
theorem place_join {n : Nat} (w : BitVec n) {lo hi m k : Nat} (h : hi = lo + m) :
    place n hi (w.extractLsb' hi k) ||| place n lo (w.extractLsb' lo m) = place n lo (w.extractLsb' lo (m + k)) := by
  subst h
  ext i hi
  simp only [place, BitVec.getElem_or, BitVec.getElem_shiftLeft, BitVec.getElem_setWidth, BitVec.getLsbD_extractLsb']
  grind

/-- A field joins one above it across a gap of zeros. -/
theorem place_join_gap {n : Nat} (w : BitVec n) {lo mid hi m g k : Nat} (hg : w.extractLsb' mid g = 0)
    (h1 : hi = mid + g) (h2 : mid = lo + m) :
    place n hi (w.extractLsb' hi k) ||| place n lo (w.extractLsb' lo m) = place n lo (w.extractLsb' lo (m + (g + k))) := by
  rw [← place_join w h2, ← place_join w h1, hg]
  simp [place]

/-- The only field of a word is the word. -/
@[simp] theorem place_self {n : Nat} (w : BitVec n) : place n 0 w = w := by simp [place]

theorem place_whole {n m : Nat} (w : BitVec n) (h : m = n) : place n 0 (w.extractLsb' 0 m) = w := by
  subst h
  simp

@[simp] theorem place_zero (n lo m : Nat) : place n lo (0#m) = 0 := by simp [place]

theorem bitVec_eq_ofNat_of_toNat {n k : Nat} {v : BitVec n} (h : v.toNat = k) : v = BitVec.ofNat n k := by
  rw [← h, BitVec.ofNat_toNat, BitVec.setWidth_eq]

/-! ### The decoder of commands, field by field -/

/-- The fields of a word that the decoder accepts, by its operation. -/
theorem decodeCommand_cases {w : Word} {i : Instr} (h : decodeCommand w = .ok i) :
    fieldRsv w = 0 ∧
      ((fieldOp w = 1#4 ∧ i = .ensurePage (fieldPg w)
          (place 22 16 (w.extractLsb' 22 6) ||| place 22 0 (w.extractLsb' 0 16)))
      ∨ (fieldOp w = 2#4 ∧ i = .softReset (place 24 18 (w.extractLsb' 22 6) ||| place 24 0 (w.extractLsb' 0 18)))
      ∨ (fieldOp w = 3#4 ∧ i = .xferWr (endpointOfBit (fieldEp w)) (fieldLen w).toNat (boolOfBit (fieldDv w))
          (fieldAddr w) (fieldData w) (w.extractLsb' 16 2))
      ∨ (fieldOp w = 4#4 ∧ i = .xferRd (endpointOfBit (fieldEp w)) (fieldLen w).toNat
          (place 19 18 (w.extractLsb' 22 1) ||| place 19 0 (w.extractLsb' 0 18)))
      ∨ (fieldOp w = 5#4 ∧ i = .attach (boolOfBit (fieldRstp w)) (place 23 17 (w.extractLsb' 22 6)
          ||| place 23 16 (w.extractLsb' 17 1) ||| place 23 0 (w.extractLsb' 0 16)))
      ∨ (fieldOp w = 6#4 ∧ i = .detach (place 24 18 (w.extractLsb' 22 6) ||| place 24 0 (w.extractLsb' 0 18)))) := by
  unfold decodeCommand at h
  split at h
  · cases h
  · rename_i hr
    refine ⟨not_not.1 hr, ?_⟩
    split at h <;> cases h <;> simp [bitVec_eq_ofNat_of_toNat ‹_›]

/-- 30 R88: which words the decoder refuses. -/
theorem decodeCommand_error_iff (w : Word) :
    (∃ e, decodeCommand w = .error e) ↔ (fieldOp w = 0 ∨ 7 ≤ (fieldOp w).toNat ∨ fieldRsv w ≠ 0) := by
  have h0 : fieldOp w = 0 ↔ (fieldOp w).toNat = 0 := BitVec.toNat_inj.symm
  rw [h0]
  unfold decodeCommand
  by_cases hr : fieldRsv w = 0
  · rw [if_neg (not_not.2 hr)]
    split
    case h_7 =>
      have hop : (fieldOp w).toNat = 0 ∨ 7 ≤ (fieldOp w).toNat := by grind
      simp [hr, hop]
    all_goals simp [*]
  · rw [if_pos hr]
    exact ⟨fun _ => .inr (.inr hr), fun _ => ⟨_, rfl⟩⟩

/-! ### The encoder of commands -/

theorem decodeCommand_encodeWord_ensurePage (p : Page) (x : BitVec 22) :
    decodeCommand (encodeWord (.ensurePage p x)) = .ok (.ensurePage p x) := by
  obtain ⟨hop, hrsv⟩ := Prod.mk.inj (Laws.Spelled.ensurePage p x)
  simp only [decodeCommand, hop, hrsv]
  simp (disch := omega) [encodeWord, fieldPg, extract_or, extract_place_same, extract_place_disjoint, place_join]

theorem decodeCommand_encodeWord_softReset (x : BitVec 24) :
    decodeCommand (encodeWord (.softReset x)) = .ok (.softReset x) := by
  obtain ⟨hop, hrsv⟩ := Prod.mk.inj (Laws.Spelled.softReset x)
  simp only [decodeCommand, hop, hrsv]
  simp (disch := omega) [encodeWord, extract_or, extract_place_same, extract_place_disjoint, place_join]

theorem decodeCommand_encodeWord_xferWr (ep : Endpoint) {len : Nat} (h : LenEncodable len) (dv : Bool) (addr data : Byte)
    (x : BitVec 2) :
    decodeCommand (encodeWord (.xferWr ep len dv addr data x)) = .ok (.xferWr ep len dv addr data x) := by
  obtain ⟨hop, hrsv⟩ := Prod.mk.inj (Laws.Spelled.xferWr ep len dv addr data x)
  simp only [decodeCommand, hop, hrsv]
  simp (disch := omega) [encodeWord, fieldEp, fieldLen, fieldDv, fieldAddr, fieldData, extract_or, extract_place_same,
    extract_place_disjoint, endpointOfBit_bit, boolOfBit_bitOfBool, Nat.mod_eq_of_lt h]

theorem decodeCommand_encodeWord_xferRd (ep : Endpoint) {len : Nat} (h : LenEncodable len) (x : BitVec 19) :
    decodeCommand (encodeWord (.xferRd ep len x)) = .ok (.xferRd ep len x) := by
  obtain ⟨hop, hrsv⟩ := Prod.mk.inj (Laws.Spelled.xferRd ep len x)
  simp only [decodeCommand, hop, hrsv]
  simp (disch := omega) [encodeWord, fieldEp, fieldLen, extract_or, extract_place_same, extract_place_disjoint,
    place_join, endpointOfBit_bit, Nat.mod_eq_of_lt h]

theorem decodeCommand_encodeWord_attach (r : Bool) (x : BitVec 23) :
    decodeCommand (encodeWord (.attach r x)) = .ok (.attach r x) := by
  obtain ⟨hop, hrsv⟩ := Prod.mk.inj (Laws.Spelled.attach r x)
  simp only [decodeCommand, hop, hrsv]
  simp (disch := omega) [encodeWord, fieldRstp, extract_or, extract_place_same, extract_place_disjoint, place_join,
    boolOfBit_bitOfBool]

theorem decodeCommand_encodeWord_detach (x : BitVec 24) :
    decodeCommand (encodeWord (.detach x)) = .ok (.detach x) := by
  obtain ⟨hop, hrsv⟩ := Prod.mk.inj (Laws.Spelled.detach x)
  simp only [decodeCommand, hop, hrsv]
  simp (disch := omega) [encodeWord, extract_or, extract_place_same, extract_place_disjoint, place_join]

/-- The word of a command decodes to it. -/
theorem decodeCommand_encodeWord {i : Instr} (hw : i.WellFormed) (hc : Machine.isCommand i = true) :
    decodeCommand (encodeWord i) = .ok i := by
  cases i with
  | ensurePage p x => exact decodeCommand_encodeWord_ensurePage p x
  | softReset x => exact decodeCommand_encodeWord_softReset x
  | xferWr ep len dv addr data x => exact decodeCommand_encodeWord_xferWr ep hw dv addr data x
  | xferRd ep len x => exact decodeCommand_encodeWord_xferRd ep hw x
  | attach r x => exact decodeCommand_encodeWord_attach r x
  | detach x => exact decodeCommand_encodeWord_detach x
  | busWr a v => cases hc
  | busRd a => cases hc

/-- A word that decodes is spelled by what it decodes to. -/
theorem encodeWord_of_decodeCommand {w : Word} {i : Instr} (h : decodeCommand w = .ok i) : encodeWord i = w := by
  obtain ⟨hrsv, ⟨hop, rfl⟩ | ⟨hop, rfl⟩ | ⟨hop, rfl⟩ | ⟨hop, rfl⟩ | ⟨hop, rfl⟩ | ⟨hop, rfl⟩⟩ := decodeCommand_cases h
  all_goals
    rw [encodeWord, ← hop]
    simp (disch := omega) only [fieldOp, fieldPg, fieldEp, fieldLen, fieldDv, fieldAddr, fieldData, fieldRstp, extract_or,
      extract_place_same, extract_place_disjoint, bit_endpointOfBit, bitOfBool_boolOfBit, BitVec.ofNat_toNat,
      BitVec.setWidth_eq, BitVec.ofNat_eq_ofNat, BitVec.or_zero, BitVec.zero_or, place_join, place_join_gap w hrsv, place_whole]

/-- A word that decodes gives a length of four bits. -/
theorem wellFormed_of_decodeCommand {w : Word} {i : Instr} (h : decodeCommand w = .ok i) : i.WellFormed := by
  obtain ⟨-, ⟨-, rfl⟩ | ⟨-, rfl⟩ | ⟨-, rfl⟩ | ⟨-, rfl⟩ | ⟨-, rfl⟩ | ⟨-, rfl⟩⟩ := decodeCommand_cases h
  case inr.inr.inl => exact (fieldLen w).isLt
  case inr.inr.inr.inl => exact (fieldLen w).isLt
  all_goals trivial

theorem isCommand_of_decodeCommand {w : Word} {i : Instr} (h : decodeCommand w = .ok i) : Machine.isCommand i = true := by
  obtain ⟨-, ⟨-, rfl⟩ | ⟨-, rfl⟩ | ⟨-, rfl⟩ | ⟨-, rfl⟩ | ⟨-, rfl⟩ | ⟨-, rfl⟩⟩ := decodeCommand_cases h <;> rfl

theorem encode_of_isCommand {i : Instr} (h : Machine.isCommand i = true) : encode i = .command (encodeWord i) := by
  cases i
  case busWr => cases h
  case busRd => cases h
  all_goals rfl

/-! ### Frames -/

/-- The first byte of a frame is its direction bit and its address. -/
theorem frameByte_of_msb (b : Byte) : frameByte b.msb (b.extractLsb' 0 7) = b := by
  revert b
  decide

/-- What the decoder of frames accepts: a whole frame, with the bytes after it. -/
theorem decodeFrame_ok {bs rest : List Byte} {i : Instr} (h : decodeFrame bs = .ok (i, rest)) :
    bs = encodeFrame i ++ rest ∧ encode i = .frame (encodeFrame i) ∧ i.WellFormed := by
  unfold decodeFrame at h
  split at h
  · cases h
  next b tail =>
    have hb := frameByte_of_msb b
    split at h
    next hm =>
      rw [hm] at hb
      cases tail <;> cases h
      exact ⟨by simp [encodeFrame, hb], rfl, trivial⟩
    next hm =>
      rw [Bool.eq_not.2 hm] at hb
      cases h
      exact ⟨by simp [encodeFrame, hb], rfl, trivial⟩

/-- The decoder of frames reads a frame back, whatever bytes follow it. -/
theorem decodeFrame_busWr (a : RegAddr) (v : Byte) (rest : List Byte) :
    decodeFrame (encodeFrame (.busWr a v) ++ rest) = .ok (.busWr a v, rest) := by
  simp [decodeFrame, encodeFrame, frameByte_msb, frameByte_low]

theorem decodeFrame_busRd (a : RegAddr) (rest : List Byte) :
    decodeFrame (encodeFrame (.busRd a) ++ rest) = .ok (.busRd a, rest) := by
  simp [decodeFrame, encodeFrame, frameByte_msb, frameByte_low]

/-! ### Words and frames -/

theorem decode_encode {i : Instr} (hw : i.WellFormed) : decode (encode i) = .ok i := by
  by_cases hc : Machine.isCommand i = true
  · rw [encode_of_isCommand hc]
    exact decodeCommand_encodeWord hw hc
  · cases i with
    | busWr a v =>
      have h := decodeFrame_busWr a v []
      simp only [List.append_nil] at h
      simp [encode, decode, h]
    | busRd a =>
      have h := decodeFrame_busRd a []
      simp only [List.append_nil] at h
      simp [encode, decode, h]
    | _ => exact absurd rfl hc

theorem encode_of_decode {c : Code} {i : Instr} (h : decode c = .ok i) : encode i = c ∧ i.WellFormed := by
  cases c with
  | command w =>
    exact ⟨by rw [encode_of_isCommand (isCommand_of_decodeCommand h), encodeWord_of_decodeCommand h],
      wellFormed_of_decodeCommand h⟩
  | frame bs =>
    simp only [decode] at h
    split at h
    next => cases h
    next hd =>
      cases h
      obtain ⟨hbs, henc, hwf⟩ := decodeFrame_ok hd
      exact ⟨by simp [henc, hbs], hwf⟩
    next => cases h

/-! ### The assembler (30 R106) -/

/-- The word of a line is the word of the command it names. -/
theorem assemble_eq (line : Asm) : assemble line = encodeWord line.instr := by
  have hop : 0x30400000#32 = place 32 28 3#4 ||| place 32 22 (bitOfBool true) := by decide
  have hdv : ∀ o l e d : Word, o ||| d ||| l ||| e = o ||| l ||| e ||| d := fun o l e d => by ac_rfl
  cases line with
  | xferWr ep len addr data =>
    cases data with
    | none => simp [assemble, Asm.instr, encodeWord, bitOfBool, place]
    | some v =>
      simp only [Asm.instr, encodeWord, assemble, BitVec.ofNat_toNat, BitVec.setWidth_eq, BitVec.ofNat_eq_ofNat, place_zero,
        BitVec.or_zero]
      rw [hop, hdv (place 32 28 3#4)]
  | attach r => cases r <;> decide
  | _ => simp [assemble, Asm.instr, encodeWord, place]

theorem wellFormed_instr (line : Asm) : line.instr.WellFormed := by
  cases line with
  | xferWr ep len addr data => cases data <;> exact len.isLt
  | xferRd ep len => exact len.isLt
  | _ => trivial

theorem isCommand_instr (line : Asm) : Machine.isCommand line.instr = true := by
  cases line with
  | xferWr ep len addr data => cases data <;> rfl
  | _ => rfl

end Sys2Proof

namespace Sys2Proof.Proofs

open Sys2Proof.Machine

/-- Settles O1, field by field for a command and byte by byte for a frame (`decode_encode`). -/
theorem decodeOfEncodeIsTheInstruction : Obligations.DecodeOfEncodeIsTheInstruction :=
  fun _ hw => decode_encode hw

/-- Settles O2: the fields of an accepted word, joined, are the word (`encode_of_decode`). -/
theorem encodeOfDecodeIsTheCode : Obligations.EncodeOfDecodeIsTheCode :=
  fun _ _ h => encode_of_decode h

/-- Settles O4: each word is decoded. -/
theorem spelledWordsDecode : Obligations.SpelledWordsDecode := by
  refine ⟨?_, ?_, ?_, ?_, ?_, ?_, fun _ => ⟨?_, ?_⟩⟩ <;> decide

/-- Settles O5: the word of a line is the encoding of its command, and that decodes to it. -/
theorem assembledLineDecodes : Obligations.AssembledLineDecodes := fun line => by
  rw [assemble_eq]
  exact decodeCommand_encodeWord (wellFormed_instr line) (isCommand_instr line)

/-- Settles O6 by the two fields of a frame's first byte. -/
theorem frameBytesOfExchanges : Obligations.FrameBytesOfExchanges := by
  intro a v
  have hbit : ∀ d, (frameByte d a).getLsbD 7 = d := fun d => by
    simpa [BitVec.msb_eq_getLsbD_last] using frameByte_msb d a
  have hlow : ∀ d, (frameByte d a).setWidth 7 = a := fun d => by
    rw [BitVec.setWidth_eq_extractLsb' (by omega), frameByte_low]
  exact ⟨⟨_, rfl, hbit _, hlow _⟩, ⟨_, rfl, hbit _, hlow _⟩⟩

/-- Settles O7: each field of a response is read back as it was put, for each kind of error. -/
theorem errorResponseFields : Obligations.ErrorResponseFields := by
  intro e c v ph
  cases e <;> simp +contextual [CmdError.word, responseWord_fields, bitOfBool]

/-- Settles O8: each parameter and each value made from them is computed. -/
theorem windowsAndMasks : Obligations.WindowsAndMasks := by
  have hcs : bitMask Config.hw.csBit = 0x01#8 := by decide
  have hcs' : ~~~bitMask Config.hw.csBit = 0xFE#8 := by decide
  have hval : ∀ c : Byte, csAssertValue c = c ||| 0x01 ∧ csDeassertValue c = c &&& 0xFE := fun c => by
    rw [csAssertValue, csDeassertValue, hcs', hcs]
    exact ⟨rfl, rfl⟩
  unfold Obligations.WindowsAndMasks
  refine ⟨?_, ?_, ?_, ?_, ?_, ?_, ?_, ?_, ?_, ?_, ?_, ?_, ?_, ?_, ?_, ?_, ?_, ?_, ?_, ?_, ?_, ?_, ?_, ?_, ?_, ?_, ?_, ?_, ?_,
    ?_, ?_, ?_, ?_, ?_, ?_, ?_, ?_, ?_, ?_, ?_, ?_, ?_, ?_, ?_, ?_, ?_, ?_, ?_, ?_, ?_, ?_, hval⟩ <;> decide

end Sys2Proof.Proofs
end

section
/-! PROOF. What a step does on each choice (log 2), said once: a step runs a well-formed instruction, answers an illegal word,
hands a command over, moves an agent, or leaves the block as it is (`step_shape`). -/

namespace Sys2Proof.Machine

/-! ### The choice a step makes -/

section Fetch
variable {s : State}

theorem fetch_turn {t : Turn} {ts : List Turn} (hb : s.busPort = []) (ht : s.turns = t :: ts) :
    fetch s = takeTurn t { s with turns := ts } := by
  simp [fetch, hb, ht]

theorem fetch_default (hb : s.busPort = []) (ht : s.turns = []) : fetch s = defaultTurn s := by
  simp [fetch, hb, ht]

theorem fetch_frame {i : Instr} {rest : List Byte} (h : decodeFrame s.busPort = .ok (i, rest)) :
    fetch s = .run i { s with busPort := rest } := by
  cases hb : s.busPort with
  | nil => simp [hb, decodeFrame] at h
  | cons b bs =>
    rw [hb] at h
    simp [fetch, hb, h]

theorem fetch_halfFrame {b : Byte} {bs : List Byte} {e : DecodeError} (hb : s.busPort = b :: bs)
    (h : decodeFrame s.busPort = .error e) : fetch s = .stay (.refused .incompleteFrame) := by
  rw [hb] at h
  simp [fetch, hb, h]

theorem serve_none {k : Nat} (h : s.cmd[k]? = none) : serve k s = .stay (.next s) := by
  simp [serve, h]

theorem serve_illegal {k : Nat} {w : Word} {e : DecodeError} (h : s.cmd[k]? = some w) (he : decodeCommand w = .error e) :
    serve k s = .stay (.next (respondIllegal { s with cmd := s.cmd.eraseIdx k })) := by
  simp [serve, h, he]

theorem serve_legal {k : Nat} {w : Word} {i : Instr} (h : s.cmd[k]? = some w) (hi : decodeCommand w = .ok i) :
    serve k s = .run i { s with cmd := s.cmd.eraseIdx k } := by
  simp [serve, h, hi]

theorem start_none {k : Nat} (h : s.cmd[k]? = none) : start k s = .next s := by
  simp [start, h]

theorem start_illegal {k : Nat} {w : Word} {e : DecodeError} (h : s.cmd[k]? = some w) (he : decodeCommand w = .error e) :
    start k s = .next (respondIllegal { s with cmd := s.cmd.eraseIdx k }) := by
  simp [start, h, he]

theorem start_legal {k : Nat} {w : Word} {i : Instr} (h : s.cmd[k]? = some w) (hi : decodeCommand w = .ok i) :
    start k s = if canBegin i { s with cmd := s.cmd.eraseIdx k } then .next (begin i { s with cmd := s.cmd.eraseIdx k })
      else .next s := by
  simp [start, h, hi]

/-- The step that serves a waiting command. -/
theorem step_serve_legal {k : Nat} {ts : List Turn} {w : Word} {i : Instr} (hb : s.busPort = [])
    (ht : s.turns = .serve k :: ts) (h : s.cmd[k]? = some w) (hi : decodeCommand w = .ok i) :
    step s = exec i { s with turns := ts, cmd := s.cmd.eraseIdx k } := by
  rw [step, fetch_turn hb ht, takeTurn, serve_legal (s := { s with turns := ts }) h hi]

/-- The step that hands a waiting command to its agent, which can take it. -/
theorem step_start_legal {k : Nat} {ts : List Turn} {w : Word} {i : Instr} (hb : s.busPort = [])
    (ht : s.turns = .start k :: ts) (h : s.cmd[k]? = some w) (hi : decodeCommand w = .ok i)
    (hc : canBegin i { s with turns := ts, cmd := s.cmd.eraseIdx k } = true) :
    step s = .next (begin i { s with turns := ts, cmd := s.cmd.eraseIdx k }) := by
  rw [step, fetch_turn hb ht, takeTurn, start_legal (s := { s with turns := ts }) h hi]
  exact if_pos hc

theorem step_frame {i : Instr} {rest : List Byte} (h : decodeFrame s.busPort = .ok (i, rest)) :
    step s = exec i { s with busPort := rest } := by
  rw [step, fetch_frame h]

/-- An illegal word is answered, and no register of the block is written (30 R88). -/
theorem respondIllegal_eq (s : State) : respondIllegal s = { s with events := s.events ++ [.resp 0x00000008] } := by
  have hw : CmdError.illegalCommand.word = 0x00000008 := by decide
  rw [respondIllegal, hw, State.emit]

end Fetch

/-! ### Every instruction answers a next state -/

theorem exec_next (i : Instr) (s : State) : ∃ t, exec i s = .next t := by
  cases i <;> exact ⟨_, rfl⟩

/-- A command whose agent cannot take it waits on CMD (30 R96). -/
theorem exec_busy {i : Instr} {s : State} (hi : isCommand i = true) (hc : canBegin i s = false) :
    exec i s = .next (s.enqueue (encodeWord i)) := by
  cases i
  case busWr => cases hi
  case busRd => cases hi
  all_goals exact congrArg Host.Outcome.next (if_neg (ne_true_of_eq_false hc))

/-- What a command does after its agent has taken it, up to its response. -/
def runOut (i : Instr) (s : State) : State :=
  match i with
  | .ensurePage p _ => pageOp p s
  | .softReset _ => srstOp s
  | .xferWr ep _ dv addr data _ => runXferWr ep dv addr data s
  | .xferRd ep len _ => runXferRd ep len s
  | .attach _ _ => runAttach s
  | .detach _ => runDetach s
  | .busWr _ _ => s
  | .busRd _ => s

/-- A command served whole is taken by its agent and then run out. -/
theorem exec_taken {i : Instr} {s : State} (hc : canBegin i s = true) : exec i s = .next (runOut i (begin i s)) := by
  cases i
  case busWr => cases hc
  case busRd => cases hc
  all_goals exact congrArg Host.Outcome.next (if_pos hc)

/-! ### The shape of a step -/

/-- `s` with its open choices, its waiting commands and its BUS port replaced. -/
def State.withPorts (ts : List Turn) (ws : List Word) (bs : List Byte) (s : State) : State :=
  { s with turns := ts, cmd := ws, busPort := bs }

/-- What a step can be. -/
inductive StepShape (s : State) : Result → Prop
  | run (i : Instr) (ts : List Turn) (ws : List Word) (bs : List Byte) (hi : i.WellFormed) :
      StepShape s (exec i (s.withPorts ts ws bs))
  | illegal (ts : List Turn) (ws : List Word) (bs : List Byte) :
      StepShape s (.next (respondIllegal (s.withPorts ts ws bs)))
  | taken (i : Instr) (ts : List Turn) (ws : List Word) (bs : List Byte) (hi : i.WellFormed)
      (hc : canBegin i (s.withPorts ts ws bs) = true) : StepShape s (.next (begin i (s.withPorts ts ws bs)))
  | lcu (ts : List Turn) : StepShape s (lcuMove (s.withPorts ts s.cmd s.busPort))
  | bsq (ts : List Turn) : StepShape s (bsqMove (s.withPorts ts s.cmd s.busPort))
  | stay (ts : List Turn) : StepShape s (.next (s.withPorts ts s.cmd s.busPort))
  | halfFrame (hb : s.busPort ≠ []) (h : ∃ e, decodeFrame s.busPort = .error e) : StepShape s (.refused .incompleteFrame)

/-- What is done with the next choice. -/
def Next.result : Next → Result
  | .run i t => exec i t
  | .stay r => r

theorem step_eq (s : State) : step s = (fetch s).result := by
  rw [step]
  cases fetch s <;> rfl

theorem serve_shape (k : Nat) (ts : List Turn) (s : State) :
    StepShape s (serve k (s.withPorts ts s.cmd s.busPort)).result := by
  cases hk : s.cmd[k]? with
  | none => rw [serve_none (s := s.withPorts ts s.cmd s.busPort) hk]; exact .stay ts
  | some w =>
    cases hd : decodeCommand w with
    | error e => rw [serve_illegal (s := s.withPorts ts s.cmd s.busPort) hk hd]; exact .illegal ts _ _
    | ok i => rw [serve_legal (s := s.withPorts ts s.cmd s.busPort) hk hd]; exact .run i ts _ _ (wellFormed_of_decodeCommand hd)

theorem start_shape (k : Nat) (ts : List Turn) (s : State) :
    StepShape s (start k (s.withPorts ts s.cmd s.busPort)) := by
  cases hk : s.cmd[k]? with
  | none => rw [start_none (s := s.withPorts ts s.cmd s.busPort) hk]; exact .stay ts
  | some w =>
    cases hd : decodeCommand w with
    | error e => rw [start_illegal (s := s.withPorts ts s.cmd s.busPort) hk hd]; exact .illegal ts _ _
    | ok i =>
      rw [start_legal (s := s.withPorts ts s.cmd s.busPort) hk hd]
      split
      · exact .taken i ts _ _ (wellFormed_of_decodeCommand hd) ‹_›
      · exact .stay ts

theorem defaultTurn_shape (s : State) : StepShape s (defaultTurn s).result := by
  unfold defaultTurn
  split
  · exact .bsq s.turns
  · split
    · exact .lcu s.turns
    · exact serve_shape 0 s.turns s

theorem step_shape (s : State) : StepShape s (step s) := by
  rw [step_eq]
  cases hb : s.busPort with
  | nil =>
    cases ht : s.turns with
    | nil => rw [fetch_default hb ht]; exact defaultTurn_shape s
    | cons t ts =>
      rw [fetch_turn hb ht]
      cases t with
      | serve k => exact serve_shape k ts s
      | start k => exact start_shape k ts s
      | lcu => exact .lcu ts
      | bsq => exact .bsq ts
  | cons b bs =>
    cases hd : decodeFrame s.busPort with
    | error e => rw [fetch_halfFrame hb hd]; exact .halfFrame (by simp [hb]) ⟨e, hd⟩
    | ok r =>
      obtain ⟨i, rest⟩ := r
      rw [fetch_frame hd]
      exact .run i s.turns s.cmd rest (decodeFrame_ok hd).2.2

/-! ### The row placed by `withFetchWord` -/

theorem toOption_eq_some {ε α : Type} {r : Except ε α} {a : α} (h : r.toOption = some a) : r = .ok a := by
  cases r <;> cases h
  rfl

/-- Exactly one frame is a frame with no byte after it. -/
theorem decodeFrame_of_decode {bs : List Byte} {i : Instr} (h : decode (.frame bs) = .ok i) :
    decodeFrame bs = .ok (i, []) := by
  simp only [decode] at h
  split at h <;> cases h
  assumption

end Sys2Proof.Machine

namespace Sys2Proof.Proofs

open Sys2Proof.Machine

/-- Settles O3: the decoder's refusals by field, and the answer whether the word is served or only taken. -/
theorem illegalWordsAreAnsweredAtOnce : Obligations.IllegalWordsAreAnsweredAtOnce := by
  refine ⟨decodeCommand_error_iff, ?_⟩
  rintro w s k ts ⟨e, he⟩ hb hk (ht | ht)
  · rw [step, fetch_turn hb ht, takeTurn, serve_illegal (s := { s with turns := ts }) hk he]
    exact congrArg _ (respondIllegal_eq _)
  · rw [step, fetch_turn hb ht, takeTurn, start_illegal (s := { s with turns := ts }) hk he]
    exact congrArg _ (respondIllegal_eq _)

/-- Settles O9 by the two ways a step fetches an instruction. -/
theorem stepRunsTheServedInstruction : Obligations.StepRunsTheServedInstruction :=
  ⟨fun _ _ _ _ _ hb ht hk hi => step_serve_legal hb ht hk hi, fun _ _ _ h => step_frame h⟩

/-- Settles O10: in a quiet block no agent moves on, so the first command is served. -/
theorem quietStepServesTheFirstCommand : Obligations.QuietStepServesTheFirstCommand := by
  rintro s w ws i ⟨hbsq, hlcu, -, hb⟩ ht hc hi
  have hidle : s.pcBsq = .idle ∧ s.bsqWaits = false := by simpa [State.bsqFree] using hbsq
  have hserve : defaultTurn s = serve 0 s := by simp [defaultTurn, hidle, hlcu]
  rw [step, fetch_default hb ht, hserve, serve_legal (k := 0) (w := w) (by simp [hc]) hi, hc]
  rfl

/-- Settles O11: a placed word is the first on CMD and is served; a placed frame is exchanged first. -/
theorem stepRunsThePlacedRow : Obligations.StepRunsThePlacedRow := by
  intro s nbits w i h
  unfold decodeTableWord at h
  split at h
  · exact step_serve_legal (s := s.withFetchWord 32 w) (k := 0) (ts := s.turns) (w := BitVec.ofNat 32 w) rfl rfl rfl
      (toOption_eq_some h)
  · exact step_frame (decodeFrame_of_decode (toOption_eq_some h))
  · exact step_frame (decodeFrame_of_decode (toOption_eq_some h))
  · cases h

/-- Settles O12. -/
theorem commandOfABusyAgentWaits : Obligations.CommandOfABusyAgentWaits :=
  fun _ _ hi hc => exec_busy hi hc

/-- Settles O13: each reset value is read off `State.reset`. -/
theorem resetValuesOfTheBlock : Obligations.ResetValuesOfTheBlock :=
  ⟨rfl, rfl, rfl, rfl, rfl, rfl, rfl, rfl, rfl, rfl, rfl, rfl, rfl, rfl, rfl, rfl⟩

end Sys2Proof.Proofs
end

section
/-! PROOF. Every step keeps the invariant, and none stops: the invariant of each operation (Laws/Invariant) put together along
`step_shape`. -/

namespace Sys2Proof.Machine

/-! ### The moves of BSQ -/

/-- BSQ in mid-command has in `REQ` a command on whose path it stands (10 R31). -/
theorem State.Inv.onPath {s : State} (h : s.Inv) (hf : s.bsqFree = false) :
    ∃ i, OnPath i s ∧ bsqOnPath i s.pcBsq = true := by
  obtain ⟨-, -, -, -, hreq, -, -⟩ := h
  have hbusy : s.pcBsq ≠ .idle ∨ s.bsqWaits = true := by
    by_contra hc
    simp_all [State.bsqFree]
  obtain ⟨w, hw, hp⟩ := Option.map_eq_some_iff.1 (hreq hbusy)
  unfold reqOnPath at hp
  cases hd : decodeCommand w with
  | error e => simp [hd] at hp
  | ok i => exact ⟨i, ⟨w, hw, hd⟩, by simpa [hd] using hp⟩

theorem bsqMove_free {s : State} (hf : s.bsqFree = true) : bsqMove s = .next s := if_pos hf

/-- A move of BSQ that does not stop performs the actions of its sequencer state. -/
theorem bsqMove_onPath {s : State} {i : Instr} (hf : s.bsqFree = false) (ho : OnPath i s)
    (hp : bsqOnPath i s.pcBsq = true) (hr : s.pcBsq = .done ∨ s.pcBsq = .failed → s.respBsq ≠ none) :
    bsqMove s = .next (bsqActions i s) := by
  obtain ⟨w, hw, hd⟩ := ho
  have hr' : ¬ ((s.pcBsq = .done ∨ s.pcBsq = .failed) ∧ s.respBsq = none) := fun h => hr h.1 h.2
  simp only [bsqMove, hf, hw, hd, hp, if_neg hr']
  rfl

/-- From a state of the invariant BSQ's move does nothing or performs the actions of its sequencer state. -/
theorem State.Inv.bsqMove_eq {s : State} (h : s.Inv) :
    (s.bsqFree = true ∧ bsqMove s = .next s)
      ∨ ∃ i, OnPath i s ∧ bsqOnPath i s.pcBsq = true ∧ bsqMove s = .next (bsqActions i s) := by
  cases hf : s.bsqFree with
  | true => exact .inl ⟨rfl, bsqMove_free hf⟩
  | false =>
    obtain ⟨i, ho, hp⟩ := h.onPath hf
    have hr : s.pcBsq = .done ∨ s.pcBsq = .failed → s.respBsq ≠ none := fun hd =>
      Option.isSome_iff_ne_none.1 (h.2.2.2.2.2.2 hd)
    exact .inr ⟨i, ho, hp, bsqMove_onPath hf ho hp hr⟩

theorem lenValid_of_onPath_xferWr {ep : Endpoint} {len : Nat} {dv : Bool} {addr data : Byte} {x : BitVec 2} {pc : BsqPc}
    (hp : bsqOnPath (.xferWr ep len dv addr data x) pc = true) (hpc : pc ≠ .idle) : lenValid len = true := by
  simp_all [bsqOnPath]

theorem lenValid_of_onPath_xferRd {ep : Endpoint} {len : Nat} {x : BitVec 19} {pc : BsqPc}
    (hp : bsqOnPath (.xferRd ep len x) pc = true) (hpc : pc ≠ .idle) : lenValid len = true := by
  simp_all [bsqOnPath]


/-- The actions of BSQ's sequencer state keep the invariant. -/
theorem inv_bsqActions {s : State} {i : Instr} (h : s.Inv) (ho : OnPath i s) (hp : bsqOnPath i s.pcBsq = true) :
    (bsqActions i s).Inv := by
  unfold bsqActions
  split
  next => exact inv_enterPageCmd _ h rfl (by decide) fun _ => ho.map _
  next => exact inv_enterPageCmd _ h rfl (by decide) fun _ => ho.map _
  next => exact (inv_enterXfer _ _ h ho fun hl => by simp [bsqOnPath, hl]).1
  next => exact (inv_enterXfer _ _ h ho fun hl => by simp [bsqOnPath, hl]).1
  next => exact inv_pageOp _ h
  next => exact inv_srstOp h
  next hpc =>
    have hl := lenValid_of_onPath_xferWr hp (by simp [hpc])
    exact (inv_pageSwitching _ h ho (by simp [bsqOnPath, hl]) (by simp [bsqOnPath, hl]) rfl (by decide)).1
  next hpc =>
    have hl := lenValid_of_onPath_xferWr hp (by simp [hpc])
    exact (inv_addressPhase _ _ h ho (by simp [bsqOnPath, hl]) (by simp [bsqOnPath, hl])).1
  next hpc =>
    have hl := lenValid_of_onPath_xferWr hp (by simp [hpc])
    exact (inv_dataPhase _ _ h ho (by simp [bsqOnPath, hl]) (by simp [bsqOnPath, hl])).1
  next hpc =>
    have hl := lenValid_of_onPath_xferWr hp (by simp [hpc])
    exact (inv_csPhase _ h ho (by simp [bsqOnPath, hl])).1
  next hpc =>
    have hl := lenValid_of_onPath_xferRd hp (by simp [hpc])
    exact (inv_pageSwitching _ h ho (by simp [bsqOnPath, hl]) (by simp [bsqOnPath, hl]) rfl (by decide)).1
  next hpc =>
    have hl := lenValid_of_onPath_xferRd hp (by simp [hpc])
    exact (inv_readBack _ _ h ho (by simp [bsqOnPath, hl]) (by simp [bsqOnPath, hl])).1
  next => exact inv_bsqReply h

/-! ### The moves of LCU -/

/-- The actions of LCU's sequencer state (10 R30). -/
def lcuActions (s : State) : State :=
  match s.pcLcu with
  | .idle => attachAcquire s
  | .step1 => step1 s
  | .step2 => step2 s
  | .step3 => step3 s
  | .step4 => step4 s
  | .step5 => step5 s
  | .step6 => step6 s
  | .step7 => step7 s
  | .step8 =>
    match s.regPhase with
    | .start => step8AskA s
    | .waitA => step8AnswerA s
    | .gotA => step8AskB s
    | .waitB => step8AnswerB s
    | .gotB => step8Finish s
  | .unwind => unwind s
  | .detach => if s.epLiveB then detachB s else if s.epLiveA then detachA s else detachEnd s

/-- LCU's move performs the actions of its sequencer state, unless it is in `L_UNWIND` without a response. -/
theorem lcuMove_eq (s : State) :
    lcuMove s = .next (lcuActions s) ∨ (s.pcLcu = .unwind ∧ s.respLcu = none ∧ lcuMove s = .fault .noValue) := by
  unfold lcuMove lcuActions
  cases hp : s.pcLcu with
  | step8 => cases s.regPhase <;> exact .inl rfl
  | unwind => cases hr : s.respLcu <;> simp
  | detach => cases s.epLiveB <;> cases s.epLiveA <;> exact .inl rfl
  | _ => exact .inl rfl

theorem State.Inv.lcuMove_eq {s : State} (h : s.Inv) : lcuMove s = .next (lcuActions s) := by
  obtain ⟨-, -, ⟨-, -, -, -, -, -, -, -, hresp⟩, -⟩ := h
  refine (Machine.lcuMove_eq s).resolve_right fun ⟨hp, hr, _⟩ => ?_
  simp [hr] at hresp
  exact hresp hp

theorem inv_lcuActions {s : State} (h : s.Inv) : (lcuActions s).Inv := by
  obtain ⟨hAskA, hAnswerA, hAskB, hAnswerB, hFinish⟩ := inv_step8 h
  unfold lcuActions
  split
  · exact inv_attachAcquire h
  · exact inv_step1 h
  · exact inv_step2 h
  · exact inv_step3 h
  · exact inv_step4 h
  · exact inv_step5 h
  · exact inv_step6 h
  · exact inv_step7 h
  · split <;> assumption
  · exact inv_unwind h
  · split
    · exact inv_detach1 .b h
    · split
      · exact inv_detach1 .a h
      · exact inv_detachEnd h

/-! ### Commands served whole -/

theorem inv_step8_whole {s : State} (h : s.Inv) : (step8 s).Inv := by
  obtain ⟨h1, -⟩ := inv_step8 h
  obtain ⟨-, h2, -⟩ := inv_step8 h1
  obtain ⟨-, -, h3, -⟩ := inv_step8 h2
  obtain ⟨-, -, -, h4, -⟩ := inv_step8 h3
  obtain ⟨-, -, -, -, h5⟩ := inv_step8 h4
  rw [step8]
  exact h5

theorem inv_runAttach {s : State} (h : s.Inv) : (runAttach s).Inv := by
  rw [runAttach]
  exact inv_unwind (inv_step8_whole (inv_step7 (inv_step6 (inv_step5 (inv_step4 (inv_step3 (inv_step2 (inv_step1 h))))))))

theorem inv_runDetach {s : State} (h : s.Inv) : (runDetach s).Inv := inv_detachEnd (inv_detach1 .a (inv_detach1 .b h))

theorem reqOnPath_encodeWord {i : Instr} (hw : i.WellFormed) (hc : isCommand i = true) (pc : BsqPc) :
    reqOnPath (encodeWord i) pc = bsqOnPath i pc := by
  simp [reqOnPath, decodeCommand_encodeWord hw hc]

theorem isCommand_of_canBegin {i : Instr} {s : State} (h : canBegin i s = true) : isCommand i = true := by
  cases i
  case busWr => cases h
  case busRd => cases h
  all_goals rfl

/-- A well-formed command that its agent takes keeps the invariant. -/
theorem inv_begin {s : State} {i : Instr} (h : s.Inv) (hw : i.WellFormed) (hc : canBegin i s = true) : (begin i s).Inv := by
  have hi := isCommand_of_canBegin hc
  have hq := reqOnPath_encodeWord hw hi
  have hd := decodeCommand_encodeWord hw hi
  cases i with
  | ensurePage p x => exact inv_beginPageCmd _ _ h hc rfl (by decide) (hq _) (hq _)
  | softReset x => exact inv_beginPageCmd _ _ h hc rfl (by decide) (hq _) (hq _)
  | xferWr ep len dv addr data x => exact (inv_beginXfer _ _ _ h hc hd rfl fun hl => by simp [bsqOnPath, hl]).1
  | xferRd ep len x => exact (inv_beginXfer _ _ _ h hc hd rfl fun hl => by simp [bsqOnPath, hl]).1
  | attach r x => exact inv_beginAttach _ _ h hc
  | detach x => exact inv_beginDetach _ h hc
  | busWr a v => exact h
  | busRd a => exact h

/-- A transfer that was taken keeps the invariant to its response. -/
theorem inv_runXferWr {s : State} {ep : Endpoint} {len : Nat} {dv : Bool} {addr data : Byte} {x : BitVec 2} (h : s.Inv)
    (ho : OnPath (.xferWr ep len dv addr data x) s) (hl : s.pcBsq ≠ .idle → lenValid len = true) :
    (runXferWr ep dv addr data s).Inv := by
  by_cases hp : s.pcBsq = .idle
  · rw [runXferWr_idle _ _ _ _ hp]
    exact h
  · have hon : ∀ pc ∈ [BsqPc.pageSwitching, .addressPhase, .dataPhase, .csPulse, .done, .failed],
        bsqOnPath (.xferWr ep len dv addr data x) pc = true := by simp [bsqOnPath, hl hp]
    obtain ⟨h1, o1⟩ := inv_pageSwitching .addressPhase h ho (hon _ (by simp)) (hon _ (by simp)) rfl (by decide)
    obtain ⟨h2, o2⟩ := inv_addressPhase ep addr h1 o1 (hon _ (by simp)) (hon _ (by simp))
    obtain ⟨h3, o3⟩ := inv_dataPhase ep (dataByte dv data) h2 o2 (hon _ (by simp)) (hon _ (by simp))
    exact inv_bsqReply (inv_csPhase ep h3 o3 (hon _ (by simp))).1

theorem inv_runXferRd {s : State} {ep : Endpoint} {len : Nat} {x : BitVec 19} (h : s.Inv)
    (ho : OnPath (.xferRd ep len x) s) (hl : s.pcBsq ≠ .idle → lenValid len = true) : (runXferRd ep len s).Inv := by
  by_cases hp : s.pcBsq = .idle
  · rw [runXferRd_idle _ _ hp]
    exact h
  · have hon : ∀ pc ∈ [BsqPc.pageSwitching, .readBack, .done, .failed], bsqOnPath (.xferRd ep len x) pc = true := by
      simp [bsqOnPath, hl hp]
    obtain ⟨h1, o1⟩ := inv_pageSwitching .readBack h ho (hon _ (by simp)) (hon _ (by simp)) rfl (by decide)
    exact inv_bsqReply (inv_readBack ep len h1 o1 (hon _ (by simp)) (hon _ (by simp))).1

theorem inv_runOut_begin {s : State} {i : Instr} (h : s.Inv) (hw : i.WellFormed) (hc : canBegin i s = true) :
    (runOut i (begin i s)).Inv := by
  have hb := inv_begin h hw hc
  have hd := decodeCommand_encodeWord hw (isCommand_of_canBegin hc)
  cases i <;> simp only [runOut]
  case ensurePage p x => exact inv_pageOp p hb
  case softReset x => exact inv_srstOp hb
  case xferWr ep len dv addr data x =>
    obtain ⟨-, ho, hl⟩ := inv_beginXfer _ ep len h hc hd rfl fun hl => by simp [bsqOnPath, hl]
    exact inv_runXferWr hb ho hl
  case xferRd ep len x =>
    obtain ⟨-, ho, hl⟩ := inv_beginXfer _ ep len h hc hd rfl fun hl => by simp [bsqOnPath, hl]
    exact inv_runXferRd hb ho hl
  case attach r x => exact inv_runAttach hb
  case detach x => exact inv_runDetach hb
  case busWr a v => exact h
  case busRd a => exact h

theorem inv_exec {s t : State} {i : Instr} (h : s.Inv) (hw : i.WellFormed) (he : exec i s = .next t) : t.Inv := by
  by_cases hi : isCommand i = true
  · cases hc : canBegin i s with
    | true =>
      rw [exec_taken hc] at he
      cases he
      exact inv_runOut_begin h hw hc
    | false =>
      rw [exec_busy hi hc] at he
      cases he
      exact inv_same h h.1 rfl rfl rfl rfl rfl rfl rfl rfl rfl rfl rfl rfl
  · cases i with
    | busWr a v => cases he; exact inv_memWrite a v h
    | busRd a => cases he; exact inv_memRead a h
    | _ => exact absurd rfl hi

/-! ### A step -/

/-- The invariant says nothing of the choices to come, the waiting commands and the BUS port. -/
theorem inv_withPorts {s : State} (ts : List Turn) (ws : List Word) (bs : List Byte) (h : s.Inv) :
    (s.withPorts ts ws bs).Inv := h

/-- A step from a state of the invariant ends in one, unless half a frame is on the BUS port. -/
theorem step_inv {s : State} (h : s.Inv) :
    (∃ t, step s = .next t ∧ t.Inv) ∨ (s.busPort ≠ [] ∧ ∃ e, decodeFrame s.busPort = .error e) := by
  have hs := step_shape s
  generalize step s = r at hs ⊢
  cases hs with
  | run i ts ws bs hi =>
    obtain ⟨t, ht⟩ := exec_next i (s.withPorts ts ws bs)
    exact .inl ⟨t, ht, inv_exec (inv_withPorts ts ws bs h) hi ht⟩
  | illegal ts ws bs => exact .inl ⟨_, rfl, inv_emit _ (inv_withPorts ts ws bs h)⟩
  | taken i ts ws bs hi hc => exact .inl ⟨_, rfl, inv_begin (inv_withPorts ts ws bs h) hi hc⟩
  | lcu ts =>
    have h' := inv_withPorts ts s.cmd s.busPort h
    exact .inl ⟨_, h'.lcuMove_eq, inv_lcuActions h'⟩
  | bsq ts =>
    have h' := inv_withPorts ts s.cmd s.busPort h
    rcases h'.bsqMove_eq with ⟨-, he⟩ | ⟨i, ho, hp, he⟩
    · exact .inl ⟨_, he, h'⟩
    · exact .inl ⟨_, he, inv_bsqActions h' ho hp⟩
  | stay ts => exact .inl ⟨_, rfl, inv_withPorts ts _ _ h⟩
  | halfFrame hb he => exact .inr ⟨hb, he⟩

end Sys2Proof.Machine

namespace Sys2Proof.Proofs

open Sys2Proof.Machine

/-- Settles O15 (`step_inv`): the half frame is refused, so no next state comes of it. -/
theorem stepKeepsTheInvariant : Obligations.StepKeepsTheInvariant := by
  intro s t h ht
  rcases step_inv h with ⟨u, hu, hinv⟩ | ⟨hb, e, he⟩
  · cases hu.symm.trans ht
    exact hinv
  · obtain ⟨b, bs, hb⟩ := List.exists_cons_of_ne_nil hb
    rw [step, fetch_halfFrame hb he] at ht
    cases ht

/-- Settles O14: reset is the state with no agent in mid-command and no endpoint live. -/
theorem resetMeetsTheInvariant : Obligations.ResetMeetsTheInvariant := by
  refine ⟨Memory.wf_nil, ?_, ?_, ?_, ?_⟩ <;>
    simp [State.reset, State.LockInv, State.LifecycleInv, State.InstanceInv, State.BsqInv, LcuPc.holdsLock, BsqPc.holdsLock]

/-- Settles O16 (`step_inv`). -/
theorem stepNeverStops : Obligations.StepNeverStops := by
  intro s h hb
  rcases step_inv h with ⟨u, hu, -⟩ | ⟨hne, e, he⟩
  · exact ⟨u, hu⟩
  · obtain hb | ⟨r, hr⟩ := hb
    · exact absurd hb hne
    · cases he.symm.trans hr

end Sys2Proof.Proofs
end

section
/-! PROOF. The lock (10 R24): an agent uses BUS, CFG, GPIO and TIMER only in its own critical section, and BSQ holds the lock
from its first sequencer state to its response (41 R165). -/

namespace Sys2Proof.Machine

/-! ### What is added to the trace -/

/-- From `s` to `t` the trace is kept, and every event added meets `P`. -/
def Adds (P : Event → Prop) (s t : State) : Prop := ∃ es, t.events = s.events ++ es ∧ ∀ e ∈ es, P e

section Adds
variable {P : Event → Prop} {s t u : State}

theorem Adds.of_eq (h : t.events = s.events) : Adds P s t := ⟨[], by simp [h], by simp⟩

theorem Adds.refl (s : State) : Adds P s s := .of_eq rfl

theorem Adds.one {e : Event} (h : t.events = s.events ++ [e]) (he : P e) : Adds P s t := ⟨[e], h, by simp [he]⟩

theorem Adds.trans (h1 : Adds P s t) (h2 : Adds P t u) : Adds P s u := by
  obtain ⟨es, he, hes⟩ := h1
  obtain ⟨fs, hf, hfs⟩ := h2
  exact ⟨es ++ fs, by simp [he, hf], fun e hm => (List.mem_append.1 hm).elim (hes e) (hfs e)⟩

theorem adds_if {p : Prop} [Decidable p] (h : p → Adds P s t) : Adds P s (if p then t else s) := by
  split
  next hp => exact h hp
  next => exact .refl s

/-- The events added are the ones the two traces tell. -/
theorem Adds.of_mem {es : List Event} {e : Event} (h : Adds P s t) (he : t.events = s.events ++ es) (hm : e ∈ es) : P e := by
  obtain ⟨fs, hf, hfs⟩ := h
  rw [List.append_cancel_left (he.symm.trans hf)] at hm
  exact hfs e hm

theorem adds_unregisterLive (ep : Endpoint) (hP : P (.unreg ep)) (s : State) : Adds P s (unregisterLive ep s) := by
  cases hl : s.live ep
  · exact .of_eq (by simp [unregisterLive_eq, hl])
  · exact .one (e := .unreg ep) (by simp [unregisterLive_eq, hl]) hP

end Adds

/-! ### The unwinding of a failed ATTACH -/

theorem eq_unreg_of_mem_unregTrace {s : State} {e : Event} (h : e ∈ unregTrace s) : ∃ ep, e = .unreg ep := by
  simp only [unregTrace, List.mem_append] at h
  rcases h with h | h <;> split at h <;> simp at h <;> exact ⟨_, h⟩

/-- What the unwinding leaves when the lock is open to LCU (42 R193). -/
def State.unwound (w : Word) (s : State) : State :=
  { s with
    curPage := .unknown
    inst := false
    lock := .free
    lc := .detached
    epLiveA := false
    epLiveB := false
    pcLcu := .idle
    respLcu := some w
    events := s.events ++ unregTrace s ++ [.resp w] }

theorem unwind_open {s : State} {w : Word} (hp : s.pcLcu = .unwind) (hl : s.lock ≠ .bsq) (hr : s.respLcu = some w) :
    unwind s = s.unwound w := by
  have ho : s.lockOpenToLcu = true := by simpa [State.lockOpenToLcu] using hl
  rw [unwind, if_pos ⟨hp, ho⟩, hr]
  simp [unregisterLive_eq, lcuRespond, State.emit, release, destroyInstance, State.unwound, unregTrace, State.live]
  rfl

/-- The unwinding does nothing, or it does all of its work. -/
theorem unwind_cases (s : State) :
    unwind s = s ∨ ∃ w, s.respLcu = some w ∧ s.lock ≠ .bsq ∧ unwind s = s.unwound w := by
  by_cases h : s.pcLcu = .unwind ∧ s.lockOpenToLcu = true
  · cases hr : s.respLcu with
    | none => exact .inl (by rw [unwind, if_pos h, hr])
    | some w =>
      have hl : s.lock ≠ .bsq := by simpa [State.lockOpenToLcu] using h.2
      exact .inr ⟨w, rfl, hl, unwind_open h.1 hl hr⟩
  · exact .inl (if_neg h)

/-! ### LCU outside its critical section -/

/-- The event needs no lock (10 R24). -/
def Event.Lockless (e : Event) : Prop := e.underLock = false

section Outside
variable (s : State)

theorem lockless_attachAcquire : Adds Event.Lockless s (attachAcquire s) := adds_if fun _ => .of_eq rfl

theorem lockless_step8AskA : Adds Event.Lockless s (step8AskA s) := adds_if fun _ => .of_eq rfl

theorem lockless_step8AskB : Adds Event.Lockless s (step8AskB s) := adds_if fun _ => .of_eq rfl

theorem lockless_step8AnswerA : Adds Event.Lockless s (step8AnswerA s) := adds_if fun _ => by
  rw [registerEp_eq]
  cases failOf (s.answer 0) <;> exact .one rfl rfl

theorem lockless_step8AnswerB : Adds Event.Lockless s (step8AnswerB s) := adds_if fun _ => by
  rw [registerEp_eq]
  cases failOf (s.answer 0) <;> exact .one rfl rfl

theorem lockless_step8Finish : Adds Event.Lockless s (step8Finish s) := adds_if fun _ => .one rfl (by rfl)

theorem lockless_unwind : Adds Event.Lockless s (unwind s) := by
  rcases unwind_cases s with h | ⟨w, -, -, h⟩ <;> rw [h]
  · exact .refl s
  · exact .trans (t := { s with events := s.events ++ unregTrace s })
      ⟨_, rfl, fun e he => by obtain ⟨ep, rfl⟩ := eq_unreg_of_mem_unregTrace he; rfl⟩ (.one rfl (by rfl))

theorem lockless_detachB : Adds Event.Lockless s (detachB s) := adds_if fun _ => adds_unregisterLive .b (by rfl) s

theorem lockless_detachA : Adds Event.Lockless s (detachA s) := adds_if fun _ => adds_unregisterLive .a (by rfl) s

theorem lockless_detachEnd : Adds Event.Lockless s (detachEnd s) := adds_if fun _ => .one rfl (by rfl)

end Outside

/-- Outside its critical section LCU uses no channel that needs the lock. -/
theorem lockless_lcuActions {s : State} (h : s.pcLcu.holdsLock = false) : Adds Event.Lockless s (lcuActions s) := by
  unfold lcuActions
  split
  next => exact lockless_attachAcquire s
  next hp => simp [hp, LcuPc.holdsLock] at h
  next hp => simp [hp, LcuPc.holdsLock] at h
  next hp => simp [hp, LcuPc.holdsLock] at h
  next hp => simp [hp, LcuPc.holdsLock] at h
  next hp => simp [hp, LcuPc.holdsLock] at h
  next hp => simp [hp, LcuPc.holdsLock] at h
  next hp => simp [hp, LcuPc.holdsLock] at h
  next =>
    split
    · exact lockless_step8AskA s
    · exact lockless_step8AnswerA s
    · exact lockless_step8AskB s
    · exact lockless_step8AnswerB s
    · exact lockless_step8Finish s
  next => exact lockless_unwind s
  next =>
    split
    · exact lockless_detachB s
    · split
      · exact lockless_detachA s
      · exact lockless_detachEnd s

/-- While BSQ holds the lock, LCU's move leaves it with BSQ, which stays where it is. -/
theorem lcuActions_lock_bsq {s : State} (hl : s.lock = .bsq) (h : s.pcLcu.holdsLock = false) :
    (lcuActions s).lock = .bsq ∧ (lcuActions s).pcBsq = s.pcBsq := by
  have hopen : s.lockOpenToLcu = false := by simp [State.lockOpenToLcu, hl]
  unfold lcuActions
  cases hp : s.pcLcu <;> simp [hp, LcuPc.holdsLock] at h
  case idle => simp [attachAcquire, hopen, hl]
  case unwind => simp [unwind, hopen, hl]
  case step8 =>
    cases hr : s.regPhase
    case start => simp [step8AskA, hp, hr, hl]
    case waitA =>
      simp only [step8AnswerA, hp, hr, registerEp_eq]
      cases failOf (s.answer 0) <;> simp [lcuRaise, hl]
    case gotA => simp [step8AskB, hp, hr, hl]
    case waitB =>
      simp only [step8AnswerB, hp, hr, registerEp_eq]
      cases failOf (s.answer 0) <;> simp [lcuRaise, hl]
    case gotB => simp [step8Finish, hp, hr, hl, lcuRespond]
  case detach =>
    cases s.epLiveB <;> cases s.epLiveA <;> simp [detachB, detachA, detachEnd, hp, hopen, hl, unregisterLive_eq]

theorem eq_lcuActions {s t : State} (h : lcuMove s = .next t) : t = lcuActions s := by
  rcases lcuMove_eq s with he | ⟨-, -, he⟩ <;> rw [he] at h <;> cases h
  rfl

/-! ### The moves of BSQ and the lock -/

/-- LCU in its critical section holds the lock, so BSQ is in none. -/
theorem State.LockInv.bsq_outside {s : State} (h : s.LockInv) (hl : s.pcLcu.holdsLock = true) :
    s.lock = .lcu ∧ s.pcBsq.holdsLock = false := by
  obtain ⟨hlcu, -, hbsq⟩ := h
  have hlock := hlcu hl
  refine ⟨hlock, Bool.eq_false_iff.2 fun hb => ?_⟩
  simpa [hlock] using hbsq.1 hb

/-- BSQ in a critical section holds the lock, so LCU is in none. -/
theorem State.LockInv.lcu_outside {s : State} (h : s.LockInv) (hb : s.pcBsq ≠ .idle) :
    s.lock = .bsq ∧ s.pcLcu.holdsLock = false := by
  obtain ⟨hlcu, -, hbsq⟩ := h
  have hlock := hbsq.1 (by simpa [BsqPc.holdsLock] using hb)
  refine ⟨hlock, Bool.eq_false_iff.2 fun hl => ?_⟩
  simpa [hlock] using hlcu hl

/-- In `IDLE` BSQ's move sends a response at most. -/
theorem lockless_bsqMove {s t : State} (hi : s.pcBsq = .idle) (h : bsqMove s = .next t) : Adds Event.Lockless s t := by
  rcases bsqMove_course h with ⟨rfl, -⟩ | ⟨-, -, -, -, -, ⟨-, -, -, he⟩ | ⟨-, -, w, -, he⟩⟩ | ⟨hn, -⟩
  · exact .refl t
  · exact .of_eq he
  · exact .one he rfl
  · exact absurd hi hn

end Sys2Proof.Machine

namespace Sys2Proof.Proofs

open Sys2Proof.Machine

/-- Settles O17: an agent whose move adds such an event is in its critical section. -/
theorem busEventsOnlyUnderTheLock : Obligations.BusEventsOnlyUnderTheLock := by
  intro s t es e hinv he hm hu
  have hbad : ¬ Adds Event.Lockless s t := fun ha => by
    have := ha.of_mem he hm
    rw [Event.Lockless, hu] at this
    cases this
  refine ⟨fun hmove => ?_, fun hmove => ?_⟩
  · refine hinv.bsq_outside (Bool.of_not_eq_false fun hl => hbad ?_)
    rw [eq_lcuActions hmove]
    exact lockless_lcuActions hl
  · exact hinv.lcu_outside fun hi => hbad (lockless_bsqMove hi hmove)

/-- Settles O56: BSQ's move is one phase (`BsqGoes`), and LCU is in no critical section. -/
theorem bsqHoldsTheLockToItsResponse : Obligations.BsqHoldsTheLockToItsResponse := by
  intro s t h hb
  obtain ⟨hlock, hlcu⟩ := h.2.1.lcu_outside hb
  refine ⟨hlock, fun hmove => ?_, fun hmove => ?_⟩
  · rcases bsqMove_course hmove with ⟨-, hi, -⟩ | ⟨hi, -⟩ | ⟨-, -, -, es, hes, hgo⟩
    · exact absurd hi hb
    · exact absurd hi hb
    · rcases hgo with ⟨hl, hp, -, he⟩ | ⟨hl, hp, w, hw, he⟩
      · exact ⟨es, he, .inl ⟨hl.trans hlock, hp, hes⟩⟩
      · exact ⟨es ++ [.resp w], by rw [he, List.append_assoc], .inr ⟨hl, hp, es, w, rfl, hw, hes⟩⟩
  · rw [eq_lcuActions hmove]
    obtain ⟨hl, hp⟩ := lcuActions_lock_bsq hlock hlcu
    exact ⟨hl, hp, lockless_lcuActions hlcu⟩

/-- Settles O40: in `L_UNWIND` the response is in `RESP`, and the unwinding needs the lock open to LCU. -/
theorem unwindingWaitsForTheTransferInFlight : Obligations.UnwindingWaitsForTheTransferInFlight := by
  intro s h hp
  have hmove : lcuMove s = .next (unwind s) := by rw [h.lcuMove_eq, lcuActions, hp]
  obtain ⟨-, -, ⟨-, -, -, -, -, -, -, -, hresp⟩, -⟩ := h
  obtain ⟨w, hw⟩ := Option.isSome_iff_exists.1 (hresp hp)
  refine ⟨w, hw, fun hl => ?_, fun hl => ?_⟩
  · rw [hmove, unwind, if_neg (by simp [State.lockOpenToLcu, hl])]
  · rw [hmove, unwind_open hp hl hw, State.unwound, ← hw, unregTrace, ← List.append_assoc]
    rfl

end Sys2Proof.Proofs
end

section
/-! PROOF. What a command can do on its channels (20 R67, 30 R104, 93 V5) and what it leaves unchanged, agent by agent: every
primitive of bring-up keeps BSQ's registers and adds listed exchanges only (`LcuGoes`), every phase of BSQ does the same to
LCU's (`BsqWorks`), and each sequencer state leads to the next one or to an error whose response is legal (`LcuArrives`,
`BsqArrives`). -/

namespace Sys2Proof.Machine

/-! ### Legal response words -/

theorem legalResponse_responseWord (code : BitVec 4) (phase : BitVec 3) (deg : Bool) (cause rdata : Byte) (ridx : BitVec 2) :
    legalResponse (responseWord code phase deg cause rdata ridx)
      = (decide (code.toNat ≤ 8) && (phase == 0 || (code == 4 && (phase == 1 || phase == 2 || phase == 4)))) := by
  obtain ⟨hcode, hphase, -, -, -, -, hres⟩ := responseWord_fields code phase deg cause rdata ridx
  rw [legalResponse, hcode, hphase, hres]
  simp

theorem legalResponse_word (e : CmdError) : legalResponse e.word = true := by
  cases e with
  | transferFailed ph c => rw [CmdError.word, legalResponse_responseWord]; cases ph <;> rfl
  | _ => rw [CmdError.word, legalResponse_responseWord]; rfl

theorem legalResponse_okWord : legalResponse okWord = true := by rw [okWord, legalResponse_responseWord]; rfl

theorem legalResponse_writeDoneWord (d : Bool) : legalResponse (writeDoneWord d) = true := by
  rw [writeDoneWord, legalResponse_responseWord]; rfl

theorem legalResponse_readDoneWord (len : Nat) (v : Byte) : legalResponse (readDoneWord len v) = true := by
  rw [readDoneWord, legalResponse_responseWord]; rfl

/-! ### Listed exchanges -/

/-- The event is one the block may make (20 R67, 30 R104, 93 V5). -/
def Event.Listed (e : Event) : Prop := e.allowed = true

/-- A register that the block writes beside the page register, whatever the value (20 R67). -/
def WriteListed (a : RegAddr) : Prop := a ≠ Config.hw.pageReg ∧ ∀ v f, Event.Listed (.wr a v f)

theorem writeListed_of_bringUp {a : RegAddr} (h : BringUpWrites a) : WriteListed a := by
  rcases h with rfl | rfl | rfl <;> exact ⟨by decide, fun _ _ => rfl⟩

theorem writeListed_addrReg (ep : Endpoint) : WriteListed ep.addrReg := by
  cases ep <;> exact ⟨by decide, fun _ _ => rfl⟩

theorem writeListed_dataReg (ep : Endpoint) : WriteListed ep.dataReg := by
  cases ep <;> exact ⟨by decide, fun _ _ => rfl⟩

theorem writeListed_csReg (ep : Endpoint) : WriteListed ep.csReg := by
  cases ep <;> exact ⟨by decide, fun _ _ => rfl⟩

theorem listed_pageValue (p : Page) (f : Option Cause) : Event.Listed (.wr Config.hw.pageReg (pageValue p) f) := by
  rcases page_cases p with rfl | rfl | rfl | rfl <;> rfl

theorem listed_softReset (f : Option Cause) : Event.Listed (.wr Config.hw.pageReg softResetValue f) := rfl

theorem listed_rd_bringUp {a : RegAddr} (h : BringUpWrites a) (r : Answer) : Event.Listed (.rd a r) := by
  rcases h with rfl | rfl | rfl <;> rfl

theorem listed_rd_csReg (ep : Endpoint) (r : Answer) : Event.Listed (.rd ep.csReg r) := by cases ep <;> rfl

theorem listed_rd_rbReg (ep : Endpoint) (r : Answer) : Event.Listed (.rd ep.rbReg r) := by cases ep <;> rfl

/-! ### LCU's primitives -/

/-- BSQ's registers, the waiting commands, the BUS port and LCU's `REQ`: nothing that LCU does after it took its command
changes them. -/
def LcuKeeps (s t : State) : Prop :=
  t.pcBsq = s.pcBsq ∧ t.reqBsq = s.reqBsq ∧ t.bsqWaits = s.bsqWaits ∧ t.respBsq = s.respBsq ∧ t.csv = s.csv
    ∧ t.deg = s.deg ∧ t.turns = s.turns ∧ t.cmd = s.cmd ∧ t.busPort = s.busPort ∧ t.reqLcu = s.reqLcu

theorem LcuKeeps.refl (s : State) : LcuKeeps s s := ⟨rfl, rfl, rfl, rfl, rfl, rfl, rfl, rfl, rfl, rfl⟩

theorem LcuKeeps.trans {s t u : State} (h1 : LcuKeeps s t) (h2 : LcuKeeps t u) : LcuKeeps s u := by
  simp only [LcuKeeps] at *
  simp [h1, h2]

/-- From `s` to `t` LCU keeps what is not its own, does not give the lock to BSQ, and adds listed events. -/
def LcuGoes (s t : State) : Prop :=
  LcuKeeps s t ∧ (s.lock ≠ .bsq → t.lock ≠ .bsq) ∧ Adds Event.Listed s t

section LcuPrimitives
variable {s t u : State}

theorem LcuGoes.refl (s : State) : LcuGoes s s := ⟨.refl s, id, .refl s⟩

theorem LcuGoes.trans (h1 : LcuGoes s t) (h2 : LcuGoes t u) : LcuGoes s u :=
  ⟨h1.1.trans h2.1, h2.2.1 ∘ h1.2.1, h1.2.2.trans h2.2.2⟩

theorem lcuGoes_if {p : Prop} [Decidable p] (h : p → LcuGoes s t) : LcuGoes s (if p then t else s) := by
  split
  next hp => exact h hp
  next => exact .refl s

theorem lcuGoes_emit {e : Event} (h : Event.Listed e) (s : State) : LcuGoes s (s.emit e) :=
  ⟨.refl s, id, .one rfl h⟩

theorem lcuGoes_memWrite {a : RegAddr} {v : Byte} (h : ∀ f, Event.Listed (.wr a v f)) (s : State) :
    LcuGoes s (memWrite a v s).1 := ⟨.refl s, id, .one rfl (h _)⟩

theorem lcuGoes_memRead {a : RegAddr} (h : ∀ r, Event.Listed (.rd a r)) (s : State) : LcuGoes s (memRead a s).1 :=
  ⟨.refl s, id, .one rfl (h _)⟩

theorem lcuGoes_configure (s : State) : LcuGoes s (configure s).1 := ⟨.refl s, id, .one rfl (by rfl)⟩

theorem lcuGoes_registerEp (ep : Endpoint) (s : State) : LcuGoes s (registerEp ep s).1 := ⟨.refl s, id, .one rfl (by rfl)⟩

theorem lcuGoes_ensurePage (p : Page) (s : State) : LcuGoes s (ensurePage p s).1 := by
  by_cases h : s.curPage = .page p
  · rw [ensurePage_same h]
    exact .refl s
  · rw [ensurePage_other h]
    exact lcuGoes_memWrite (listed_pageValue p) s

theorem lcuGoes_rmw {a : RegAddr} (clr set : Byte) (h : BringUpWrites a) (s : State) : LcuGoes s (rmw a clr set s).1 := by
  unfold rmw
  have hr := lcuGoes_memRead (listed_rd_bringUp h) s
  cases hm : memRead a s with | mk t r =>
  rw [hm] at hr
  cases r with
  | err c => exact hr
  | ok v => exact hr.trans (.trans (t := { t with tmp := some v }) ⟨.refl t, id, .of_eq rfl⟩
      (lcuGoes_memWrite ((writeListed_of_bringUp h).2 _) _))

theorem lcuGoes_delay (n : Nat) (s : State) : LcuGoes s (delay n s) := lcuGoes_emit (by rfl) s

theorem lcuGoes_or {r : State × Option Cause} {k : State → State} (h : LcuGoes s r.1) (hk : ∀ t, LcuGoes t (k t)) :
    LcuGoes s (orBusError r k) := by
  obtain ⟨t, _ | c⟩ := r
  · exact h.trans (hk t)
  · exact h.trans ⟨.refl t, id, .of_eq rfl⟩

/-- The end of a step: only LCU's own registers change. -/
theorem lcuGoes_own (hk : LcuKeeps s t) (hl : t.lock = s.lock) (he : t.events = s.events) : LcuGoes s t :=
  ⟨hk, hl ▸ id, .of_eq he⟩

end LcuPrimitives

/-! ### LCU's sequencer states -/

section LcuSteps
variable (s : State)

theorem lcuGoes_attachAcquire : LcuGoes s (attachAcquire s) :=
  lcuGoes_if fun _ => ⟨.refl s, fun _ => by simp, .of_eq rfl⟩

theorem lcuGoes_step1 : LcuGoes s (step1 s) := by
  by_cases hp : s.pcLcu = .step1
  · rw [step1_eq s hp]
    exact ⟨.refl s, id, resetLineTrace s.rstp, rfl, by cases s.rstp <;> simp [resetLineTrace, Event.Listed, Event.allowed]⟩
  · rw [step1, if_neg hp]
    exact .refl s

theorem lcuGoes_step2 : LcuGoes s (step2 s) :=
  lcuGoes_if fun _ => lcuGoes_or (lcuGoes_configure s) fun t => lcuGoes_own (.refl t) rfl rfl

theorem lcuGoes_step3 : LcuGoes s (step3 s) := by
  refine lcuGoes_if fun _ => ?_
  have hr := lcuGoes_memRead (a := Config.hw.idReg) (fun _ => rfl) s
  cases hm : memRead Config.hw.idReg s with | mk t r =>
  rw [hm] at hr
  refine hr.trans ?_
  cases r with
  | err c => exact lcuGoes_own (.refl t) rfl rfl
  | ok v => simp only; split <;> exact lcuGoes_own (.refl t) rfl rfl

theorem lcuGoes_step4 : LcuGoes s (step4 s) :=
  lcuGoes_if fun _ => lcuGoes_or (lcuGoes_memWrite (listed_pageValue 0) s) fun t =>
    .trans (t := { t with curPage := .page 0 }) (lcuGoes_own (.refl t) rfl rfl)
      (lcuGoes_or (lcuGoes_memWrite listed_softReset _) fun u => lcuGoes_own (.refl u) rfl rfl)

theorem lcuGoes_step5 : LcuGoes s (step5 s) :=
  lcuGoes_if fun _ => lcuGoes_or (lcuGoes_ensurePage _ _) fun _ => lcuGoes_or (lcuGoes_rmw _ _ (.inl rfl) _) fun _ =>
    lcuGoes_or (lcuGoes_rmw _ _ (.inr (.inl rfl)) _) fun v => lcuGoes_own (.refl v) rfl rfl

theorem lcuGoes_step6 : LcuGoes s (step6 s) :=
  lcuGoes_if fun _ => lcuGoes_or (lcuGoes_ensurePage _ _) fun _ =>
    lcuGoes_or (lcuGoes_rmw _ _ (.inr (.inr rfl)) _) fun u => lcuGoes_own (.refl u) rfl rfl

theorem lcuGoes_step7 : LcuGoes s (step7 s) :=
  lcuGoes_if fun _ => lcuGoes_or ((lcuGoes_delay _ _).trans (lcuGoes_ensurePage _ _)) fun _ =>
    lcuGoes_or (lcuGoes_rmw _ _ (.inr (.inr rfl)) _) fun _ =>
      lcuGoes_or ((lcuGoes_delay _ _).trans (lcuGoes_ensurePage _ _)) fun _ =>
        lcuGoes_or (lcuGoes_rmw _ _ (.inr (.inr rfl)) _) fun z => ⟨.refl z, fun _ => by simp, .of_eq rfl⟩

theorem lcuGoes_step8AskA : LcuGoes s (step8AskA s) := lcuGoes_if fun _ => lcuGoes_own (.refl s) rfl rfl

theorem lcuGoes_step8AskB : LcuGoes s (step8AskB s) := lcuGoes_if fun _ => lcuGoes_own (.refl s) rfl rfl

theorem lcuGoes_step8AnswerA : LcuGoes s (step8AnswerA s) := lcuGoes_if fun _ => by
  have hr := lcuGoes_registerEp .a s
  cases hm : registerEp .a s with | mk t r =>
  rw [hm] at hr
  cases r <;> exact hr.trans (lcuGoes_own (.refl t) rfl rfl)

theorem lcuGoes_step8AnswerB : LcuGoes s (step8AnswerB s) := lcuGoes_if fun _ => by
  have hr := lcuGoes_registerEp .b s
  cases hm : registerEp .b s with | mk t r =>
  rw [hm] at hr
  cases r <;> exact hr.trans (lcuGoes_own (.refl t) rfl rfl)

theorem lcuGoes_step8Finish : LcuGoes s (step8Finish s) := lcuGoes_if fun _ => ⟨.refl s, id, .one rfl legalResponse_okWord⟩

theorem lcuGoes_step8 : LcuGoes s (step8 s) :=
  ((((lcuGoes_step8AskA s).trans (lcuGoes_step8AnswerA _)).trans (lcuGoes_step8AskB _)).trans
    (lcuGoes_step8AnswerB _)).trans (lcuGoes_step8Finish _)

/-- Bring-up up to the end of its step 8. -/
def bringUp (s : State) : State := step8 (step7 (step6 (step5 (step4 (step3 (step2 (step1 s)))))))

theorem runAttach_eq : runAttach s = unwind (bringUp s) := rfl

theorem lcuGoes_bringUp : LcuGoes s (bringUp s) :=
  (((((((lcuGoes_step1 s).trans (lcuGoes_step2 _)).trans (lcuGoes_step3 _)).trans (lcuGoes_step4 _)).trans
    (lcuGoes_step5 _)).trans (lcuGoes_step6 _)).trans (lcuGoes_step7 _)).trans (lcuGoes_step8 _)

theorem listed_unregTrace {e : Event} (h : e ∈ unregTrace s) : Event.Listed e := by
  obtain ⟨ep, rfl⟩ := eq_unreg_of_mem_unregTrace h
  rfl

theorem lcuGoes_unwind {s : State} (h : ∀ w, s.respLcu = some w → legalResponse w = true) : LcuGoes s (unwind s) := by
  rcases unwind_cases s with hu | ⟨w, hw, -, hu⟩ <;> rw [hu]
  · exact .refl s
  · exact ⟨.refl s, fun _ => by simp [State.unwound],
      .trans (t := { s with events := s.events ++ unregTrace s }) ⟨_, rfl, fun _ => listed_unregTrace s⟩ (.one rfl (h w hw))⟩

theorem lcuGoes_unregisterLive (ep : Endpoint) : LcuGoes s (unregisterLive ep s) :=
  ⟨by rw [unregisterLive_eq]; exact .refl s, by rw [unregisterLive_eq]; exact id, adds_unregisterLive ep (by rfl) s⟩

theorem lcuGoes_runDetach : LcuGoes s (runDetach s) :=
  (((lcuGoes_if fun _ => lcuGoes_unregisterLive s .b).trans (lcuGoes_if fun _ => lcuGoes_unregisterLive _ .a))).trans
    (lcuGoes_if fun _ => ⟨.refl _, fun _ => by simp [lcuRespond], .one rfl legalResponse_okWord⟩)

end LcuSteps

/-! ### Where a step of bring-up leads -/

/-- LCU is in `L_UNWIND` with a legal response in `RESP`. -/
def UnwindsLegally (s : State) : Prop := s.pcLcu = .unwind ∧ ∃ w, s.respLcu = some w ∧ legalResponse w = true

/-- LCU has come to the sequencer state `pc`, or it unwinds. -/
def LcuArrives (pc : LcuPc) (s : State) : Prop := s.pcLcu = pc ∨ UnwindsLegally s

section Arrives
variable {s : State} {pc : LcuPc}

theorem lcuRaise_arrives (e : CmdError) (s : State) : LcuArrives pc (lcuRaise e s) :=
  .inr ⟨rfl, _, rfl, legalResponse_word e⟩

theorem orBusError_arrives {r : State × Option Cause} {k : State → State} (hk : ∀ t, LcuArrives pc (k t)) :
    LcuArrives pc (orBusError r k) := by
  obtain ⟨t, _ | c⟩ := r
  · exact hk t
  · exact lcuRaise_arrives _ t

theorem step1_skip (h : s.pcLcu ≠ .step1) : step1 s = s := if_neg h
theorem step2_skip (h : s.pcLcu ≠ .step2) : step2 s = s := if_neg h
theorem step3_skip (h : s.pcLcu ≠ .step3) : step3 s = s := if_neg h
theorem step4_skip (h : s.pcLcu ≠ .step4) : step4 s = s := if_neg h
theorem step5_skip (h : s.pcLcu ≠ .step5) : step5 s = s := if_neg h
theorem step6_skip (h : s.pcLcu ≠ .step6) : step6 s = s := if_neg h
theorem step7_skip (h : s.pcLcu ≠ .step7) : step7 s = s := if_neg h
theorem unwind_skip (h : s.pcLcu ≠ .unwind) : unwind s = s := if_neg fun hp => h hp.1

theorem step1_arrives (h : s.pcLcu = .step1) : LcuArrives .step2 (step1 s) := by rw [step1_eq s h]; exact .inl rfl

theorem step2_arrives (h : s.pcLcu = .step2) : LcuArrives .step3 (step2 s) := by
  rw [step2, if_pos h]
  exact orBusError_arrives fun _ => .inl rfl

theorem step3_arrives (h : s.pcLcu = .step3) : LcuArrives .step4 (step3 s) := by
  rw [step3, if_pos h]
  cases memRead Config.hw.idReg s with | mk t r =>
  cases r with
  | err c => exact lcuRaise_arrives _ _
  | ok v =>
    simp only
    split
    · exact .inl rfl
    · exact lcuRaise_arrives _ _

theorem step4_arrives (h : s.pcLcu = .step4) : LcuArrives .step5 (step4 s) := by
  rw [step4, if_pos h]
  exact orBusError_arrives fun _ => orBusError_arrives fun _ => .inl rfl

theorem step5_arrives (h : s.pcLcu = .step5) : LcuArrives .step6 (step5 s) := by
  rw [step5, if_pos h]
  exact orBusError_arrives fun _ => orBusError_arrives fun _ => orBusError_arrives fun _ => .inl rfl

theorem step6_arrives (h : s.pcLcu = .step6) : LcuArrives .step7 (step6 s) := by
  rw [step6, if_pos h]
  exact orBusError_arrives fun _ => orBusError_arrives fun _ => .inl rfl

theorem step7_arrives (h : s.pcLcu = .step7) : LcuArrives .step8 (step7 s) := by
  rw [step7, if_pos h]
  exact orBusError_arrives fun _ => orBusError_arrives fun _ => orBusError_arrives fun _ => orBusError_arrives fun _ => .inl rfl

/-- The answer to `Register(A)`: step 8 goes on, or it unwinds. -/
theorem step8AnswerA_arrives (hp : s.pcLcu = .step8) (hr : s.regPhase = .waitA) :
    ((step8AnswerA s).pcLcu = .step8 ∧ (step8AnswerA s).regPhase = .gotA) ∨ UnwindsLegally (step8AnswerA s) := by
  rw [step8AnswerA, if_pos ⟨hp, hr⟩, registerEp_eq]
  cases failOf (s.answer 0)
  · exact .inl ⟨hp, rfl⟩
  · exact .inr ⟨rfl, _, rfl, legalResponse_word _⟩

/-- The answer to `Register(B)`. -/
theorem step8AnswerB_arrives (hp : s.pcLcu = .step8) (hr : s.regPhase = .waitB) :
    ((step8AnswerB s).pcLcu = .step8 ∧ (step8AnswerB s).regPhase = .gotB) ∨ UnwindsLegally (step8AnswerB s) := by
  rw [step8AnswerB, if_pos ⟨hp, hr⟩, registerEp_eq]
  cases failOf (s.answer 0)
  · exact .inl ⟨hp, rfl⟩
  · exact .inr ⟨rfl, _, rfl, legalResponse_word _⟩

/-- In `IDLE`, where ATTACH was refused or waits for the lock, bring-up does nothing. -/
theorem runAttach_idle (h : s.pcLcu = .idle) : runAttach s = s := by
  simp [runAttach, step1, step2, step3, step4, step5, step6, step7, step8, step8AskA, step8AnswerA, step8AskB,
    step8AnswerB, step8Finish, unwind, h]

theorem runDetach_idle (h : s.pcLcu = .idle) : runDetach s = s := by
  simp [runDetach, detachB, detachA, detachEnd, h]

/-- When LCU unwinds, the response it will send is legal. -/
def UnwindLegal (s : State) : Prop := s.pcLcu = .unwind → UnwindsLegally s

theorem LcuArrives.unwindLegal (h : LcuArrives pc s) (hp : pc ≠ .unwind) : UnwindLegal s :=
  fun hu => h.resolve_left fun he => hp (he.symm.trans hu)

theorem UnwindLegal.step {t : State} (h : UnwindLegal s) {next : LcuPc} (hn : next ≠ .unwind)
    (hs : s.pcLcu ≠ pc → t = s) (ht : s.pcLcu = pc → LcuArrives next t) : UnwindLegal t := by
  by_cases hpc : s.pcLcu = pc
  · exact (ht hpc).unwindLegal hn
  · rw [hs hpc]
    exact h

theorem unwindLegal_if {t : State} {p : Prop} [Decidable p] (h : UnwindLegal s)
    (ht : p → t.pcLcu ≠ .unwind ∨ UnwindsLegally t) : UnwindLegal (if p then t else s) := by
  split
  next hp => exact fun hu => (ht hp).resolve_left fun hn => hn hu
  next => exact h

theorem unwindLegal_step8AnswerA (h : UnwindLegal s) : UnwindLegal (step8AnswerA s) := unwindLegal_if h fun hp => by
  have ha := step8AnswerA_arrives hp.1 hp.2
  rw [step8AnswerA, if_pos hp] at ha
  exact ha.imp (fun h => by rw [h.1]; decide) id

theorem unwindLegal_step8AnswerB (h : UnwindLegal s) : UnwindLegal (step8AnswerB s) := unwindLegal_if h fun hp => by
  have ha := step8AnswerB_arrives hp.1 hp.2
  rw [step8AnswerB, if_pos hp] at ha
  exact ha.imp (fun h => by rw [h.1]; decide) id

theorem unwindLegal_step8 (h : UnwindLegal s) : UnwindLegal (step8 s) := by
  have hA : UnwindLegal (step8AskA s) := unwindLegal_if h fun hp => .inl (by simp [hp.1])
  have hB : UnwindLegal (step8AskB (step8AnswerA (step8AskA s))) :=
    unwindLegal_if (unwindLegal_step8AnswerA hA) fun hp => .inl (by simp [hp.1])
  exact unwindLegal_if (unwindLegal_step8AnswerB hB) fun _ => .inl (by simp [lcuRespond])

theorem unwindLegal_bringUp (h : UnwindLegal s) : UnwindLegal (bringUp s) := by
  have h1 := h.step (pc := .step1) (by decide) step1_skip step1_arrives
  have h2 := h1.step (pc := .step2) (by decide) step2_skip step2_arrives
  have h3 := h2.step (pc := .step3) (by decide) step3_skip step3_arrives
  have h4 := h3.step (pc := .step4) (by decide) step4_skip step4_arrives
  have h5 := h4.step (pc := .step5) (by decide) step5_skip step5_arrives
  have h6 := h5.step (pc := .step6) (by decide) step6_skip step6_arrives
  have h7 := h6.step (pc := .step7) (by decide) step7_skip step7_arrives
  exact unwindLegal_step8 h7

theorem lcuGoes_runAttach (h : UnwindLegal s) : LcuGoes s (runAttach s) := by
  rw [runAttach_eq]
  refine (lcuGoes_bringUp s).trans ?_
  by_cases hp : (bringUp s).pcLcu = .unwind
  · obtain ⟨-, w, hw, hl⟩ := unwindLegal_bringUp h hp
    exact lcuGoes_unwind fun v hv => by rw [hw] at hv; cases hv; exact hl
  · rw [unwind_skip hp]
    exact .refl _

end Arrives

/-! ### ATTACH and DETACH taken -/

/-- LCU takes ATTACH: refused, or waiting for the lock in `IDLE`, or in step 1 with the lock (42 R180, R194). -/
theorem beginAttach_pcLcu (w : Word) (r : Bool) {s : State} (h : s.lcuReady = true) :
    (beginAttach w r s).pcLcu = .idle ∨ (beginAttach w r s).pcLcu = .step1 := by
  have hi := lcuReady_idle h
  unfold beginAttach attachAcquire
  dsimp only
  split
  · exact .inl hi
  · split
    · exact .inr rfl
    · exact .inl hi

/-- What LCU does when it takes a command: its word is in `REQ`, and it goes on from there. -/
theorem lcuGoes_beginAttach (w : Word) (r : Bool) (s : State) : LcuGoes { s with reqLcu := some w } (beginAttach w r s) := by
  unfold beginAttach
  dsimp only
  split
  · exact ⟨.refl _, id, .one rfl (legalResponse_word _)⟩
  · exact .trans (t := { s with reqLcu := some w, lc := .attaching, rstp := r }) (lcuGoes_own (.refl _) rfl rfl)
      (lcuGoes_attachAcquire _)

theorem lcuGoes_beginDetach (w : Word) (s : State) : LcuGoes { s with reqLcu := some w } (beginDetach w s) := by
  unfold beginDetach
  dsimp only
  split
  · exact ⟨.refl _, id, .one rfl legalResponse_okWord⟩
  · exact lcuGoes_own (.refl _) rfl rfl

/-- ATTACH from its word to its response. -/
theorem lcuGoes_attach (w : Word) (r : Bool) {s : State} (h : s.lcuReady = true) :
    LcuGoes { s with reqLcu := some w } (runAttach (beginAttach w r s)) := by
  refine (lcuGoes_beginAttach w r s).trans (lcuGoes_runAttach fun hu => ?_)
  rcases beginAttach_pcLcu w r h with hp | hp <;> rw [hp] at hu <;> cases hu

theorem lcuGoes_detach (w : Word) (s : State) :
    LcuGoes { s with reqLcu := some w } (runDetach (beginDetach w s)) :=
  (lcuGoes_beginDetach w s).trans (lcuGoes_runDetach _)

theorem exec_attach_taken (r : Bool) (x : BitVec 23) {s : State} (h : s.lcuReady = true) :
    exec (.attach r x) s = .next (runAttach (beginAttach (encodeWord (.attach r x)) r s)) := by
  rw [exec, execAttach, if_pos h]

theorem exec_detach_taken (x : BitVec 24) {s : State} (h : s.lcuReady = true) :
    exec (.detach x) s = .next (runDetach (beginDetach (encodeWord (.detach x)) s)) := by
  rw [exec, execDetach, if_pos h]

theorem exec_attach_goes {r : Bool} {x : BitVec 23} {s t : State} (h : s.lcuReady = true)
    (he : exec (.attach r x) s = .next t) : LcuGoes { s with reqLcu := some (encodeWord (.attach r x)) } t := by
  rw [← Host.Outcome.next.inj ((exec_attach_taken r x h).symm.trans he)]
  exact lcuGoes_attach _ r h

theorem exec_detach_goes {x : BitVec 24} {s t : State} (h : s.lcuReady = true)
    (he : exec (.detach x) s = .next t) : LcuGoes { s with reqLcu := some (encodeWord (.detach x)) } t := by
  rw [← Host.Outcome.next.inj ((exec_detach_taken x h).symm.trans he)]
  exact lcuGoes_detach _ s

/-! ### BSQ's primitives and phases -/

theorem BsqKeeps.trans {s t u : State} (h1 : BsqKeeps s t) (h2 : BsqKeeps t u) : BsqKeeps s u := by
  simp only [BsqKeeps] at *
  simp [h1, h2]

/-- From `s` to `t` BSQ keeps what is not its own, does not wait, and adds listed events. -/
def BsqDrives (s t : State) : Prop := BsqKeeps s t ∧ t.bsqWaits = s.bsqWaits ∧ Adds Event.Listed s t

/-- The same of everything but the CS pulse, which alone writes `CSV` and `DEG` (41 R156). -/
def BsqWorks (s t : State) : Prop := BsqDrives s t ∧ t.csv = s.csv ∧ t.deg = s.deg

/-- BSQ holds its response, and that is legal. -/
def BsqResponds (s : State) : Prop := ∃ w, s.respBsq = some w ∧ legalResponse w = true

/-- BSQ has come to the sequencer state `pc`, or it failed with its response in `RESP`. -/
def BsqArrives (pc : BsqPc) (s : State) : Prop := s.pcBsq = pc ∨ (s.pcBsq = .failed ∧ BsqResponds s)

/-- BSQ has come to the end of a transfer with its response in `RESP`. -/
def BsqConcludes (s : State) : Prop := (s.pcBsq = .done ∨ s.pcBsq = .failed) ∧ BsqResponds s

section BsqPhases
variable {s t u : State}

theorem BsqDrives.refl (s : State) : BsqDrives s s := ⟨.refl s, rfl, .refl s⟩

theorem BsqDrives.trans (h1 : BsqDrives s t) (h2 : BsqDrives t u) : BsqDrives s u :=
  ⟨h1.1.trans h2.1, h2.2.1.trans h1.2.1, h1.2.2.trans h2.2.2⟩

theorem BsqWorks.refl (s : State) : BsqWorks s s := ⟨.refl s, rfl, rfl⟩

theorem BsqWorks.trans (h1 : BsqWorks s t) (h2 : BsqWorks t u) : BsqWorks s u :=
  ⟨h1.1.trans h2.1, h2.2.1.trans h1.2.1, h2.2.2.trans h1.2.2⟩

theorem bsqWorks_if {p : Prop} [Decidable p] (h : p → BsqWorks s t) : BsqWorks s (if p then t else s) := by
  split
  next hp => exact h hp
  next => exact .refl s

/-- Only BSQ's own registers change. -/
theorem bsqWorks_own (hk : BsqKeeps s t) (hw : t.bsqWaits = s.bsqWaits) (hc : t.csv = s.csv ∧ t.deg = s.deg)
    (he : t.events = s.events) : BsqWorks s t := ⟨⟨hk, hw, .of_eq he⟩, hc⟩

theorem bsqWorks_memWrite {a : RegAddr} {v : Byte} (h : ∀ f, Event.Listed (.wr a v f)) (s : State) :
    BsqWorks s (memWrite a v s).1 := ⟨⟨.refl s, rfl, .one rfl (h _)⟩, rfl, rfl⟩

theorem bsqWorks_memRead {a : RegAddr} (h : ∀ r, Event.Listed (.rd a r)) (s : State) : BsqWorks s (memRead a s).1 :=
  ⟨⟨.refl s, rfl, .one rfl (h _)⟩, rfl, rfl⟩

theorem bsqWorks_ensurePage (p : Page) (s : State) : BsqWorks s (ensurePage p s).1 := by
  by_cases h : s.curPage = .page p
  · rw [ensurePage_same h]
    exact .refl s
  · rw [ensurePage_other h]
    exact bsqWorks_memWrite (listed_pageValue p) s

theorem bsqWorks_endPhase (next : BsqPc) (ph : Phase) {r : State × Option Cause} (h : BsqWorks s r.1) :
    BsqWorks s (endPhase next ph r) := by
  obtain ⟨t, _ | c⟩ := r <;> exact h.trans (bsqWorks_own (.refl t) rfl ⟨rfl, rfl⟩ rfl)

theorem endPhase_arrives (next : BsqPc) (ph : Phase) (r : State × Option Cause) : BsqArrives next (endPhase next ph r) := by
  obtain ⟨t, _ | c⟩ := r
  · exact .inl rfl
  · exact .inr ⟨rfl, _, rfl, legalResponse_word _⟩

theorem bsqWorks_pageSwitching (next : BsqPc) (s : State) : BsqWorks s (pageSwitching next s) :=
  bsqWorks_if fun _ => bsqWorks_endPhase next .pageSwitch (bsqWorks_ensurePage _ s)

theorem bsqWorks_addressPhase (ep : Endpoint) (v : Byte) (s : State) : BsqWorks s (addressPhase ep v s) :=
  bsqWorks_if fun _ => bsqWorks_endPhase .dataPhase .address (bsqWorks_memWrite ((writeListed_addrReg ep).2 v) s)

theorem bsqWorks_dataPhase (ep : Endpoint) (v : Byte) (s : State) : BsqWorks s (dataPhase ep v s) :=
  bsqWorks_if fun _ => bsqWorks_endPhase .csPulse .data (bsqWorks_memWrite ((writeListed_dataReg ep).2 v) s)

theorem listed_csTrace (ep : Endpoint) (r : Answer) (w1 w2 : Option Cause) : ∀ e ∈ csTrace ep r w1 w2, Event.Listed e := by
  have hlog : ∀ f tag, ∀ e ∈ logIf f tag, Event.Listed e := fun f tag e he => by
    cases f <;> simp [logIf] at he
    rw [he]
    rfl
  intro e he
  simp only [csTrace, List.mem_append, List.mem_singleton] at he
  rcases he with ((((rfl | h) | rfl) | h) | rfl) | h
  · exact listed_rd_csReg ep r
  · exact hlog _ _ e h
  · exact (writeListed_csReg ep).2 _ _
  · exact hlog _ _ e h
  · exact (writeListed_csReg ep).2 _ _
  · exact hlog _ _ e h

theorem bsqDrives_csPhase (ep : Endpoint) (s : State) : BsqDrives s (csPhase ep s) := by
  unfold csPhase
  split
  · rw [csPulse_eq]
    exact ⟨.refl s, rfl, _, rfl, listed_csTrace ep _ _ _⟩
  · exact .refl s

theorem bsqWorks_readBack (ep : Endpoint) (len : Nat) (s : State) : BsqWorks s (readBack ep len s) :=
  bsqWorks_if fun _ => by
    have hr := bsqWorks_memRead (listed_rd_rbReg ep) s
    cases hm : memRead ep.rbReg s with | mk t r =>
    rw [hm] at hr
    cases r <;> exact hr.trans (bsqWorks_own (.refl t) rfl ⟨rfl, rfl⟩ rfl)

theorem pageSwitching_arrives {next : BsqPc} (h : s.pcBsq = .pageSwitching) : BsqArrives next (pageSwitching next s) := by
  rw [pageSwitching_eq next h]
  exact endPhase_arrives _ _ _

/-- A phase leads from its state to the next one, and does nothing in `FAILED`. -/
theorem addressPhase_arrives (ep : Endpoint) (v : Byte) (h : BsqArrives .addressPhase s) :
    BsqArrives .dataPhase (addressPhase ep v s) := by
  rcases h with h | h
  · rw [addressPhase_eq ep v h]
    exact endPhase_arrives _ _ _
  · rw [addressPhase, if_neg (by simp [h.1])]
    exact .inr h

theorem dataPhase_arrives (ep : Endpoint) (v : Byte) (h : BsqArrives .dataPhase s) :
    BsqArrives .csPulse (dataPhase ep v s) := by
  rcases h with h | h
  · rw [dataPhase_eq ep v h]
    exact endPhase_arrives _ _ _
  · rw [dataPhase, if_neg (by simp [h.1])]
    exact .inr h

theorem csPhase_concludes (ep : Endpoint) (h : BsqArrives .csPulse s) : BsqConcludes (csPhase ep s) := by
  rcases h with h | h
  · rw [csPhase, if_pos h]
    exact ⟨.inl rfl, _, rfl, legalResponse_writeDoneWord _⟩
  · rw [csPhase, if_neg (by simp [h.1])]
    exact ⟨.inr h.1, h.2⟩

theorem readBack_concludes (ep : Endpoint) (len : Nat) (h : BsqArrives .readBack s) : BsqConcludes (readBack ep len s) := by
  rcases h with h | h
  · rw [readBack, if_pos h]
    cases memRead ep.rbReg s with | mk t r =>
    cases r
    · exact ⟨.inl rfl, _, rfl, legalResponse_readDoneWord _ _⟩
    · exact ⟨.inr rfl, _, rfl, legalResponse_word _⟩
  · rw [readBack, if_neg (by simp [h.1])]
    exact ⟨.inr h.1, h.2⟩

/-- BSQ is idle and does not hold the lock. -/
def BsqRests (s : State) : Prop := s.pcBsq = .idle ∧ s.lock = .free

theorem bsqReply_rests (h : BsqConcludes s) : BsqRests (bsqReply s) ∧ BsqWorks s (bsqReply s) := by
  obtain ⟨hp, w, hw, hl⟩ := h
  rw [bsqReply, if_pos hp, hw]
  refine ⟨⟨rfl, rfl⟩, ⟨.refl s, rfl, .one rfl hl⟩, rfl, rfl⟩

theorem finishPageCmd_rests {r : State × Option Cause} (h : BsqWorks s r.1) :
    BsqRests (finishPageCmd r) ∧ BsqWorks s (finishPageCmd r) := by
  obtain ⟨t, _ | c⟩ := r
  · exact ⟨⟨rfl, rfl⟩, h.trans ⟨⟨.refl t, rfl, .one rfl legalResponse_okWord⟩, rfl, rfl⟩⟩
  · exact ⟨⟨rfl, rfl⟩, h.trans ⟨⟨.refl t, rfl, .one rfl (legalResponse_word _)⟩, rfl, rfl⟩⟩

end BsqPhases

/-! ### BSQ's commands -/

/-- The command is one of BSQ's (30 R82). -/
def isBsqCommand : Instr → Bool
  | .ensurePage _ _ => true
  | .softReset _ => true
  | .xferWr _ _ _ _ _ _ => true
  | .xferRd _ _ _ => true
  | .attach _ _ => false
  | .detach _ => false
  | .busWr _ _ => false
  | .busRd _ => false

/-- The first sequencer state of a BSQ command (10 R31). -/
def firstPc : Instr → BsqPc
  | .ensurePage _ _ => .pageOp
  | .softReset _ => .srstOp
  | .xferWr _ _ _ _ _ _ => .pageSwitching
  | .xferRd _ _ _ => .pageSwitching
  | .attach _ _ => .idle
  | .detach _ => .idle
  | .busWr _ _ => .idle
  | .busRd _ => .idle

/-- `Acquire` and the checks of a BSQ command. -/
def enter (i : Instr) (s : State) : State :=
  match i with
  | .ensurePage _ _ => enterPageCmd .pageOp s
  | .softReset _ => enterPageCmd .srstOp s
  | .xferWr ep len _ _ _ _ => enterXfer ep len s
  | .xferRd ep len _ => enterXfer ep len s
  | .attach _ _ => s
  | .detach _ => s
  | .busWr _ _ => s
  | .busRd _ => s

section BsqCommands
variable {i : Instr} {s : State}

theorem isBsqCommand_iff (i : Instr) : isBsqCommand i = true ↔ ((∃ p x, i = .ensurePage p x) ∨ (∃ x, i = .softReset x)
    ∨ (∃ ep len dv addr data x, i = .xferWr ep len dv addr data x) ∨ ∃ ep len x, i = .xferRd ep len x) := by
  cases i <;> simp [isBsqCommand]

theorem canBegin_bsq (h : isBsqCommand i = true) (s : State) : canBegin i s = s.bsqFree := by
  cases i <;> cases h <;> rfl

theorem begin_bsq (h : isBsqCommand i = true) (s : State) : begin i s = enter i (bsqTake (encodeWord i) s) := by
  cases i <;> cases h <;> rfl

theorem isCommand_of_bsq (h : isBsqCommand i = true) : isCommand i = true := by
  cases i <;> cases h <;> rfl

theorem enter_wait (i : Instr) (h : s.bsqWaits = false ∨ s.lock = .lcu) : enter i s = s := by
  cases i with
  | ensurePage p x => exact enterPageCmd_wait _ h
  | softReset x => exact enterPageCmd_wait _ h
  | xferWr ep len dv addr data x => exact enterXfer_wait _ _ h
  | xferRd ep len x => exact enterXfer_wait _ _ h
  | _ => rfl

/-- With the lock open a BSQ command is refused, or it enters its first sequencer state. -/
theorem enter_open (hi : isBsqCommand i = true) (hw : s.bsqWaits = true) (hl : s.lock ≠ .lcu) :
    (∃ e, enter i s = bsqRaise e (bsqAcquire s))
      ∨ (enter i s = { bsqAcquire s with pcBsq := firstPc i } ∧ bsqOnPath i (firstPc i) = true) := by
  have hpage : ∀ pc, (∃ e, enterPageCmd pc s = bsqRaise e (bsqAcquire s))
      ∨ enterPageCmd pc s = { bsqAcquire s with pcBsq := pc } := fun pc => by
    rw [enterPageCmd_open pc hw hl]
    split
    · exact .inr rfl
    · exact .inl ⟨_, rfl⟩
  have hxfer : ∀ ep len, (∃ e, enterXfer ep len s = bsqRaise e (bsqAcquire s))
      ∨ (enterXfer ep len s = { bsqAcquire s with pcBsq := .pageSwitching } ∧ lenValid len = true) := fun ep len => by
    rw [enterXfer_open ep len hw hl]
    split
    · exact .inl ⟨_, rfl⟩
    · split
      · exact .inl ⟨_, rfl⟩
      · exact .inr ⟨rfl, by simpa using ‹¬lenValid len = false›⟩
  cases i with
  | ensurePage p x => exact (hpage .pageOp).imp id fun h => ⟨h, rfl⟩
  | softReset x => exact (hpage .srstOp).imp id fun h => ⟨h, rfl⟩
  | xferWr ep len dv addr data x => exact (hxfer ep len).imp id fun h => ⟨h.1, by simp [bsqOnPath, firstPc, h.2]⟩
  | xferRd ep len x => exact (hxfer ep len).imp id fun h => ⟨h.1, by simp [bsqOnPath, firstPc, h.2]⟩
  | _ => cases hi

theorem pageOp_idle (p : Page) (h : s.pcBsq = .idle) : pageOp p s = s := by simp [pageOp, h]

theorem srstOp_idle (h : s.pcBsq = .idle) : srstOp s = s := by simp [srstOp, h]

/-- In `IDLE`, where a command was refused or waits for the lock, nothing more is done. -/
theorem runOut_idle (hi : isBsqCommand i = true) (h : s.pcBsq = .idle) : runOut i s = s := by
  cases i with
  | ensurePage p x => exact pageOp_idle p h
  | softReset x => exact srstOp_idle h
  | xferWr ep len dv addr data x => exact runXferWr_idle _ _ _ _ h
  | xferRd ep len x => exact runXferRd_idle _ _ h
  | _ => cases hi

/-- The command writes neither `CSV` nor `DEG`: it is no write transfer. -/
def NoCsPulse (i : Instr) : Prop := ∀ ep len dv addr data x, i ≠ .xferWr ep len dv addr data x

/-- A BSQ command in its first sequencer state runs to its response and leaves BSQ idle and the lock free. -/
theorem runOut_rests (hi : isBsqCommand i = true) (hp : s.pcBsq = firstPc i) :
    BsqRests (runOut i s) ∧ BsqDrives s (runOut i s) ∧ (NoCsPulse i → BsqWorks s (runOut i s)) := by
  cases i with
  | ensurePage p x =>
    have hp : s.pcBsq = .pageOp := hp
    simp only [runOut, pageOp, if_pos hp]
    obtain ⟨hr, hw⟩ := finishPageCmd_rests (bsqWorks_ensurePage p s)
    exact ⟨hr, hw.1, fun _ => hw⟩
  | softReset x =>
    have hp : s.pcBsq = .srstOp := hp
    simp only [runOut, srstOp, if_pos hp]
    obtain ⟨hr, hw⟩ := finishPageCmd_rests (bsqWorks_memWrite listed_softReset s)
    exact ⟨hr, hw.1, fun _ => hw⟩
  | xferWr ep len dv addr data x =>
    obtain ⟨hr, hw⟩ := bsqReply_rests (csPhase_concludes ep (dataPhase_arrives ep (dataByte dv data)
      (addressPhase_arrives ep addr (pageSwitching_arrives (next := .addressPhase) hp))))
    exact ⟨hr, ((((bsqWorks_pageSwitching _ s).1.trans (bsqWorks_addressPhase ep addr _).1).trans
      (bsqWorks_dataPhase ep _ _).1).trans (bsqDrives_csPhase ep _)).trans hw.1, fun hn => absurd rfl (hn _ _ _ _ _ _)⟩
  | xferRd ep len x =>
    obtain ⟨hr, hw⟩ := bsqReply_rests (readBack_concludes ep len (pageSwitching_arrives (next := .readBack) hp))
    have := ((bsqWorks_pageSwitching .readBack s).trans (bsqWorks_readBack ep len _)).trans hw
    exact ⟨hr, this.1, fun _ => this⟩
  | _ => cases hi

end BsqCommands

end Sys2Proof.Machine
end

section
/-! PROOF. What follows from the course of the commands: the exchanges they make, the frames of both agents, and where a word
goes that its agent takes (30 R95). -/

namespace Sys2Proof.Machine

section BsqExec
variable {i : Instr} {s t : State}

theorem bsqFree_iff (s : State) : s.bsqFree = true ↔ s.pcBsq = .idle ∧ s.bsqWaits = false := by
  simp [State.bsqFree]

theorem exec_bsq_taken (hi : isBsqCommand i = true) (hf : s.bsqFree = true) :
    exec i s = .next (runOut i (enter i (bsqTake (encodeWord i) s))) := by
  rw [exec_taken ((canBegin_bsq hi s).trans hf), begin_bsq hi]

/-- A BSQ command handed over under LCU's lock is kept in `REQ`, and that is all (10 R24). -/
theorem exec_bsq_waits (hi : isBsqCommand i = true) (hf : s.bsqFree = true) (hl : s.lock = .lcu) :
    exec i s = .next (bsqTake (encodeWord i) s) := by
  rw [exec_bsq_taken hi hf, enter_wait (s := bsqTake _ s) i (.inr hl),
    runOut_idle (s := bsqTake _ s) hi ((bsqFree_iff s).1 hf).1]

/-- From `s` to `t` a BSQ command was run to its response: BSQ rests, and what is not its own is kept. -/
def BsqRan (i : Instr) (s t : State) : Prop :=
  BsqRests t ∧ t.bsqWaits = false ∧ BsqKeeps (bsqTake (encodeWord i) s) t ∧ Adds Event.Listed s t
    ∧ (NoCsPulse i → t.csv = s.csv ∧ t.deg = s.deg)

/-- A BSQ command that finds the lock open runs to its response. -/
theorem exec_bsq_runs (hi : isBsqCommand i = true) (hf : s.bsqFree = true) (hl : s.lock ≠ .lcu) :
    ∃ t, exec i s = .next t ∧ BsqRan i s t := by
  refine ⟨_, exec_bsq_taken hi hf, ?_⟩
  rcases enter_open hi (s := bsqTake (encodeWord i) s) rfl hl with ⟨e, he⟩ | ⟨he, -⟩ <;> rw [he]
  · rw [runOut_idle hi rfl]
    exact ⟨⟨rfl, rfl⟩, rfl, .refl _, .one rfl (legalResponse_word e), fun _ => ⟨rfl, rfl⟩⟩
  · obtain ⟨hr, ⟨hk, hw, ha⟩, hc⟩ :=
      runOut_rests hi (s := { bsqAcquire (bsqTake (encodeWord i) s) with pcBsq := firstPc i }) rfl
    exact ⟨hr, hw, hk, ha, fun hn => (hc hn).2⟩

theorem exec_bsq_cases (hi : isBsqCommand i = true) (he : exec i s = .next t) :
    (s.bsqFree = false ∧ t = s.enqueue (encodeWord i))
      ∨ (s.bsqFree = true ∧ s.lock = .lcu ∧ t = bsqTake (encodeWord i) s)
      ∨ (s.bsqFree = true ∧ s.lock ≠ .lcu ∧ BsqRan i s t) := by
  cases hf : s.bsqFree with
  | false =>
    rw [exec_busy (isCommand_of_bsq hi) ((canBegin_bsq hi s).trans hf)] at he
    exact .inl ⟨rfl, (Host.Outcome.next.inj he).symm⟩
  | true =>
    by_cases hl : s.lock = .lcu
    · rw [exec_bsq_waits hi hf hl] at he
      exact .inr (.inl ⟨rfl, hl, (Host.Outcome.next.inj he).symm⟩)
    · obtain ⟨u, hu, hr⟩ := exec_bsq_runs hi hf hl
      obtain rfl := Host.Outcome.next.inj (he.symm.trans hu)
      exact .inr (.inr ⟨rfl, hl, hr⟩)

end BsqExec

theorem exec_attach_busy (r : Bool) (x : BitVec 23) {s : State} (h : s.lcuReady = false) :
    exec (.attach r x) s = .next (s.enqueue (encodeWord (.attach r x))) := exec_busy (i := .attach r x) rfl h

theorem exec_detach_busy (x : BitVec 24) {s : State} (h : s.lcuReady = false) :
    exec (.detach x) s = .next (s.enqueue (encodeWord (.detach x))) := exec_busy (i := .detach x) rfl h

/-- Whatever a command does, the events it adds are listed ones. -/
theorem exec_adds {i : Instr} {s t : State} (hi : isCommand i = true) (he : exec i s = .next t) :
    Adds Event.Listed s t := by
  cases hc : canBegin i s with
  | false =>
    rw [exec_busy hi hc] at he
    rw [← Host.Outcome.next.inj he]
    exact .of_eq rfl
  | true =>
    cases hb : isBsqCommand i with
    | true =>
      rcases exec_bsq_cases hb he with ⟨-, rfl⟩ | ⟨-, -, rfl⟩ | ⟨-, -, -, -, -, ha, -⟩
      · exact .of_eq rfl
      · exact .of_eq rfl
      · exact ha
    | false =>
      cases i with
      | attach r x => exact (exec_attach_goes hc he).2.2
      | detach x => exact (exec_detach_goes hc he).2.2
      | busWr a v => cases hi
      | busRd a => cases hi
      | _ => cases hb

/-! ### The record of the concentrator's registers over LCU's commands -/

theorem recordKept_runAttach (s : State) : RecordKept s (runAttach s) := by
  have h7 := ((((((recordKept_step1 s).trans (recordKept_step2 _)).trans (recordKept_step3 _)).trans
    (recordKept_step4 _)).trans (recordKept_step5 _)).trans (recordKept_step6 _)).trans (recordKept_step7 _)
  rw [runAttach]
  exact (h7.trans (.of_eq (step8_chip _))).trans (.of_eq (unwind_chip _))

theorem recordKept_exec_attach {r : Bool} {x : BitVec 23} {s t : State} (he : exec (.attach r x) s = .next t) :
    RecordKept s t := by
  cases hc : s.lcuReady with
  | false =>
    rw [← Host.Outcome.next.inj ((exec_attach_busy r x hc).symm.trans he)]
    exact .of_eq rfl
  | true =>
    rw [← Host.Outcome.next.inj ((exec_attach_taken r x hc).symm.trans he)]
    exact (RecordKept.of_eq (beginAttach_chip _ r s)).trans (recordKept_runAttach _)

/-! ### What DETACH leaves as it was -/

/-- `TMP`, `RSTP`, the reset line, the answers and everything known of the concentrator. -/
def DetachKeeps (s t : State) : Prop :=
  t.tmp = s.tmp ∧ t.rstp = s.rstp ∧ t.resetLine = s.resetLine ∧ t.answers = s.answers ∧ t.drawn = s.drawn
    ∧ t.busReply = s.busReply ∧ t.chip = s.chip

theorem DetachKeeps.refl (s : State) : DetachKeeps s s := ⟨rfl, rfl, rfl, rfl, rfl, rfl, rfl⟩

theorem DetachKeeps.trans {s t u : State} (h1 : DetachKeeps s t) (h2 : DetachKeeps t u) : DetachKeeps s u := by
  simp only [DetachKeeps] at *
  simp [h1, h2]

theorem detachKeeps_if {s t : State} {p : Prop} [Decidable p] (h : DetachKeeps s t) :
    DetachKeeps s (if p then t else s) := by
  split
  · exact h
  · exact .refl s

theorem detachKeeps_unregisterLive (ep : Endpoint) (s : State) : DetachKeeps s (unregisterLive ep s) := by
  rw [unregisterLive_eq]
  exact .refl s

theorem detachKeeps_runDetach (s : State) : DetachKeeps s (runDetach s) :=
  ((detachKeeps_if (detachKeeps_unregisterLive .b s)).trans (detachKeeps_if (detachKeeps_unregisterLive .a _))).trans
    (detachKeeps_if (.refl _))

theorem detachKeeps_beginDetach (w : Word) (s : State) : DetachKeeps s (beginDetach w s) := by
  unfold beginDetach
  dsimp only
  split <;> exact .refl s

theorem detachKeeps_exec {x : BitVec 24} {s t : State} (he : exec (.detach x) s = .next t) : DetachKeeps s t := by
  cases hc : s.lcuReady with
  | false =>
    rw [← Host.Outcome.next.inj ((exec_detach_busy x hc).symm.trans he)]
    exact .refl s
  | true =>
    rw [← Host.Outcome.next.inj ((exec_detach_taken x hc).symm.trans he)]
    exact (detachKeeps_beginDetach _ s).trans (detachKeeps_runDetach _)

/-! ### A legal word goes to its agent -/

theorem isBsqCommand_of_fieldOp {w : Word} {i : Instr} (hd : decodeCommand w = .ok i)
    (h : fieldOp w = 1 ∨ fieldOp w = 2 ∨ fieldOp w = 3 ∨ fieldOp w = 4) : isBsqCommand i = true := by
  obtain ⟨-, ⟨-, rfl⟩ | ⟨-, rfl⟩ | ⟨-, rfl⟩ | ⟨-, rfl⟩ | ⟨hop, -⟩ | ⟨hop, -⟩⟩ := decodeCommand_cases hd
  case inr.inr.inr.inr.inl => simp [hop] at h
  case inr.inr.inr.inr.inr => simp [hop] at h
  all_goals rfl

theorem lcuCommand_of_fieldOp {w : Word} {i : Instr} (hd : decodeCommand w = .ok i) (h : fieldOp w = 5 ∨ fieldOp w = 6) :
    (∃ r x, i = .attach r x) ∨ ∃ x, i = .detach x := by
  obtain ⟨-, ⟨hop, -⟩ | ⟨hop, -⟩ | ⟨hop, -⟩ | ⟨hop, -⟩ | ⟨-, rfl⟩ | ⟨-, rfl⟩⟩ := decodeCommand_cases hd
  case inr.inr.inr.inr.inl => exact .inl ⟨_, _, rfl⟩
  case inr.inr.inr.inr.inr => exact .inr ⟨_, rfl⟩
  all_goals simp [hop] at h

/-- The word `w` is in `REQ` of LCU, `REQ` of BSQ and the waiting commands are as they were. -/
def HandedToLcu (w : Word) (s t : State) : Prop := t.reqLcu = some w ∧ t.reqBsq = s.reqBsq ∧ t.cmd = s.cmd

/-- The word `w` is in `REQ` of BSQ, `REQ` of LCU and the waiting commands are as they were. -/
def HandedToBsq (w : Word) (s t : State) : Prop := t.reqBsq = some w ∧ t.reqLcu = s.reqLcu ∧ t.cmd = s.cmd

theorem LcuGoes.handed {w : Word} {s t : State} (h : LcuGoes { s with reqLcu := some w } t) : HandedToLcu w s t := by
  obtain ⟨⟨-, hq, -, -, -, -, -, hc, -, hl⟩, -⟩ := h
  exact ⟨hl, hq, hc⟩

/-- LCU takes a command, served whole or only taken. -/
theorem handed_lcu {i : Instr} (hi : (∃ r x, i = .attach r x) ∨ ∃ x, i = .detach x) {s : State} (hr : s.lcuReady = true) :
    canBegin i s = true ∧ HandedToLcu (encodeWord i) s (begin i s)
      ∧ ∃ t, exec i s = .next t ∧ HandedToLcu (encodeWord i) s t := by
  rcases hi with ⟨r, x, rfl⟩ | ⟨x, rfl⟩
  · exact ⟨hr, (lcuGoes_beginAttach _ r s).handed, _, exec_attach_taken r x hr, (lcuGoes_attach _ r hr).handed⟩
  · exact ⟨hr, (lcuGoes_beginDetach _ s).handed, _, exec_detach_taken x hr, (lcuGoes_detach _ s).handed⟩

theorem BsqKeeps.handed {w : Word} {s t : State} (h : BsqKeeps (bsqTake w s) t) : HandedToBsq w s t := by
  obtain ⟨-, -, -, -, -, -, hl, hb, -, -, -, -, -, hc, -⟩ := h
  exact ⟨hb, hl, hc⟩

theorem bsqKeeps_enter (i : Instr) (s : State) : BsqKeeps s (enter i s) := by
  by_cases h : s.bsqWaits = true ∧ s.lock ≠ .lcu
  · cases hi : isBsqCommand i with
    | false => cases i <;> cases hi <;> exact .refl s
    | true => rcases enter_open hi h.1 h.2 with ⟨e, he⟩ | ⟨he, -⟩ <;> rw [he] <;> exact .refl s
  · rw [enter_wait i (by cases hw : s.bsqWaits <;> simp_all)]
    exact .refl s

/-- BSQ takes a command, served whole or only taken, whoever holds the lock. -/
theorem handed_bsq {i : Instr} (hi : isBsqCommand i = true) {s : State} (hf : s.bsqFree = true) :
    canBegin i s = true ∧ HandedToBsq (encodeWord i) s (begin i s)
      ∧ ∃ t, exec i s = .next t ∧ HandedToBsq (encodeWord i) s t := by
  refine ⟨(canBegin_bsq hi s).trans hf, ?_, ?_⟩
  · rw [begin_bsq hi]
    exact (bsqKeeps_enter i _).handed
  · by_cases hl : s.lock = .lcu
    · exact ⟨_, exec_bsq_waits hi hf hl, rfl, rfl, rfl⟩
    · obtain ⟨t, ht, -, -, hk, -⟩ := exec_bsq_runs hi hf hl
      exact ⟨t, ht, hk.handed⟩

/-- The step that serves or hands over a waiting command whose agent can take it. -/
theorem step_handed {P : State → Prop} {w : Word} {i : Instr} {s : State} {k : Nat} {ts : List Turn}
    (hd : decodeCommand w = .ok i) (hb : s.busPort = []) (hk : s.cmd[k]? = some w)
    (ht : s.turns = .serve k :: ts ∨ s.turns = .start k :: ts)
    (h : canBegin i { s with turns := ts, cmd := s.cmd.eraseIdx k } = true
      ∧ P (begin i { s with turns := ts, cmd := s.cmd.eraseIdx k })
      ∧ ∃ t, exec i { s with turns := ts, cmd := s.cmd.eraseIdx k } = .next t ∧ P t) : ∃ t, step s = .next t ∧ P t := by
  obtain ⟨hc, hbegin, t, hexec, hp⟩ := h
  rcases ht with ht | ht
  · exact ⟨t, (step_serve_legal hb ht hk hd).trans hexec, hp⟩
  · exact ⟨_, step_start_legal hb ht hk hd hc, hbegin⟩

end Sys2Proof.Machine

namespace Sys2Proof.Proofs

open Sys2Proof.Machine

/-- Settles O18 (`exec_adds`). -/
theorem commandsMakeOnlyListedExchanges : Obligations.CommandsMakeOnlyListedExchanges :=
  fun _ _ _ hi he => exec_adds hi he

/-- Settles O37: a BSQ command waits on CMD, waits for the lock, or runs to its response. -/
theorem bsqCommandsFrame : Obligations.BsqCommandsFrame := by
  intro i s t hi he
  have hi := (isBsqCommand_iff i).2 hi
  rcases exec_bsq_cases hi he with ⟨hf, rfl⟩ | ⟨hf, hl, rfl⟩ | ⟨hf, hl, ⟨hp, hlock⟩, hw, hk, -, hc⟩
  · simp [hf, State.bsqReady]
  · simp [hf, hl, State.bsqReady, State.lockOpenToBsq]
  · obtain ⟨h1, h2, h3, h4, h5, h6, h7, -, h9, h10, h11, h12, h13, h14, h15⟩ := hk
    have hready : s.bsqReady = true := by simp [State.bsqReady, hf, State.lockOpenToBsq, hl]
    exact ⟨h1, h2, h3, h4, h5, h6, hp.trans ((bsqFree_iff s).1 hf).1.symm, h7, h9, h10, h11, h12, h13, h15,
      fun _ => ⟨hlock, hw⟩, by simp [hready], fun _ => h14, by simp [hf], hc⟩

/-- Settles O50: ATTACH by what every primitive of bring-up keeps, DETACH by what its three parts keep. -/
theorem lifecycleCommandsFrame : Obligations.LifecycleCommandsFrame := by
  refine ⟨fun r x s t he => ?_, fun x s t he => ?_⟩
  · have hrec : ∀ k, (∀ p, k ≠ regKey p Config.hw.genReg) → (∀ p, k ≠ regKey p Config.hw.clkReg) →
        (∀ p, k ≠ regKey p Config.hw.rctrlReg) → t.chip.mem.read k = s.chip.mem.read k ∨ t.chip.mem.read k = none :=
      fun k hg hc hr => recordKept_exec_attach he k (by rintro a (rfl | rfl | rfl) <;> assumption)
    cases hl : s.lcuReady with
    | true =>
      obtain ⟨⟨h1, h2, h3, h4, h5, h6, h7, h8, h9, -⟩, -⟩ := exec_attach_goes hl he
      exact ⟨h1, h2, h3, h4, h5, h6, h7, h9, fun _ => h8, hrec⟩
    | false =>
      obtain rfl := Host.Outcome.next.inj ((exec_attach_busy r x hl).symm.trans he)
      exact ⟨rfl, rfl, rfl, rfl, rfl, rfl, rfl, rfl, by simp, hrec⟩
  · have hkeep := detachKeeps_exec he
    cases hl : s.lcuReady with
    | true =>
      obtain ⟨⟨h1, h2, h3, h4, h5, h6, h7, h8, h9, -⟩, -⟩ := exec_detach_goes hl he
      exact ⟨h1, h2, h3, h4, h5, h6, h7, h9, fun _ => h8, hkeep⟩
    | false =>
      obtain rfl := Host.Outcome.next.inj ((exec_detach_busy x hl).symm.trans he)
      exact ⟨rfl, rfl, rfl, rfl, rfl, rfl, rfl, rfl, by simp, hkeep⟩

/-- Settles O54: the word of the instruction is the word that was waiting, and its agent takes it. -/
theorem legalWordsAreHandedToTheirAgent : Obligations.LegalWordsAreHandedToTheirAgent := by
  rintro w s k ts ⟨i, hd⟩ hb hk ht
  have hw := encodeWord_of_decodeCommand hd
  refine ⟨fun hop hr => ?_, fun hop hf => ?_⟩
  · refine step_handed hd hb hk ht ?_
    rw [← hw]
    exact handed_lcu (lcuCommand_of_fieldOp hd hop) (s := { s with turns := ts, cmd := s.cmd.eraseIdx k }) hr
  · refine step_handed hd hb hk ht ?_
    rw [← hw]
    exact handed_bsq (isBsqCommand_of_fieldOp hd hop) (s := { s with turns := ts, cmd := s.cmd.eraseIdx k }) hf

end Sys2Proof.Proofs
end

section
/-! PROOF. A command in moves (10 R30, R31; logs 2, 3 and 6). A move brings its agent nearer to its response and does not change
what remains of the command (`moves_run`), so the moves together are the command served whole; and BSQ is idle after six. -/

namespace Sys2Proof.Machine

/-! ### Moves one after another -/

/-- An agent's moves, each of which does the next part of `run`, do `run` when there are as many as it needs. -/
theorem moves_run {turn : Turn} {move run : State → State} {P : State → Prop} {left : State → Nat}
    (hstep : ∀ s ts, P s → step (s.withTurns (turn :: ts)) = .next ((move s).withTurns ts))
    (hkeep : ∀ s, P s → P (move s))
    (hrun : ∀ s, P s → run (move s) = run s)
    (hless : ∀ s, P s → left s ≠ 0 → left (move s) < left s)
    (hdone : ∀ s, P s → left s = 0 → move s = s ∧ run s = s)
    (ts : List Turn) : ∀ (n : Nat) (s : State), P s → left s ≤ n →
      runSteps n (s.withTurns (List.replicate n turn ++ ts)) = .next ((run s).withTurns ts) := by
  intro n
  induction n with
  | zero =>
    intro s hs hl
    rw [(hdone s hs (Nat.le_zero.1 hl)).2]
    rfl
  | succ n ih =>
    intro s hs hl
    rw [List.replicate_succ, List.cons_append, runSteps_succ n _ _ (hstep s _ hs)]
    by_cases h0 : left s = 0
    · rw [(hdone s hs h0).1]
      exact ih s hs (by omega)
    · have := hless s hs h0
      rw [ih (move s) (hkeep s hs) (by omega), hrun s hs]

/-! ### The operations do not read the choices to come -/

theorem commutes_enter (i : Instr) : Commutes (enter i) := by
  cases i
  case ensurePage => exact commutes_enterPageCmd _
  case softReset => exact commutes_enterPageCmd _
  case xferWr => exact commutes_enterXfer _ _
  case xferRd => exact commutes_enterXfer _ _
  all_goals exact commutes_id

theorem commutes_bsqActions (i : Instr) : Commutes (bsqActions i) := by
  intro s ts
  have hp : (s.withTurns ts).pcBsq = s.pcBsq := rfl
  unfold bsqActions
  rw [hp]
  split
  · exact commutes_enterPageCmd _ s ts
  · exact commutes_enterPageCmd _ s ts
  · exact commutes_enterXfer _ _ s ts
  · exact commutes_enterXfer _ _ s ts
  · exact commutes_pageOp _ s ts
  · exact commutes_srstOp s ts
  · exact commutes_pageSwitching _ s ts
  · exact commutes_addressPhase _ _ s ts
  · exact commutes_dataPhase _ _ s ts
  · exact commutes_csPhase _ s ts
  · exact commutes_pageSwitching _ s ts
  · exact commutes_readBack _ _ s ts
  · exact commutes_bsqReply s ts

theorem commutes_lcuActions : Commutes lcuActions := by
  intro s ts
  have hp : (s.withTurns ts).pcLcu = s.pcLcu := rfl
  have hr : (s.withTurns ts).regPhase = s.regPhase := rfl
  have hA : (s.withTurns ts).epLiveA = s.epLiveA := rfl
  have hB : (s.withTurns ts).epLiveB = s.epLiveB := rfl
  unfold lcuActions
  rw [hp, hr, hA, hB]
  split
  · exact commutes_attachAcquire s ts
  · exact commutes_step1 s ts
  · exact commutes_step2 s ts
  · exact commutes_step3 s ts
  · exact commutes_step4 s ts
  · exact commutes_step5 s ts
  · exact commutes_step6 s ts
  · exact commutes_step7 s ts
  · split
    · exact commutes_step8AskA s ts
    · exact commutes_step8AnswerA s ts
    · exact commutes_step8AskB s ts
    · exact commutes_step8AnswerB s ts
    · exact commutes_step8Finish s ts
  · exact commutes_unwind s ts
  · split
    · exact commutes_detachB s ts
    · split
      · exact commutes_detachA s ts
      · exact commutes_detachEnd s ts

theorem commutes_beginAttach (w : Word) (r : Bool) : Commutes (beginAttach w r) := by
  intro s ts
  have hl : (s.withTurns ts).lc = s.lc := rfl
  unfold beginAttach
  dsimp only
  rw [hl]
  split
  · rfl
  · exact commutes_attachAcquire { s with reqLcu := some w, lc := .attaching, rstp := r } ts

theorem commutes_beginDetach (w : Word) : Commutes (beginDetach w) := by
  intro s ts
  have hl : (s.withTurns ts).lc = s.lc := rfl
  unfold beginDetach
  dsimp only
  rw [hl]
  split <;> rfl

theorem commutes_begin (i : Instr) : Commutes (begin i) := by
  intro s ts
  cases hi : isBsqCommand i with
  | true =>
    rw [begin_bsq hi, begin_bsq hi]
    exact commutes_enter i (bsqTake (encodeWord i) s) ts
  | false =>
    cases i with
    | attach r x => exact commutes_beginAttach _ r s ts
    | detach x => exact commutes_beginDetach _ s ts
    | busWr a v => rfl
    | busRd a => rfl
    | _ => cases hi

/-! ### BSQ's moves -/

/-- BSQ is on the path of the command `i`, with its response in `RESP` at the end of it, and does not wait unless for LCU's
lock. -/
def BsqRuns (i : Instr) (s : State) : Prop :=
  s.busPort = [] ∧ OnPath i s ∧ bsqOnPath i s.pcBsq = true ∧ (s.pcBsq = .done ∨ s.pcBsq = .failed → s.respBsq ≠ none)
    ∧ (s.bsqWaits = true → s.pcBsq = .idle ∧ s.lock = .lcu)

section BsqMoves
variable {i : Instr} {s : State}

theorem isBsqCommand_of_onPath {pc : BsqPc} (h : bsqOnPath i pc = true) : isBsqCommand i = true := by
  cases i <;> simp [bsqOnPath, isBsqCommand] at h ⊢

theorem bsqActions_idle (hi : isBsqCommand i = true) (hp : s.pcBsq = .idle) : bsqActions i s = enter i s := by
  cases i <;> cases hi <;> simp only [bsqActions, hp, enter]

/-- BSQ's move is the actions of its sequencer state, also when it has no command. -/
theorem bsqMove_actions (ho : OnPath i s) (hp : bsqOnPath i s.pcBsq = true)
    (hr : s.pcBsq = .done ∨ s.pcBsq = .failed → s.respBsq ≠ none) : bsqMove s = .next (bsqActions i s) := by
  cases hf : s.bsqFree with
  | false => exact bsqMove_onPath hf ho hp hr
  | true =>
    obtain ⟨hidle, hw⟩ := (bsqFree_iff s).1 hf
    rw [bsqMove_free hf, bsqActions_idle (isBsqCommand_of_onPath hp) hidle, enter_wait i (.inl hw)]

theorem BsqRuns.move (h : BsqRuns i s) : bsqMove s = .next (bsqActions i s) := bsqMove_actions h.2.1 h.2.2.1 h.2.2.2.1

/-- In `IDLE` nothing is left to do: the command was refused, or it has ended, or it waits for LCU's lock. -/
theorem BsqRuns.idle (h : BsqRuns i s) (hp : s.pcBsq = .idle) : bsqActions i s = s ∧ runOut i s = s := by
  obtain ⟨-, -, hon, -, hwait⟩ := h
  have hi := isBsqCommand_of_onPath hon
  refine ⟨?_, runOut_idle hi hp⟩
  rw [bsqActions_idle hi hp, enter_wait i]
  cases hw : s.bsqWaits with
  | false => exact .inl rfl
  | true => exact .inr (hwait hw).2

theorem BsqRuns.goes (h : BsqRuns i s) (hp : s.pcBsq ≠ .idle) : BsqGoes s (bsqActions i s) := by
  rcases bsqMove_course h.move with ⟨-, hi, -⟩ | ⟨hi, -⟩ | ⟨-, hg⟩
  · exact absurd hi hp
  · exact absurd hi hp
  · exact hg

theorem movesLeft_values : movesLeft .pageSwitching = 5 ∧ movesLeft .addressPhase = 4 ∧ movesLeft .dataPhase = 3
    ∧ movesLeft .csPulse = 2 ∧ movesLeft .readBack = 2 ∧ movesLeft .done = 1 ∧ movesLeft .failed = 1 :=
  ⟨rfl, rfl, rfl, rfl, rfl, rfl, rfl⟩

theorem movesLeft_pos {pc : BsqPc} (h : pc ≠ .idle) : 0 < movesLeft pc := by
  cases pc <;> simp [movesLeft] at h ⊢

/-- A move in mid-command brings BSQ nearer to its response. -/
theorem BsqGoes.movesLeft_lt {t : State} (h : BsqGoes s t) (hp : s.pcBsq ≠ .idle) :
    movesLeft t.pcBsq < movesLeft s.pcBsq := by
  obtain ⟨-, -, es, -, ⟨-, -, hlt, -⟩ | ⟨-, hi, -⟩⟩ := h
  · exact hlt
  · rw [hi]
    exact movesLeft_pos hp

/-- Where BSQ's actions lead: a sequencer state on the path, with the response in `RESP` at the end of it. -/
def BsqStands (i : Instr) (s : State) : Prop :=
  bsqOnPath i s.pcBsq = true ∧ (s.pcBsq = .done ∨ s.pcBsq = .failed → s.respBsq ≠ none)

theorem BsqArrives.stands {pc : BsqPc} (h : BsqArrives pc s) (hpc : bsqOnPath i pc = true)
    (hf : bsqOnPath i .failed = true) (hn : pc ≠ .done ∧ pc ≠ .failed) : BsqStands i s := by
  rcases h with h | ⟨h, w, hw, -⟩
  · exact ⟨by rw [h]; exact hpc, by simp [h, hn]⟩
  · exact ⟨by rw [h]; exact hf, by simp [hw]⟩

theorem BsqConcludes.stands (h : BsqConcludes s) (hd : bsqOnPath i .done = true) (hf : bsqOnPath i .failed = true) :
    BsqStands i s := by
  obtain ⟨h | h, w, hw, -⟩ := h
  · exact ⟨by rw [h]; exact hd, by simp [hw]⟩
  · exact ⟨by rw [h]; exact hf, by simp [hw]⟩

theorem BsqRests.stands (hi : isBsqCommand i = true) (h : BsqRests s) : BsqStands i s := by
  have hon : bsqOnPath i .idle = true := by cases i <;> cases hi <;> rfl
  exact ⟨by rw [h.1]; exact hon, by simp [h.1]⟩

theorem bsqReply_idle (hp : s.pcBsq = .done ∨ s.pcBsq = .failed) (hr : s.respBsq ≠ none) : BsqRests (bsqReply s) := by
  obtain ⟨w, hw⟩ := Option.ne_none_iff_exists'.1 hr
  rw [bsqReply, if_pos hp, hw]
  exact ⟨rfl, rfl⟩

theorem bsqActions_stands (h : BsqRuns i s) (hp : s.pcBsq ≠ .idle) : BsqStands i (bsqActions i s) := by
  obtain ⟨-, -, hon, hr, -⟩ := h
  have hi := isBsqCommand_of_onPath hon
  unfold bsqActions
  split
  next hpc => exact absurd hpc hp
  next hpc => exact absurd hpc hp
  next hpc => exact absurd hpc hp
  next hpc => exact absurd hpc hp
  next p _ hpc => exact (runOut_rests hi hpc).1.stands hi
  next hpc => exact (runOut_rests hi hpc).1.stands hi
  next hpc =>
    have hl := lenValid_of_onPath_xferWr hon hp
    exact (pageSwitching_arrives hpc).stands (by simp [bsqOnPath, hl]) (by simp [bsqOnPath, hl]) (by decide)
  next hpc =>
    have hl := lenValid_of_onPath_xferWr hon hp
    exact (addressPhase_arrives _ _ (.inl hpc)).stands (by simp [bsqOnPath, hl]) (by simp [bsqOnPath, hl]) (by decide)
  next hpc =>
    have hl := lenValid_of_onPath_xferWr hon hp
    exact (dataPhase_arrives _ _ (.inl hpc)).stands (by simp [bsqOnPath, hl]) (by simp [bsqOnPath, hl]) (by decide)
  next hpc =>
    have hl := lenValid_of_onPath_xferWr hon hp
    exact (csPhase_concludes _ (.inl hpc)).stands (by simp [bsqOnPath, hl]) (by simp [bsqOnPath, hl])
  next hpc =>
    have hl := lenValid_of_onPath_xferRd hon hp
    exact (pageSwitching_arrives hpc).stands (by simp [bsqOnPath, hl]) (by simp [bsqOnPath, hl]) (by decide)
  next hpc =>
    have hl := lenValid_of_onPath_xferRd hon hp
    exact (readBack_concludes _ _ (.inl hpc)).stands (by simp [bsqOnPath, hl]) (by simp [bsqOnPath, hl])
  next i _ _ h1 h2 h3 h4 h5 h6 h7 h8 h9 h10 h11 h12 =>
    have hpc : s.pcBsq = .done ∨ s.pcBsq = .failed := by
      cases i with
      | ensurePage p x => exact absurd (by simpa [bsqOnPath, hp] using hon) (h5 _ _ rfl)
      | softReset x => exact absurd (by simpa [bsqOnPath, hp] using hon) (h6 _ rfl)
      | xferWr ep len dv addr data x =>
        simp only [bsqOnPath, Bool.or_eq_true, Bool.and_eq_true, beq_iff_eq] at hon
        rcases (hon.resolve_left hp).2 with ((((hpc | hpc) | hpc) | hpc) | hpc) | hpc
        · exact absurd hpc (h7 _ _ _ _ _ _ rfl)
        · exact absurd hpc (h8 _ _ _ _ _ _ rfl)
        · exact absurd hpc (h9 _ _ _ _ _ _ rfl)
        · exact absurd hpc (h10 _ _ _ _ _ _ rfl)
        · exact .inl hpc
        · exact .inr hpc
      | xferRd ep len x =>
        simp only [bsqOnPath, Bool.or_eq_true, Bool.and_eq_true, beq_iff_eq] at hon
        rcases (hon.resolve_left hp).2 with ((hpc | hpc) | hpc) | hpc
        · exact absurd hpc (h11 _ _ _ rfl)
        · exact absurd hpc (h12 _ _ _ rfl)
        · exact .inl hpc
        · exact .inr hpc
      | _ => cases hi
    exact (bsqReply_idle hpc (hr hpc)).stands hi

theorem BsqRuns.actions (h : BsqRuns i s) : BsqRuns i (bsqActions i s) := by
  by_cases hp : s.pcBsq = .idle
  · rw [(h.idle hp).1]
    exact h
  · obtain ⟨hk, hw, -⟩ := h.goes hp
    obtain ⟨hon, hr⟩ := bsqActions_stands h hp
    obtain ⟨-, -, -, -, -, -, -, hreq, -, -, -, -, -, -, hbus⟩ := hk
    obtain ⟨hb, ⟨w, hw', hd⟩, -, -, hwait⟩ := h
    exact ⟨hbus.trans hb, ⟨w, hreq.trans hw', hd⟩, hon, hr, fun hh => absurd (hwait (hw.symm.trans hh)).1 hp⟩

/-! ### A move does not change what remains of a command -/

section Skip
variable (next : BsqPc) (ep : Endpoint) (v : Byte) (len : Nat)

theorem pageSwitching_skip (h : movesLeft s.pcBsq < 5) : pageSwitching next s = s :=
  if_neg fun hp => by simp [hp, movesLeft] at h

theorem addressPhase_skip (h : movesLeft s.pcBsq < 4) : addressPhase ep v s = s :=
  if_neg fun hp => by simp [hp, movesLeft] at h

theorem dataPhase_skip (h : movesLeft s.pcBsq < 3) : dataPhase ep v s = s :=
  if_neg fun hp => by simp [hp, movesLeft] at h

theorem csPhase_skip (h : movesLeft s.pcBsq < 2) : csPhase ep s = s :=
  if_neg fun hp => by simp [hp, movesLeft] at h

theorem readBack_skip (h : movesLeft s.pcBsq < 2) : readBack ep len s = s :=
  if_neg fun hp => by simp [hp, movesLeft] at h

theorem bsqReply_skip (h : movesLeft s.pcBsq < 1) : bsqReply s = s :=
  if_neg fun hp => by rcases hp with hp | hp <;> simp [hp, movesLeft] at h

end Skip

/-- The actions of a transfer's sequencer state are its part of the transfer: the rest is what follows of it. -/
theorem runOut_actions (h : BsqRuns i s) : runOut i (bsqActions i s) = runOut i s := by
  by_cases hp : s.pcBsq = .idle
  · rw [(h.idle hp).1]
  have hlt := (h.goes hp).movesLeft_lt hp
  have hon := h.2.2.1
  cases i with
  | ensurePage p x =>
    have hpc : s.pcBsq = .pageOp := by simpa [bsqOnPath, hp] using hon
    have ha : bsqActions (.ensurePage p x) s = runOut (.ensurePage p x) s := by simp only [bsqActions, hpc, runOut]
    rw [ha, runOut_idle rfl (runOut_rests rfl hpc).1.1]
  | softReset x =>
    have hpc : s.pcBsq = .srstOp := by simpa [bsqOnPath, hp] using hon
    have ha : bsqActions (.softReset x) s = runOut (.softReset x) s := by simp only [bsqActions, hpc, runOut]
    rw [ha, runOut_idle rfl (runOut_rests rfl hpc).1.1]
  | xferWr ep len dv addr data x =>
    simp only [bsqOnPath, Bool.or_eq_true, Bool.and_eq_true, beq_iff_eq] at hon
    rcases (hon.resolve_left hp).2 with ((((hpc | hpc) | hpc) | hpc) | hpc) | hpc
    all_goals
      have hs := congrArg movesLeft hpc
      simp only [movesLeft_values] at hs
      simp only [bsqActions, hpc, movesLeft_values] at hlt ⊢
      simp (disch := omega) only [runOut, runXferWr, pageSwitching_skip, addressPhase_skip, dataPhase_skip, csPhase_skip,
        bsqReply_skip]
  | xferRd ep len x =>
    simp only [bsqOnPath, Bool.or_eq_true, Bool.and_eq_true, beq_iff_eq] at hon
    rcases (hon.resolve_left hp).2 with ((hpc | hpc) | hpc) | hpc
    all_goals
      have hs := congrArg movesLeft hpc
      simp only [movesLeft_values] at hs
      simp only [bsqActions, hpc, movesLeft_values] at hlt ⊢
      simp (disch := omega) only [runOut, runXferRd, pageSwitching_skip, readBack_skip, bsqReply_skip]
  | _ => cases isBsqCommand_of_onPath hon

/-- The moves a command of BSQ makes at most from a sequencer state of its path: a read transfer has fewer before it. -/
def movesOf (i : Instr) (pc : BsqPc) : Nat :=
  match i, pc with
  | .xferRd _ _ _, .pageSwitching => 3
  | _, _ => movesLeft pc

theorem movesOf_eq_movesLeft (h : (∀ ep len x, i ≠ .xferRd ep len x) ∨ s.pcBsq ≠ .pageSwitching) :
    movesOf i s.pcBsq = movesLeft s.pcBsq := by
  unfold movesOf
  split
  · rename_i hpc
    rcases h with h | h
    · exact absurd rfl (h _ _ _)
    · exact absurd hpc h
  · rfl

theorem movesOf_le_movesLeft (i : Instr) (pc : BsqPc) : movesOf i pc ≤ movesLeft pc := by
  unfold movesOf
  split
  · decide
  · exact le_rfl

theorem movesOf_lt (h : BsqRuns i s) (hp : s.pcBsq ≠ .idle) : movesOf i (bsqActions i s).pcBsq < movesOf i s.pcBsq := by
  have hlt := (h.goes hp).movesLeft_lt hp
  have hle := movesOf_le_movesLeft i (bsqActions i s).pcBsq
  by_cases hc : (∃ ep len x, i = .xferRd ep len x) ∧ s.pcBsq = .pageSwitching
  · obtain ⟨⟨ep, len, x, rfl⟩, hpc⟩ := hc
    have ha : bsqActions (.xferRd ep len x) s = pageSwitching .readBack s := by simp only [bsqActions, hpc]
    rw [ha] at hle ⊢
    have h2 : movesLeft (pageSwitching .readBack s).pcBsq ≤ 2 := by
      rcases pageSwitching_arrives (next := .readBack) hpc with h | ⟨h, -⟩ <;> rw [h] <;> decide
    rw [hpc]
    exact Nat.lt_succ_of_le (hle.trans h2)
  · rw [movesOf_eq_movesLeft (i := i) (s := s)]
    · exact hle.trans_lt hlt
    · by_cases hr : ∃ ep len x, i = .xferRd ep len x
      · exact .inr fun hpc => hc ⟨hr, hpc⟩
      · exact .inl fun ep len x he => hr ⟨ep, len, x, he⟩

/-- BSQ moved on alone runs its command out. -/
theorem BsqRuns.runSteps (h : BsqRuns i s) {n : Nat} (hn : movesOf i s.pcBsq ≤ n) (ts : List Turn) :
    runSteps n (s.withTurns (List.replicate n Turn.bsq ++ ts)) = .next ((runOut i s).withTurns ts) := by
  refine moves_run (turn := .bsq) (P := BsqRuns i) (move := bsqActions i) (left := fun s => movesOf i s.pcBsq)
    ?_ (fun _ => BsqRuns.actions) (fun _ => runOut_actions) ?_ ?_ ts n s h hn
  · intro u us hu
    rw [step_bsq us u hu.1, ← commutes_bsqActions i u us]
    exact BsqRuns.move (s := u.withTurns us) hu
  · intro u hu hl
    exact movesOf_lt hu fun hp => hl (by rw [hp]; cases i <;> rfl)
  · intro u hu hl
    refine hu.idle (by_contra fun hp => ?_)
    have := movesOf_lt hu hp
    omega

/-- A well-formed command that BSQ has taken runs. -/
theorem bsqRuns_begin (hi : isBsqCommand i = true) (hw : i.WellFormed) (hf : s.bsqFree = true) (hb : s.busPort = []) :
    BsqRuns i (begin i s) := by
  have hp := ((bsqFree_iff s).1 hf).1
  have ho := decodeCommand_encodeWord hw (isCommand_of_bsq hi)
  have hidle : bsqOnPath i .idle = true := by cases i <;> cases hi <;> rfl
  rw [begin_bsq hi]
  by_cases hl : s.lock = .lcu
  · rw [enter_wait (s := bsqTake (encodeWord i) s) i (.inr hl)]
    exact ⟨hb, ⟨_, rfl, ho⟩, by rw [bsqTake_pcBsq, hp]; exact hidle, by simp [hp], fun _ => ⟨hp, hl⟩⟩
  · have hfirst : firstPc i ≠ .done ∧ firstPc i ≠ .failed := by cases i <;> simp [firstPc]
    rcases enter_open hi (s := bsqTake (encodeWord i) s) rfl hl with ⟨e, he⟩ | ⟨he, hon⟩ <;> rw [he]
    · exact ⟨hb, ⟨_, rfl, ho⟩, hidle, by simp [bsqRaise, bsqRespond], by simp [bsqRaise, bsqRespond, bsqAcquire]⟩
    · exact ⟨hb, ⟨_, rfl, ho⟩, hon, by simp [hfirst], by simp [bsqAcquire]⟩

end BsqMoves

/-! ### Six moves of BSQ -/

/-- The moves BSQ makes at most before it is idle: with the lock open a waiting command has its `Acquire` before it. -/
def bsqDistance (s : State) : Nat := if s.bsqWaits = true ∧ s.lock ≠ .lcu then 6 else movesLeft s.pcBsq

theorem bsqDistance_le (s : State) : bsqDistance s ≤ 6 := by
  unfold bsqDistance
  split
  · exact le_rfl
  · cases s.pcBsq <;> decide

/-- From a state of the invariant a move of BSQ keeps it, does not give LCU the lock, and brings BSQ nearer to `IDLE`, unless
there is nothing BSQ can do. -/
theorem bsqMove_nearer {s : State} (h : s.Inv) :
    ∃ u, bsqMove s = .next u ∧ u.Inv ∧ u.turns = s.turns ∧ u.busPort = s.busPort ∧ (s.lock ≠ .lcu → u.lock ≠ .lcu)
    ∧ (u = s ∧ s.pcBsq = .idle ∧ (s.bsqWaits = false ∨ s.lock = .lcu) ∨ bsqDistance u < bsqDistance s) := by
  obtain ⟨-, ⟨-, -, hlock⟩, -, -, -, hwait, -⟩ := id h
  have hinv : ∃ u, bsqMove s = .next u ∧ u.Inv := by
    rcases h.bsqMove_eq with ⟨-, hm⟩ | ⟨i, ho, hp, hm⟩
    · exact ⟨s, hm, h⟩
    · exact ⟨_, hm, inv_bsqActions h ho hp⟩
  obtain ⟨u, hm, hu⟩ := hinv
  refine ⟨u, hm, hu, ?_⟩
  rcases bsqMove_course hm with ⟨rfl, hi, hw⟩ | ⟨-, hw, hl, hk, hw', hc⟩ | ⟨hp, hg⟩
  · exact ⟨rfl, rfl, id, .inl ⟨rfl, hi, hw⟩⟩
  · obtain ⟨-, -, -, -, -, -, -, -, -, -, -, -, hturns, -, hbus⟩ := hk
    have hd : bsqDistance u = movesLeft u.pcBsq := if_neg (by simp [hw'])
    have hs : bsqDistance s = 6 := if_pos ⟨hw, hl⟩
    rcases hc with ⟨hlu, -, hm5, -⟩ | ⟨hlu, hpu, -⟩
    · exact ⟨hturns, hbus, fun _ => by simp [hlu], .inr (by omega)⟩
    · exact ⟨hturns, hbus, fun _ => by simp [hlu], .inr (by rw [hd, hs, hpu]; decide)⟩
  · have hwf : s.bsqWaits = false := Bool.eq_false_iff.2 fun hw => hp (hwait hw)
    have hlt := hg.movesLeft_lt hp
    obtain ⟨⟨-, -, -, -, -, -, -, -, -, -, -, -, hturns, -, hbus⟩, hwu, es, -, hc⟩ := hg
    have hd : bsqDistance u = movesLeft u.pcBsq := if_neg (by simp [hwu, hwf])
    have hs : bsqDistance s = movesLeft s.pcBsq := if_neg (by simp [hwf])
    refine ⟨hturns, hbus, fun hl => ?_, .inr (by omega)⟩
    rcases hc with ⟨hlu, -⟩ | ⟨hlu, -⟩
    · rwa [hlu]
    · simp [hlu]

/-- As many moves of BSQ as its distance leave it idle. -/
theorem runSteps_bsq (ts : List Turn) : ∀ (n : Nat) (s : State), s.Inv → s.busPort = [] →
    s.turns = List.replicate n Turn.bsq ++ ts → bsqDistance s ≤ n →
    ∃ t, runSteps n s = .next t ∧ t.Inv ∧ t.pcBsq = .idle ∧ (s.lock ≠ .lcu → t.bsqFree = true) := by
  intro n
  induction n with
  | zero =>
    intro s hs _ _ hd
    have h0 : ¬ (s.bsqWaits = true ∧ s.lock ≠ .lcu) := fun hc => by
      rw [bsqDistance, if_pos hc] at hd
      cases hd
    rw [bsqDistance, if_neg h0] at hd
    have hp : s.pcBsq = .idle := by_contra fun hp => absurd (movesLeft_pos hp) (by omega)
    exact ⟨s, rfl, hs, hp, fun hl => (bsqFree_iff s).2 ⟨hp, Bool.eq_false_iff.2 fun hw => h0 ⟨hw, hl⟩⟩⟩
  | succ n ih =>
    intro s hs hb ht hd
    obtain ⟨u, hm, hu, hturns, hbus, hl, hc⟩ := bsqMove_nearer (s := { s with turns := List.replicate n Turn.bsq ++ ts }) hs
    have hstep : step s = .next u := by
      rw [step, fetch_turn hb (ts := List.replicate n Turn.bsq ++ ts) (by rw [ht]; rfl), takeTurn, hm]
    rw [runSteps_succ n s u hstep]
    have hdu : bsqDistance u ≤ n := by
      rcases hc with ⟨hu', hp, hw⟩ | hlt
      · have h0 : ¬ (u.bsqWaits = true ∧ u.lock ≠ .lcu) := by
          rw [hu']
          rintro ⟨h1, h2⟩
          rcases hw with hw | hw
          · exact Bool.false_ne_true (hw.symm.trans h1)
          · exact h2 hw
        have hpu : u.pcBsq = .idle := by rw [hu']; exact hp
        rw [bsqDistance, if_neg h0, hpu]
        exact Nat.zero_le n
      · exact Nat.le_of_lt_succ (hlt.trans_le hd)
    obtain ⟨t, hrun, hti, htp, htf⟩ := ih u hu (hbus.trans hb) hturns hdu
    exact ⟨t, hrun, hti, htp, fun h => htf (hl h)⟩

end Sys2Proof.Machine

namespace Sys2Proof.Proofs

open Sys2Proof.Machine

/-- Settles O20: a move brings BSQ nearer to `IDLE`, which is at most six moves away. -/
theorem bsqCommandEndsInSixMoves : Obligations.BsqCommandEndsInSixMoves := by
  intro s ts hs hb
  obtain ⟨t, hrun, ⟨-, ⟨-, -, hlock⟩, -⟩, hp, hf⟩ :=
    runSteps_bsq ts 6 (s.withTurns (List.replicate 6 Turn.bsq ++ ts)) hs hb rfl (bsqDistance_le _)
  exact ⟨t, hrun, hp, fun hl => absurd (hlock.2 hl) (by simp [hp, BsqPc.holdsLock]), hf⟩

/-- Settles O55: `Acquire` does nothing under LCU's lock, and otherwise does what it would have done at once. -/
theorem bsqCommandWaitsForTheLock : Obligations.BsqCommandWaitsForTheLock := by
  intro i s hi hw hf hl
  have hi := (isBsqCommand_iff i).2 hi
  have hd := decodeCommand_encodeWord hw (isCommand_of_bsq hi)
  have hmove : ∀ u : State, u.pcBsq = .idle → u.bsqWaits = true → u.reqBsq = some (encodeWord i) →
      bsqMove u = .next (enter i u) := fun u hp hwu hq => by
    rw [bsqMove_actions (i := i) ⟨_, hq, hd⟩ (by rw [hp]; cases i <;> cases hi <;> rfl) (by simp [hp]),
      bsqActions_idle hi hp]
  refine ⟨bsqTake (encodeWord i) s, exec_bsq_waits hi hf hl, rfl, ?_, fun u hp hwu hq hlu => ?_⟩
  · rw [hmove (bsqTake _ s) ((bsqFree_iff s).1 hf).1 rfl rfl, enter_wait (s := bsqTake _ s) i (.inr hl)]
  · have ht : bsqTake (encodeWord i) { u with bsqWaits := false } = u := by
      rw [bsqTake, ← hwu, ← (show u.reqBsq = some (encodeWord i) from hq)]
    rw [hmove u hp hwu hq, begin_bsq hi, ht]

end Sys2Proof.Proofs
end

section
/-! PROOF. LCU's commands in moves, and with BSQ's (`BsqRuns.runSteps`) every command in moves (10 R30, R31; logs 2, 3
and 6). -/

namespace Sys2Proof.Machine

/-! ### ATTACH in moves -/

/-- The moves of bring-up at most from the beginning of a sequencer state to its response. -/
def pcLeft : LcuPc → Nat
  | .step1 => 12
  | .step2 => 11
  | .step3 => 10
  | .step4 => 9
  | .step5 => 8
  | .step6 => 7
  | .step7 => 6
  | .step8 => 5
  | .unwind => 1
  | .idle => 0
  | .detach => 0

/-- The moves of step 8 that are made. -/
def phaseDone : RegPhase → Nat
  | .start => 0
  | .waitA => 1
  | .gotA => 2
  | .waitB => 3
  | .gotB => 4

/-- The moves of bring-up at most from here to its response. -/
def attachLeft (s : State) : Nat := if s.pcLcu = .step8 then 5 - phaseDone s.regPhase else pcLeft s.pcLcu

section AttachMoves
variable {s t : State} {n : Nat}

theorem attachLeft_step8 (h : s.pcLcu = .step8) : attachLeft s = 5 - phaseDone s.regPhase := if_pos h

theorem attachLeft_of_ne (h : s.pcLcu ≠ .step8) : attachLeft s = pcLeft s.pcLcu := if_neg h

theorem attachLeft_le (s : State) : attachLeft s ≤ pcLeft s.pcLcu := by
  by_cases h : s.pcLcu = .step8
  · rw [attachLeft_step8 h, h]
    exact Nat.sub_le _ _
  · rw [attachLeft_of_ne h]

theorem attachLeft_idle (h : s.pcLcu = .idle) : attachLeft s = 0 := by
  rw [attachLeft_of_ne (by simp [h]), h]
  rfl

theorem attachLeft_phase {ph : RegPhase} (h : s.pcLcu = .step8 ∧ s.regPhase = ph) : attachLeft s = 5 - phaseDone ph := by
  rw [attachLeft_step8 h.1, h.2]

/-! A step whose turn is past does nothing. -/

theorem step1_past (h : attachLeft s < 12) : step1 s = s := step1_skip fun hp => by simp [attachLeft, hp, pcLeft] at h
theorem step2_past (h : attachLeft s < 11) : step2 s = s := step2_skip fun hp => by simp [attachLeft, hp, pcLeft] at h
theorem step3_past (h : attachLeft s < 10) : step3 s = s := step3_skip fun hp => by simp [attachLeft, hp, pcLeft] at h
theorem step4_past (h : attachLeft s < 9) : step4 s = s := step4_skip fun hp => by simp [attachLeft, hp, pcLeft] at h
theorem step5_past (h : attachLeft s < 8) : step5 s = s := step5_skip fun hp => by simp [attachLeft, hp, pcLeft] at h
theorem step6_past (h : attachLeft s < 7) : step6 s = s := step6_skip fun hp => by simp [attachLeft, hp, pcLeft] at h
theorem step7_past (h : attachLeft s < 6) : step7 s = s := step7_skip fun hp => by simp [attachLeft, hp, pcLeft] at h
theorem unwind_past (h : attachLeft s < 1) : unwind s = s := unwind_skip fun hp => by simp [attachLeft, hp, pcLeft] at h

theorem step8AskA_past (h : attachLeft s < 5) : step8AskA s = s :=
  if_neg fun hp => by simp [attachLeft_phase hp, phaseDone] at h
theorem step8AnswerA_past (h : attachLeft s < 4) : step8AnswerA s = s :=
  if_neg fun hp => by simp [attachLeft_phase hp, phaseDone] at h
theorem step8AskB_past (h : attachLeft s < 3) : step8AskB s = s :=
  if_neg fun hp => by simp [attachLeft_phase hp, phaseDone] at h
theorem step8AnswerB_past (h : attachLeft s < 2) : step8AnswerB s = s :=
  if_neg fun hp => by simp [attachLeft_phase hp, phaseDone] at h
theorem step8Finish_past (h : attachLeft s < 1) : step8Finish s = s :=
  if_neg fun hp => by simp [attachLeft_phase hp, phaseDone] at h

/-- LCU is in bring-up, holding the lock open to it, or it waits for the lock or is done. -/
def AttachRuns (s : State) : Prop :=
  s.busPort = [] ∧ s.pcLcu ≠ .detach ∧ (s.pcLcu ≠ .idle → s.lock ≠ .bsq) ∧ UnwindLegal s
    ∧ (s.pcLcu = .idle → attachAcquire s = s)

/-- Where a move of bring-up leads: fewer moves than `n` are left. -/
def AttachStands (n : Nat) (s : State) : Prop :=
  attachLeft s < n ∧ s.pcLcu ≠ .detach ∧ UnwindLegal s ∧ (s.pcLcu = .idle → s.lc ≠ .attaching)

theorem UnwindsLegally.stands (h : UnwindsLegally s) (hn : 1 < n) : AttachStands n s := by
  obtain ⟨hp, hw⟩ := id h
  exact ⟨(attachLeft_le s).trans_lt (by rw [hp]; exact hn), by simp [hp], fun _ => h, by simp [hp]⟩

theorem LcuArrives.stands {pc : LcuPc} (h : LcuArrives pc s) (hpc : pc ≠ .idle ∧ pc ≠ .detach ∧ pc ≠ .unwind)
    (hn : pcLeft pc < n) (hn1 : 1 < n) : AttachStands n s := by
  rcases id h with hp | hu
  · exact ⟨(attachLeft_le s).trans_lt (by rw [hp]; exact hn), by rw [hp]; exact hpc.2.1, h.unwindLegal hpc.2.2,
      fun hi => absurd (hp.symm.trans hi) hpc.1⟩
  · exact hu.stands hn1

/-- Step 8 goes on. -/
theorem attachStands_phase {ph : RegPhase} (h : s.pcLcu = .step8 ∧ s.regPhase = ph) (hn : 5 - phaseDone ph < n) :
    AttachStands n s :=
  ⟨by rwa [attachLeft_phase h], by simp [h.1], fun hu => by simp [h.1] at hu, by simp [h.1]⟩

/-- The move of a sequencer state of bring-up is that state's step, which does not change what remains of bring-up. -/
theorem lcuActions_attach (h : AttachRuns s) (hp : s.pcLcu ≠ .idle) :
    AttachStands (attachLeft s) (lcuActions s) ∧ runAttach (lcuActions s) = runAttach s := by
  obtain ⟨-, hnd, hl, hu, -⟩ := h
  have run : ∀ (n : Nat) (t : State), attachLeft s = n → lcuActions s = t → AttachStands n t →
      (attachLeft t < n → runAttach t = runAttach s) →
      AttachStands (attachLeft s) (lcuActions s) ∧ runAttach (lcuActions s) = runAttach s :=
    fun n t hn ht hs hr => by rw [hn, ht]; exact ⟨hs, hr hs.1⟩
  cases hpc : s.pcLcu with
  | idle => exact absurd hpc hp
  | detach => exact absurd hpc hnd
  | step1 =>
    refine run 12 (step1 s) (by simp [attachLeft, hpc, pcLeft]) (by simp only [lcuActions, hpc])
      ((step1_arrives hpc).stands (by decide) (by decide) (by decide)) fun hlt => ?_
    simp (disch := omega) only [runAttach, step1_past]
  | step2 =>
    have hs : attachLeft s = 11 := by simp [attachLeft, hpc, pcLeft]
    refine run 11 (step2 s) hs (by simp only [lcuActions, hpc])
      ((step2_arrives hpc).stands (by decide) (by decide) (by decide)) fun hlt => ?_
    simp (disch := omega) only [runAttach, step1_past, step2_past]
  | step3 =>
    have hs : attachLeft s = 10 := by simp [attachLeft, hpc, pcLeft]
    refine run 10 (step3 s) hs (by simp only [lcuActions, hpc])
      ((step3_arrives hpc).stands (by decide) (by decide) (by decide)) fun hlt => ?_
    simp (disch := omega) only [runAttach, step1_past, step2_past, step3_past]
  | step4 =>
    have hs : attachLeft s = 9 := by simp [attachLeft, hpc, pcLeft]
    refine run 9 (step4 s) hs (by simp only [lcuActions, hpc])
      ((step4_arrives hpc).stands (by decide) (by decide) (by decide)) fun hlt => ?_
    simp (disch := omega) only [runAttach, step1_past, step2_past, step3_past, step4_past]
  | step5 =>
    have hs : attachLeft s = 8 := by simp [attachLeft, hpc, pcLeft]
    refine run 8 (step5 s) hs (by simp only [lcuActions, hpc])
      ((step5_arrives hpc).stands (by decide) (by decide) (by decide)) fun hlt => ?_
    simp (disch := omega) only [runAttach, step1_past, step2_past, step3_past, step4_past, step5_past]
  | step6 =>
    have hs : attachLeft s = 7 := by simp [attachLeft, hpc, pcLeft]
    refine run 7 (step6 s) hs (by simp only [lcuActions, hpc])
      ((step6_arrives hpc).stands (by decide) (by decide) (by decide)) fun hlt => ?_
    simp (disch := omega) only [runAttach, step1_past, step2_past, step3_past, step4_past, step5_past, step6_past]
  | step7 =>
    have hs : attachLeft s = 6 := by simp [attachLeft, hpc, pcLeft]
    refine run 6 (step7 s) hs (by simp only [lcuActions, hpc])
      ((step7_arrives hpc).stands (by decide) (by decide) (by decide)) fun hlt => ?_
    simp (disch := omega) only [runAttach, step1_past, step2_past, step3_past, step4_past, step5_past, step6_past,
      step7_past]
  | step8 =>
    have hs := attachLeft_step8 hpc
    have skip : ∀ t, attachLeft t < 6 → runAttach t = unwind (step8 t) := fun t ht => by
      simp (disch := omega) only [runAttach, step1_past, step2_past, step3_past, step4_past, step5_past, step6_past,
        step7_past]
    cases hph : s.regPhase with
    | start =>
      have ha : step8AskA s = { s with epLiveA := true, regPhase := .waitA } := if_pos ⟨hpc, hph⟩
      rw [hph] at hs
      refine run 5 (step8AskA s) hs (by simp only [lcuActions, hpc, hph])
        (attachStands_phase (ph := .waitA) (by rw [ha]; exact ⟨hpc, rfl⟩) (by decide)) fun hlt => ?_
      simp (disch := simp only [phaseDone] at hs; omega) only [skip, step8, step8AskA_past]
    | waitA =>
      rw [hph] at hs
      refine run 4 (step8AnswerA s) hs (by simp only [lcuActions, hpc, hph]) ?_ fun hlt => ?_
      · exact (step8AnswerA_arrives hpc hph).elim (fun h => attachStands_phase h (by decide)) fun h => h.stands (by decide)
      · simp (disch := simp only [phaseDone] at hs; omega) only [skip, step8, step8AskA_past, step8AnswerA_past]
    | gotA =>
      have ha : step8AskB s = { s with epLiveB := true, regPhase := .waitB } := if_pos ⟨hpc, hph⟩
      rw [hph] at hs
      refine run 3 (step8AskB s) hs (by simp only [lcuActions, hpc, hph])
        (attachStands_phase (ph := .waitB) (by rw [ha]; exact ⟨hpc, rfl⟩) (by decide)) fun hlt => ?_
      simp (disch := simp only [phaseDone] at hs; omega) only [skip, step8, step8AskA_past, step8AnswerA_past, step8AskB_past]
    | waitB =>
      rw [hph] at hs
      refine run 2 (step8AnswerB s) hs (by simp only [lcuActions, hpc, hph]) ?_ fun hlt => ?_
      · exact (step8AnswerB_arrives hpc hph).elim (fun h => attachStands_phase h (by decide)) fun h => h.stands (by decide)
      · simp (disch := simp only [phaseDone] at hs; omega) only [skip, step8, step8AskA_past, step8AnswerA_past,
          step8AskB_past, step8AnswerB_past]
    | gotB =>
      have ha : step8Finish s = lcuRespond okWord { s with lc := .running, pcLcu := .idle, regPhase := .start } :=
        if_pos ⟨hpc, hph⟩
      rw [hph] at hs
      refine run 1 (step8Finish s) hs (by simp only [lcuActions, hpc, hph]) ?_ fun hlt => ?_
      · rw [ha]
        exact ⟨Nat.lt_one_iff.2 (attachLeft_idle rfl), by simp [lcuRespond], fun hu => by simp [lcuRespond] at hu,
          by simp [lcuRespond]⟩
      · simp (disch := simp only [phaseDone] at hs; omega) only [skip, step8, step8AskA_past, step8AnswerA_past,
          step8AskB_past, step8AnswerB_past, step8Finish_past, unwind_past]
  | unwind =>
    have hs : attachLeft s = 1 := by simp [attachLeft, hpc, pcLeft]
    have hf : step8Finish s = s := if_neg fun h => by simp [hpc] at h
    obtain ⟨-, w, hw, -⟩ := hu hpc
    have ha : unwind s = s.unwound w := unwind_open hpc (hl hp) hw
    refine run 1 (unwind s) hs (by simp only [lcuActions, hpc]) ?_ fun hlt => ?_
    · rw [ha]
      exact ⟨Nat.lt_one_iff.2 (attachLeft_idle rfl), by simp [State.unwound], fun hu => by simp [State.unwound] at hu,
        by simp [State.unwound]⟩
    · simp (disch := omega) only [runAttach, step1_past, step2_past, step3_past, step4_past, step5_past, step6_past,
        step7_past, step8, step8AskA_past, step8AnswerA_past, step8AskB_past, step8AnswerB_past, step8Finish_past, hf,
        unwind_past]

theorem lcuGoes_lcuActions (h : AttachRuns s) : LcuGoes s (lcuActions s) := by
  obtain ⟨-, hnd, -, hu, -⟩ := h
  unfold lcuActions
  split
  · exact lcuGoes_attachAcquire s
  · exact lcuGoes_step1 s
  · exact lcuGoes_step2 s
  · exact lcuGoes_step3 s
  · exact lcuGoes_step4 s
  · exact lcuGoes_step5 s
  · exact lcuGoes_step6 s
  · exact lcuGoes_step7 s
  · split
    · exact lcuGoes_step8AskA s
    · exact lcuGoes_step8AnswerA s
    · exact lcuGoes_step8AskB s
    · exact lcuGoes_step8AnswerB s
    · exact lcuGoes_step8Finish s
  next hpc =>
    obtain ⟨-, w, hw, hl⟩ := hu hpc
    exact lcuGoes_unwind fun v hv => by rw [hw] at hv; cases hv; exact hl
  next hpc => exact absurd hpc hnd

theorem AttachRuns.idle (h : AttachRuns s) (hp : s.pcLcu = .idle) : lcuActions s = s ∧ runAttach s = s :=
  ⟨by simpa only [lcuActions, hp] using h.2.2.2.2 hp, runAttach_idle hp⟩

theorem AttachRuns.actions (h : AttachRuns s) : AttachRuns (lcuActions s) := by
  by_cases hp : s.pcLcu = .idle
  · rw [(h.idle hp).1]
    exact h
  · obtain ⟨⟨-, -, -, -, -, -, -, -, hbus, -⟩, hl, -⟩ := lcuGoes_lcuActions h
    obtain ⟨⟨-, hnd, hu, hlc⟩, -⟩ := lcuActions_attach h hp
    obtain ⟨hb, -, hls, -, -⟩ := h
    exact ⟨hbus.trans hb, hnd, fun _ => hl (hls hp), hu, fun hi => if_neg fun hc => hlc hi hc.2.1⟩

/-- LCU moved on alone runs bring-up out. -/
theorem AttachRuns.runSteps (h : AttachRuns s) (hn : attachLeft s ≤ n) (ts : List Turn) :
    runSteps n (s.withTurns (List.replicate n Turn.lcu ++ ts)) = .next ((runAttach s).withTurns ts) := by
  refine moves_run (turn := .lcu) (P := AttachRuns) (move := lcuActions) (left := attachLeft)
    ?_ (fun _ => AttachRuns.actions) ?_ ?_ ?_ ts n s h hn
  · intro u us hu
    rw [step_lcu us u hu.1, ← commutes_lcuActions u us]
    refine (lcuMove_eq _).resolve_right fun ⟨hp, hr, _⟩ => ?_
    obtain ⟨-, w, hw, -⟩ := hu.2.2.2.1 hp
    exact Option.some_ne_none w (hw.symm.trans hr)
  · intro u hu
    by_cases hp : u.pcLcu = .idle
    · rw [(hu.idle hp).1]
    · exact (lcuActions_attach hu hp).2
  · intro u hu hl
    exact (lcuActions_attach hu fun hp => hl (attachLeft_idle hp)).1.1
  · intro u hu hl
    refine hu.idle (by_contra fun hp => ?_)
    have := (lcuActions_attach hu hp).1.1
    omega

/-- ATTACH taken by LCU runs. -/
theorem attachRuns_beginAttach (w : Word) (r : Bool) (hr : s.lcuReady = true) (hb : s.busPort = []) :
    AttachRuns (beginAttach w r s) := by
  have hi := lcuReady_idle hr
  have hlc : s.lc ≠ .attaching := by simpa [State.lcuReady, State.lcuBusy, hi] using hr
  unfold beginAttach
  dsimp only
  split
  · exact ⟨hb, by simp [lcuRespond, hi], by simp [lcuRespond, hi], fun hu => by simp [lcuRespond, hi] at hu,
      fun _ => if_neg fun hc => hlc hc.2.1⟩
  · by_cases hl : s.lock = .bsq
    · have ha : attachAcquire { s with reqLcu := some w, lc := .attaching, rstp := r }
          = { s with reqLcu := some w, lc := .attaching, rstp := r } := if_neg (by simp [State.lockOpenToLcu, hl])
      rw [ha]
      exact ⟨hb, by simp [hi], by simp [hi], fun hu => by simp [hi] at hu, fun _ => ha⟩
    · have ha : attachAcquire { s with reqLcu := some w, lc := .attaching, rstp := r }
          = { s with reqLcu := some w, lc := .attaching, rstp := r, lock := .lcu, pcLcu := .step1 } :=
        if_pos ⟨hi, rfl, by simpa [State.lockOpenToLcu] using hl⟩
      rw [ha]
      exact ⟨hb, by simp, by simp, fun hu => by simp at hu, by simp⟩

theorem attachLeft_le_twelve (s : State) : attachLeft s ≤ 12 :=
  (attachLeft_le s).trans (by cases s.pcLcu <;> decide)

end AttachMoves

/-! ### DETACH in moves -/

section DetachMoves
variable {s : State} {n : Nat}

/-- The moves of DETACH from here to its response: one for each live endpoint, and the last when the lock is open to LCU. -/
def detachLeft (s : State) : Nat :=
  if s.pcLcu = .detach then s.epLiveB.toNat + s.epLiveA.toNat + (if s.lock = .bsq then 0 else 1) else 0

theorem detachLeft_detach (h : s.pcLcu = .detach) :
    detachLeft s = s.epLiveB.toNat + s.epLiveA.toNat + (if s.lock = .bsq then 0 else 1) := if_pos h

theorem detachLeft_le (s : State) : detachLeft s ≤ 3 := by
  have hA := Bool.toNat_le s.epLiveA
  have hB := Bool.toNat_le s.epLiveB
  unfold detachLeft
  split
  · split <;> omega
  · omega

/-- LCU is in DETACH, or is done with it. -/
def DetachRuns (s : State) : Prop :=
  s.busPort = [] ∧ (s.pcLcu = .detach ∨ (s.pcLcu = .idle ∧ s.lc ≠ .attaching))

theorem detachB_dead (h : s.epLiveB = false) : detachB s = s := by simp [detachB, unregisterLive, State.live, h]

theorem detachA_dead (h : s.epLiveA = false) : detachA s = s := by simp [detachA, unregisterLive, State.live, h]

theorem detachB_live (hp : s.pcLcu = .detach) (h : s.epLiveB = true) :
    detachB s = { s with epLiveB := false, events := s.events ++ [.unreg .b] } := by
  rw [detachB, if_pos hp, unregisterLive, if_pos (by exact h)]
  rfl

theorem detachA_live (hp : s.pcLcu = .detach) (h : s.epLiveA = true) :
    detachA s = { s with epLiveA := false, events := s.events ++ [.unreg .a] } := by
  rw [detachA, if_pos hp, unregisterLive, if_pos (by exact h)]
  rfl

/-- A move of DETACH does not change what remains of it, and leaves fewer moves, unless LCU waits for the lock. -/
theorem lcuActions_detach (hb : s.busPort = []) (hp : s.pcLcu = .detach) :
    DetachRuns (lcuActions s) ∧ runDetach (lcuActions s) = runDetach s
      ∧ (detachLeft (lcuActions s) < detachLeft s ∨ (lcuActions s = s ∧ detachLeft s = 0 ∧ runDetach s = s)) := by
  cases hB : s.epLiveB with
  | true =>
    have ha : lcuActions s = detachB s := by simp only [lcuActions, hp, hB, if_true]
    have ht := detachB_live hp hB
    refine ⟨by rw [ha, ht]; exact ⟨hb, .inl hp⟩, ?_, .inl ?_⟩
    · rw [ha, runDetach, detachB_dead (s := detachB s) (by rw [ht]), runDetach]
    · rw [ha, ht, detachLeft_detach hp, hB, detachLeft_detach (by exact hp)]
      simp
  | false =>
    cases hA : s.epLiveA with
    | true =>
      have ha : lcuActions s = detachA s := by simp only [lcuActions, hp, hB, hA, if_true]; rfl
      have ht := detachA_live hp hA
      refine ⟨by rw [ha, ht]; exact ⟨hb, .inl hp⟩, ?_, .inl ?_⟩
      · rw [ha, runDetach, detachB_dead (s := detachA s) (by rw [ht]; exact hB), detachA_dead (s := detachA s) (by rw [ht]),
          runDetach, detachB_dead hB]
      · rw [ha, ht, detachLeft_detach hp, hA, detachLeft_detach (by exact hp), hB]
        simp
    | false =>
      have ha : lcuActions s = detachEnd s := by simp only [lcuActions, hp, hB, hA]; rfl
      have hr : runDetach s = detachEnd s := by rw [runDetach, detachB_dead hB, detachA_dead hA]
      by_cases hl : s.lock = .bsq
      · have he := detachEnd_waits hl
        rw [ha, he]
        exact ⟨⟨hb, .inl hp⟩, rfl, .inr ⟨rfl, by simp [detachLeft_detach hp, hA, hB, hl], hr.trans he⟩⟩
      · have he := detachEnd_destroys hp hA hB hl
        have hi : (detachEnd s).pcLcu = .idle := by rw [he]; rfl
        rw [ha, hr]
        refine ⟨by rw [he]; exact ⟨hb, .inr ⟨rfl, by simp [lcuRespond]⟩⟩, runDetach_idle hi, .inl ?_⟩
        rw [detachLeft, if_neg (by simp [hi]), detachLeft_detach hp, if_neg hl]
        omega

theorem DetachRuns.idle (h : DetachRuns s) (hp : s.pcLcu ≠ .detach) : lcuActions s = s ∧ runDetach s = s := by
  obtain ⟨hi, hc⟩ := h.2.resolve_left hp
  exact ⟨by simp only [lcuActions, hi, attachAcquire, hc, false_and, and_false, if_false], runDetach_idle hi⟩

/-- LCU moved on alone runs DETACH out, or waits for the lock. -/
theorem DetachRuns.runSteps (h : DetachRuns s) (hn : detachLeft s ≤ n) (ts : List Turn) :
    runSteps n (s.withTurns (List.replicate n Turn.lcu ++ ts)) = .next ((runDetach s).withTurns ts) := by
  refine moves_run (turn := .lcu) (P := DetachRuns) (move := lcuActions) (left := detachLeft)
    ?_ ?_ ?_ ?_ ?_ ts n s h hn
  · intro u us hu
    rw [step_lcu us u hu.1, ← commutes_lcuActions u us]
    refine (lcuMove_eq _).resolve_right fun ⟨hp, _, _⟩ => ?_
    rcases hu.2 with hd | ⟨hd, -⟩ <;> cases hd.symm.trans hp
  · intro u hu
    by_cases hp : u.pcLcu = .detach
    · exact (lcuActions_detach hu.1 hp).1
    · rw [(hu.idle hp).1]
      exact hu
  · intro u hu
    by_cases hp : u.pcLcu = .detach
    · exact (lcuActions_detach hu.1 hp).2.1
    · rw [(hu.idle hp).1]
  · intro u hu hl
    have hp : u.pcLcu = .detach := by_contra fun hp => hl (if_neg hp)
    exact (lcuActions_detach hu.1 hp).2.2.resolve_right fun hh => hl hh.2.1
  · intro u hu hl
    by_cases hp : u.pcLcu = .detach
    · obtain ⟨ha, -, hr⟩ := (lcuActions_detach hu.1 hp).2.2.resolve_left (by omega)
      exact ⟨ha, hr⟩
    · exact hu.idle hp

/-- DETACH taken by LCU runs. -/
theorem detachRuns_beginDetach (w : Word) (hr : s.lcuReady = true) (hb : s.busPort = []) : DetachRuns (beginDetach w s) := by
  have hi := lcuReady_idle hr
  unfold beginDetach
  dsimp only
  split
  next hd => exact ⟨hb, .inr ⟨hi, by simp [lcuRespond, show s.lc = .detached from hd]⟩⟩
  next => exact ⟨hb, .inl rfl⟩

end DetachMoves

/-! ### Every command in moves -/

theorem movesOf_le_moveCount {i : Instr} {pc : BsqPc} (h : bsqOnPath i pc = true) : movesOf i pc ≤ moveCount i := by
  cases i with
  | ensurePage p x => cases pc <;> simp [bsqOnPath, movesOf, movesLeft, moveCount] at h ⊢
  | softReset x => cases pc <;> simp [bsqOnPath, movesOf, movesLeft, moveCount] at h ⊢
  | xferWr ep len dv addr data x => cases pc <;> simp [movesOf, movesLeft, moveCount]
  | xferRd ep len x => cases pc <;> simp [bsqOnPath, movesOf, movesLeft, moveCount] at h ⊢
  | _ => cases h

/-- A well-formed command, taken by its agent, is run out by the moves of its agent. -/
theorem runSteps_begin {i : Instr} {s : State} (hw : i.WellFormed) (hc : canBegin i s = true) (hb : s.busPort = [])
    (ts : List Turn) :
    runSteps (moveCount i) ((begin i s).withTurns (List.replicate (moveCount i) (moveTurn i) ++ ts))
      = .next ((runOut i (begin i s)).withTurns ts) := by
  cases hi : isBsqCommand i with
  | true =>
    have hm : moveTurn i = .bsq := by cases i <;> cases hi <;> rfl
    rw [hm]
    have hr := bsqRuns_begin hi hw ((canBegin_bsq hi s).symm.trans hc) hb
    exact hr.runSteps (movesOf_le_moveCount hr.2.2.1) ts
  | false =>
    cases i with
    | attach r x => exact (attachRuns_beginAttach _ r hc hb).runSteps (attachLeft_le_twelve _) ts
    | detach x => exact (detachRuns_beginDetach _ hc hb).runSteps (detachLeft_le _) ts
    | busWr a v => cases hc
    | busRd a => cases hc
    | _ => cases hi

theorem commutes_runOut (i : Instr) : Commutes (runOut i) := by
  intro s ts
  cases i with
  | ensurePage p x => exact commutes_pageOp p s ts
  | softReset x => exact commutes_srstOp s ts
  | xferWr ep len dv addr data x =>
    simp only [runOut, runXferWr, commutes_pageSwitching _ s ts, commutes_addressPhase _ _ _ ts, commutes_dataPhase _ _ _ ts,
      commutes_csPhase _ _ ts, commutes_bsqReply _ ts]
  | xferRd ep len x =>
    simp only [runOut, runXferRd, commutes_pageSwitching _ s ts, commutes_readBack _ _ _ ts, commutes_bsqReply _ ts]
  | attach r x =>
    simp only [runOut, runAttach, step8, commutes_step1 _ ts, commutes_step2 _ ts, commutes_step3 _ ts, commutes_step4 _ ts,
      commutes_step5 _ ts, commutes_step6 _ ts, commutes_step7 _ ts, commutes_step8AskA _ ts, commutes_step8AnswerA _ ts,
      commutes_step8AskB _ ts, commutes_step8AnswerB _ ts, commutes_step8Finish _ ts, commutes_unwind _ ts]
  | detach x =>
    simp only [runOut, runDetach, commutes_detachB _ ts, commutes_detachA _ ts, commutes_detachEnd _ ts]
  | busWr a v => rfl
  | busRd a => rfl

end Sys2Proof.Machine

namespace Sys2Proof.Proofs

open Sys2Proof.Machine

/-- Settles O19: each move brings its agent nearer to its response and does not change what remains of the command, so the
moves after the taking are the command served whole. -/
theorem movesRunTheWholeCommand : Obligations.MovesRunTheWholeCommand := by
  intro i w ts s hd hc hb
  have hstep := step_start_legal (k := 0) (i := i) (w := w)
    (s := { s with cmd := w :: s.cmd, turns := .start 0 :: (List.replicate (moveCount i) (moveTurn i) ++ ts) })
    (ts := List.replicate (moveCount i) (moveTurn i) ++ ts) hb rfl rfl hd (by cases i <;> exact hc)
  have hbegin : ∀ us, begin i (s.withTurns us) = (begin i s).withTurns us := commutes_begin i s
  rw [runSteps_succ _ _ _ hstep, exec_taken (i := i) (s := s.withTurns ts) (by cases i <;> exact hc), hbegin,
    commutes_runOut i _ ts]
  rw [← runSteps_begin (wellFormed_of_decodeCommand hd) hc hb ts, ← hbegin]
  rfl

end Sys2Proof.Proofs
end

section
/-! PROOF. The words kept in `REQ` are read by no operation (30 R81; log 22): each operation is the same on a state that
differs in them alone, so the bits a command ignores change nothing but `REQ`. -/

namespace Sys2Proof.Machine

/-- `s` with both `REQ` registers replaced. -/
def State.withReqs (b l : Option Word) (s : State) : State := { s with reqBsq := b, reqLcu := l }

/-- `f` neither reads nor writes the `REQ` registers. -/
def Ignores (f : State → State) : Prop := ∀ b l s, f (s.withReqs b l) = (f s).withReqs b l

/-- The same of an operation that also answers something. -/
def IgnoresPair {α : Type} (f : State → State × α) : Prop :=
  ∀ b l s, f (s.withReqs b l) = ((f s).1.withReqs b l, (f s).2)

section Ignores
variable {α : Type} {f g : State → State}

theorem ignores_id : Ignores id := fun _ _ _ => rfl

theorem Ignores.comp (hg : Ignores g) (hf : Ignores f) : Ignores fun s => g (f s) := fun b l s =>
  (congrArg g (hf b l s)).trans (hg b l (f s))

theorem ignores_if {c : State → Prop} [DecidablePred c] (hc : ∀ b l s, c (s.withReqs b l) ↔ c s) (hf : Ignores f) :
    Ignores fun s => if c s then f s else s := by
  intro b l s
  dsimp only
  by_cases h : c s
  · rw [if_pos h, if_pos ((hc b l s).2 h)]
    exact hf b l s
  · rw [if_neg h, if_neg fun hh => h ((hc b l s).1 hh)]

/-- What follows of an answer ignores `REQ` when it does for each answer. -/
theorem ignores_answer {p : State → State × α} {k : State × α → State} (hp : IgnoresPair p)
    (hk : ∀ r, Ignores fun t => k (t, r)) : Ignores fun s => k (p s) := fun b l s =>
  (congrArg k (hp b l s)).trans (hk (p s).2 b l (p s).1)

theorem IgnoresPair.comp {p : State → State × α} (hp : IgnoresPair p) (hf : Ignores f) : IgnoresPair fun s => p (f s) :=
  fun b l s => (congrArg p (hf b l s)).trans (hp b l (f s))

theorem ignores_orBusError {p : State → State × Option Cause} (hp : IgnoresPair p) (hf : Ignores f) :
    Ignores fun s => orBusError (p s) f :=
  ignores_answer (k := fun r => orBusError r f) hp fun r => by
    cases r with
    | none => exact hf
    | some c => exact fun _ _ _ => rfl

end Ignores

/-! ### The primitives -/

theorem ignores_memWrite (a : RegAddr) (v : Byte) : IgnoresPair (memWrite a v) := fun b l s => by
  simp only [memWrite_eq]
  rfl

theorem ignores_memRead (a : RegAddr) : IgnoresPair (memRead a) := fun b l s => by
  simp only [memRead_eq]
  rfl

theorem ignores_configure : IgnoresPair configure := fun b l s => by
  simp only [configure_eq]
  rfl

theorem ignores_registerEp (ep : Endpoint) : IgnoresPair (registerEp ep) := fun b l s => by
  simp only [registerEp_eq]
  rfl

theorem ignores_delay (n : Nat) : Ignores (delay n) := fun _ _ _ => rfl

theorem ignores_unregisterLive (ep : Endpoint) : Ignores (unregisterLive ep) := fun b l s => by
  simp only [unregisterLive_eq]
  cases ep <;> rfl

theorem ignores_ensurePage (p : Page) : IgnoresPair (ensurePage p) := by
  intro b l s
  by_cases h : s.curPage = .page p
  · rw [ensurePage_same h, ensurePage_same (by exact h)]
  · rw [ensurePage_other h, ensurePage_other (by exact h), memWrite_eq, memWrite_eq]
    rfl

theorem ignores_rmw (a : RegAddr) (clr set : Byte) : IgnoresPair (rmw a clr set) := by
  intro b l s
  unfold rmw
  rw [ignores_memRead a b l s]
  cases memRead a s with | mk t r =>
  cases r with
  | err c => rfl
  | ok v => exact ignores_memWrite a _ b l { t with tmp := some v }

/-! ### BSQ's commands -/

theorem ignores_enterPageCmd (pc : BsqPc) : Ignores (enterPageCmd pc) := by
  refine ignores_if (c := fun s => s.bsqWaits = true ∧ s.lockOpenToBsq = true) (fun _ _ _ => Iff.rfl) fun b l s => ?_
  dsimp only
  cases hi : (bsqAcquire s).inst <;> simp only [show (bsqAcquire (s.withReqs b l)).inst = _ from hi] <;> rfl

theorem ignores_enterXfer (ep : Endpoint) (len : Nat) : Ignores (enterXfer ep len) := by
  refine ignores_if (c := fun s => s.bsqWaits = true ∧ s.lockOpenToBsq = true) (fun _ _ _ => Iff.rfl) fun b l s => ?_
  have hl : (bsqAcquire (s.withReqs b l)).live ep = (bsqAcquire s).live ep := by cases ep <;> rfl
  dsimp only
  rw [hl]
  split
  · rfl
  · split <;> rfl

theorem ignores_finishPageCmd {p : State → State × Option Cause} (hp : IgnoresPair p) :
    Ignores fun s => finishPageCmd (p s) :=
  ignores_answer hp fun r => by cases r <;> exact fun _ _ _ => rfl

theorem ignores_pageOp (p : Page) : Ignores (pageOp p) :=
  ignores_if (fun _ _ _ => Iff.rfl) (ignores_finishPageCmd (ignores_ensurePage p))

theorem ignores_srstOp : Ignores srstOp := ignores_if (fun _ _ _ => Iff.rfl) (ignores_finishPageCmd (ignores_memWrite _ _))

theorem ignores_endPhase (next : BsqPc) (ph : Phase) {p : State → State × Option Cause} (hp : IgnoresPair p) :
    Ignores fun s => endPhase next ph (p s) :=
  ignores_answer hp fun r => by cases r <;> exact fun _ _ _ => rfl

theorem ignores_pageSwitching (next : BsqPc) : Ignores (pageSwitching next) :=
  ignores_if (fun _ _ _ => Iff.rfl) (ignores_endPhase next .pageSwitch (ignores_ensurePage _))

theorem ignores_addressPhase (ep : Endpoint) (v : Byte) : Ignores (addressPhase ep v) :=
  ignores_if (fun _ _ _ => Iff.rfl) (ignores_endPhase .dataPhase .address (ignores_memWrite _ _))

theorem ignores_dataPhase (ep : Endpoint) (v : Byte) : Ignores (dataPhase ep v) :=
  ignores_if (fun _ _ _ => Iff.rfl) (ignores_endPhase .csPulse .data (ignores_memWrite _ _))

theorem ignores_csPhase (ep : Endpoint) : Ignores (csPhase ep) :=
  ignores_if (fun _ _ _ => Iff.rfl) fun b l s => by
    simp only [csPulse_eq]
    rfl

theorem ignores_readBack (ep : Endpoint) (len : Nat) : Ignores (readBack ep len) :=
  ignores_if (fun _ _ _ => Iff.rfl) fun b l s => by
    rw [ignores_memRead _ b l s]
    cases memRead _ s with | mk t r => cases r <;> rfl

theorem ignores_bsqReply : Ignores bsqReply :=
  ignores_if (fun _ _ _ => Iff.rfl) fun b l s => by
    have hr : (s.withReqs b l).respBsq = s.respBsq := rfl
    rw [hr]
    cases s.respBsq <;> rfl

/-! ### LCU's commands -/

theorem ignores_attachAcquire : Ignores attachAcquire := ignores_if (fun _ _ _ => Iff.rfl) fun _ _ _ => rfl

theorem ignores_step1 : Ignores step1 :=
  ignores_if (fun _ _ _ => Iff.rfl) fun b l s => by
    have hr : (s.withReqs b l).rstp = s.rstp := rfl
    dsimp only
    rw [hr]
    cases s.rstp <;> rfl

theorem ignores_step2 : Ignores step2 :=
  ignores_if (fun _ _ _ => Iff.rfl) (ignores_orBusError ignores_configure fun _ _ _ => rfl)

theorem ignores_step3 : Ignores step3 :=
  ignores_if (fun _ _ _ => Iff.rfl) fun b l s => by
    rw [ignores_memRead _ b l s]
    cases memRead _ s with | mk t r =>
    cases r with
    | err c => rfl
    | ok v => dsimp only; split <;> rfl

theorem ignores_step4 : Ignores step4 :=
  ignores_if (fun _ _ _ => Iff.rfl) <| ignores_orBusError (ignores_memWrite _ _) <|
    ignores_orBusError ((ignores_memWrite _ _).comp (f := fun t => { t with curPage := .page 0 }) fun _ _ _ => rfl)
      fun _ _ _ => rfl

theorem ignores_step5 : Ignores step5 :=
  ignores_if (fun _ _ _ => Iff.rfl) <| ignores_orBusError (ignores_ensurePage _) <| ignores_orBusError (ignores_rmw _ _ _) <|
    ignores_orBusError (ignores_rmw _ _ _) fun _ _ _ => rfl

theorem ignores_step6 : Ignores step6 :=
  ignores_if (fun _ _ _ => Iff.rfl) <| ignores_orBusError (ignores_ensurePage _) <| ignores_orBusError (ignores_rmw _ _ _)
    fun _ _ _ => rfl

theorem ignores_step7 : Ignores step7 :=
  have hpage (n : Nat) : IgnoresPair fun s => ensurePage Config.hw.pageRadio (delay n s) :=
    (ignores_ensurePage _).comp (ignores_delay n)
  ignores_if (fun _ _ _ => Iff.rfl) <| ignores_orBusError (hpage _) <| ignores_orBusError (ignores_rmw _ _ _) <|
    ignores_orBusError (hpage _) <| ignores_orBusError (ignores_rmw _ _ _) fun _ _ _ => rfl

theorem ignores_step8AskA : Ignores step8AskA := ignores_if (fun _ _ _ => Iff.rfl) fun _ _ _ => rfl

theorem ignores_step8AskB : Ignores step8AskB := ignores_if (fun _ _ _ => Iff.rfl) fun _ _ _ => rfl

theorem ignores_step8Finish : Ignores step8Finish := ignores_if (fun _ _ _ => Iff.rfl) fun _ _ _ => rfl

theorem ignores_step8AnswerA : Ignores step8AnswerA :=
  ignores_if (fun _ _ _ => Iff.rfl) fun b l s => by
    rw [ignores_registerEp _ b l s]
    cases registerEp _ s with | mk t r => cases r <;> rfl

theorem ignores_step8AnswerB : Ignores step8AnswerB :=
  ignores_if (fun _ _ _ => Iff.rfl) fun b l s => by
    rw [ignores_registerEp _ b l s]
    cases registerEp _ s with | mk t r => cases r <;> rfl

theorem ignores_step8 : Ignores step8 :=
  ignores_step8Finish.comp <| ignores_step8AnswerB.comp <| ignores_step8AskB.comp <| ignores_step8AnswerA.comp ignores_step8AskA

theorem ignores_unwind : Ignores unwind :=
  ignores_if (fun _ _ _ => Iff.rfl) fun b l s => by
    have hr : (s.withReqs b l).respLcu = s.respLcu := rfl
    rw [hr]
    cases s.respLcu with
    | none => rfl
    | some w =>
      simp only [unregisterLive_eq]
      rfl

theorem ignores_detachB : Ignores detachB := ignores_if (fun _ _ _ => Iff.rfl) (ignores_unregisterLive _)

theorem ignores_detachA : Ignores detachA := ignores_if (fun _ _ _ => Iff.rfl) (ignores_unregisterLive _)

theorem ignores_detachEnd : Ignores detachEnd := ignores_if (fun _ _ _ => Iff.rfl) fun _ _ _ => rfl

/-! ### Commands run out -/

theorem ignores_enter (i : Instr) : Ignores (enter i) := by
  cases i with
  | ensurePage p x => exact ignores_enterPageCmd _
  | softReset x => exact ignores_enterPageCmd _
  | xferWr ep len dv addr data x => exact ignores_enterXfer _ _
  | xferRd ep len x => exact ignores_enterXfer _ _
  | _ => exact ignores_id

theorem ignores_runOut (i : Instr) : Ignores (runOut i) := by
  cases i with
  | ensurePage p x => exact ignores_pageOp p
  | softReset x => exact ignores_srstOp
  | xferWr ep len dv addr data x =>
    intro b l s
    simp only [runOut, runXferWr, ignores_pageSwitching _ b l, ignores_addressPhase _ _ b l, ignores_dataPhase _ _ b l,
      ignores_csPhase _ b l, ignores_bsqReply b l]
  | xferRd ep len x =>
    intro b l s
    simp only [runOut, runXferRd, ignores_pageSwitching _ b l, ignores_readBack _ _ b l, ignores_bsqReply b l]
  | attach r x =>
    intro b l s
    simp only [runOut, runAttach, ignores_step1 b l, ignores_step2 b l, ignores_step3 b l, ignores_step4 b l,
      ignores_step5 b l, ignores_step6 b l, ignores_step7 b l, ignores_step8 b l, ignores_unwind b l]
  | detach x =>
    intro b l s
    simp only [runOut, runDetach, ignores_detachB b l, ignores_detachA b l, ignores_detachEnd b l]
  | busWr a v => exact ignores_id
  | busRd a => exact ignores_id

/-- What ignores the `REQ` registers keeps them. -/
theorem Ignores.reqs {f : State → State} (h : Ignores f) (s : State) :
    (f s).reqBsq = s.reqBsq ∧ (f s).reqLcu = s.reqLcu := by
  have hs : f s = (f s).withReqs s.reqBsq s.reqLcu := h s.reqBsq s.reqLcu s
  exact ⟨(congrArg State.reqBsq hs :), (congrArg State.reqLcu hs :)⟩

/-- Two words that BSQ takes and enters with alike do the same, but for the word in `REQ`. -/
theorem exec_bsq_req {i j : Instr} {s t : State} (hi : isBsqCommand i = true) (hj : isBsqCommand j = true)
    (he : enter j = enter i) (hr : runOut j = runOut i) (hf : s.bsqFree = true) (h : exec i s = .next t) :
    exec j s = .next { t with reqBsq := some (encodeWord j) } := by
  have hg := (ignores_runOut i).comp (ignores_enter i)
  have ht := Host.Outcome.next.inj ((exec_bsq_taken hi hf).symm.trans h)
  have hq := (hg.reqs (bsqTake (encodeWord i) s)).2
  rw [ht] at hq
  rw [exec_bsq_taken hj hf, he, hr]
  refine congrArg _ ((hg (some (encodeWord j)) s.reqLcu (bsqTake (encodeWord i) s)).trans ?_)
  dsimp only
  rw [ht, State.withReqs, ← (show t.reqLcu = s.reqLcu from hq)]

/-- What LCU does with a command after its word is in `REQ`. -/
def beginLcu (i : Instr) (s : State) : State :=
  match i with
  | .attach r _ =>
    if s.lc ≠ .detached then lcuRespond CmdError.alreadyAttached.word s
    else attachAcquire { s with lc := .attaching, rstp := r }
  | .detach _ => if s.lc = .detached then lcuRespond okWord s else { s with pcLcu := .detach }
  | _ => s

theorem ignores_beginLcu (i : Instr) : Ignores (beginLcu i) := by
  cases i with
  | attach r x =>
    intro b l s
    have hl : (s.withReqs b l).lc = s.lc := rfl
    simp only [beginLcu, hl]
    split
    · rfl
    · exact ignores_attachAcquire b l { s with lc := .attaching, rstp := r }
  | detach x =>
    intro b l s
    have hl : (s.withReqs b l).lc = s.lc := rfl
    simp only [beginLcu, hl]
    split <;> rfl
  | _ => exact ignores_id

theorem begin_lcu {i : Instr} {s : State} (hc : canBegin i s = true) (hb : isBsqCommand i = false) :
    begin i s = beginLcu i { s with reqLcu := some (encodeWord i) } := by
  cases i with
  | attach r x => rfl
  | detach x => rfl
  | busWr a v => cases hc
  | busRd a => cases hc
  | _ => cases hb

/-- Two words that LCU takes alike do the same, but for the word in `REQ`. -/
theorem exec_lcu_req {i j : Instr} {s t : State} (hbi : isBsqCommand i = false) (hbj : isBsqCommand j = false)
    (he : beginLcu j = beginLcu i) (hr : runOut j = runOut i) (hi : canBegin i s = true) (hj : canBegin j s = true)
    (h : exec i s = .next t) : exec j s = .next { t with reqLcu := some (encodeWord j) } := by
  have hg := (ignores_runOut i).comp (ignores_beginLcu i)
  rw [exec_taken hi, begin_lcu hi hbi] at h
  have ht := Host.Outcome.next.inj h
  have hq := (hg.reqs { s with reqLcu := some (encodeWord i) }).1
  rw [ht] at hq
  rw [exec_taken hj, begin_lcu hj hbj, he, hr]
  refine congrArg _ ((hg s.reqBsq (some (encodeWord j)) { s with reqLcu := some (encodeWord i) }).trans ?_)
  dsimp only
  rw [ht, State.withReqs, ← (show t.reqBsq = s.reqBsq from hq)]

end Sys2Proof.Machine

namespace Sys2Proof.Proofs

open Sys2Proof.Machine

/-- Settles O21: after its word is in `REQ` no command reads it, and its ignored bits are nowhere else. -/
theorem ignoredFieldsHaveNoEffect : Obligations.IgnoredFieldsHaveNoEffect :=
  ⟨fun p x y _ _ hf h => exec_bsq_req (i := .ensurePage p x) (j := .ensurePage p y) rfl rfl rfl rfl hf h,
    fun x y _ _ hf h => exec_bsq_req (i := .softReset x) (j := .softReset y) rfl rfl rfl rfl hf h,
    fun ep len dv addr data x y _ _ hf h =>
      exec_bsq_req (i := .xferWr ep len dv addr data x) (j := .xferWr ep len dv addr data y) rfl rfl rfl rfl hf h,
    fun ep len x y _ _ hf h => exec_bsq_req (i := .xferRd ep len x) (j := .xferRd ep len y) rfl rfl rfl rfl hf h,
    fun r x y _ _ hr h => exec_lcu_req (i := .attach r x) (j := .attach r y) rfl rfl rfl rfl hr hr h,
    fun x y _ _ hr h => exec_lcu_req (i := .detach x) (j := .detach y) rfl rfl rfl rfl hr hr h⟩

end Sys2Proof.Proofs
end

section
/-! PROOF. The page multiplexer (40_page_mux.md): `EnsurePage`, the read-modify-write, and the two page commands whole. -/

namespace Sys2Proof.Machine

/-! ### Taking a BSQ command with the lock open -/

/-- `s` with the word in `REQ`, the lock taken, and BSQ in the sequencer state `pc`. -/
def State.entered (pc : BsqPc) (w : Word) (s : State) : State := { s with reqBsq := some w, lock := .bsq, pcBsq := pc }

/-- `s` after a BSQ command that was refused with the response word `r`. -/
def State.refused (w r : Word) (s : State) : State :=
  { s with reqBsq := some w, lock := .free, respBsq := some r, events := s.events ++ [.resp r] }

theorem notAttached_word : CmdError.notAttached.word = 0x00000006 := by decide

theorem invalidLength_word : CmdError.invalidLength.word = 0x00000002 := by decide

section Entering
variable {s : State} (w : Word)

theorem acquired_eq (hr : s.bsqReady = true) (pc : BsqPc) : { bsqAcquire (bsqTake w s) with pcBsq := pc } = s.entered pc w := by
  rw [State.entered, bsqReady_waits hr]
  rfl

theorem bsqRaise_acquired (hr : s.bsqReady = true) (e : CmdError) :
    bsqRaise e (bsqAcquire (bsqTake w s)) = s.refused w e.word := by
  rw [State.refused, bsqReady_waits hr, bsqReady_idle hr]
  rfl

theorem enterPageCmd_entered (pc : BsqPc) (hr : s.bsqReady = true) (hi : s.inst = true) :
    enterPageCmd pc (bsqTake w s) = s.entered pc w := by
  rw [enterPageCmd_open (s := bsqTake w s) pc rfl (by simpa using bsqReady_lock hr), if_pos (by exact hi), acquired_eq w hr]

theorem enterPageCmd_refused (pc : BsqPc) (hr : s.bsqReady = true) (hi : s.inst = false) :
    enterPageCmd pc (bsqTake w s) = s.refused w 0x00000006 := by
  rw [enterPageCmd_open (s := bsqTake w s) pc rfl (by simpa using bsqReady_lock hr), if_neg (by simp [hi]),
    bsqRaise_acquired w hr, notAttached_word]

/-- A BSQ command that is refused is answered and leaves BSQ idle. -/
theorem exec_refused {i : Instr} {r : Word} (hi : isBsqCommand i = true) (hr : s.bsqReady = true)
    (he : enter i (bsqTake (encodeWord i) s) = s.refused (encodeWord i) r) :
    exec i s = .next (s.refused (encodeWord i) r) := by
  rw [exec_bsq_taken hi (bsqReady_free hr), he, runOut_idle (s := s.refused (encodeWord i) r) hi (bsqReady_idle (s := s) hr)]

end Entering

/-! ### The primitives on each answer -/

theorem Chip.write_pageReg (c : Chip) (p : Page) (failed : Bool) :
    c.write Config.hw.pageReg (pageValue p) failed = { c with pages := if failed then c.pages.insert p else .only p } :=
  Chip.write_page c p failed

theorem pageValue_masked (p : Page) : pageValue p &&& ~~~Config.hw.pageMask = 0 := by revert p; decide

theorem pageWrites_append (es fs : List Event) : pageWrites (es ++ fs) = pageWrites es + pageWrites fs := by
  rw [pageWrites, List.filter_append, List.length_append]
  rfl

section Primitives
variable {s : State}

theorem ensurePage_ok {p : Page} (h : s.curPage ≠ .page p) (ha : failOf (s.answer 0) = none) :
    ensurePage p s = ({ s with
      curPage := .page p
      chip := { s.chip with pages := .only p }
      answers := s.answers.tail
      drawn := s.drawn + 1
      busReply := some .done
      events := s.events ++ [.wr Config.hw.pageReg (pageValue p) none] }, none) := by
  rw [ensurePage_other h, memWrite_eq, ha, Chip.write_pageReg]
  rfl

theorem ensurePage_err {p : Page} {c : Cause} (h : s.curPage ≠ .page p) (ha : s.answer 0 = .err c) :
    ensurePage p s = ({ s with
      chip := { s.chip with pages := s.chip.pages.insert p }
      answers := s.answers.tail
      drawn := s.drawn + 1
      busReply := some (.failed c)
      events := s.events ++ [.wr Config.hw.pageReg (pageValue p) (some c)] }, some c) := by
  rw [ensurePage_other h, memWrite_eq, ha, Chip.write_pageReg]
  rfl

theorem softReset_eq : softReset s = ({ s with
    chip := .unknown
    answers := s.answers.tail
    drawn := s.drawn + 1
    busReply := some (writeReply (failOf (s.answer 0)))
    events := s.events ++ [.wr Config.hw.pageReg softResetValue (failOf (s.answer 0))] }, failOf (s.answer 0)) := by
  have hc : s.chip.write Config.hw.pageReg softResetValue (failOf (s.answer 0)).isSome = .unknown :=
    Chip.write_softReset s.chip _
  rw [softReset, memWrite_eq, hc]

/-- After an `EnsurePage` that succeeds the page is tracked, at the cost of one write, and one answer, if it was not. -/
theorem ensurePage_succeeds (p : Page) (h : s.curPage ≠ .page p → failOf (s.answer 0) = none) :
    ∃ es, (ensurePage p s).1.events = s.events ++ es ∧ (ensurePage p s).1.curPage = .page p
      ∧ pageWrites es = (if s.curPage = .page p then 0 else 1)
      ∧ ∀ k, (ensurePage p s).1.answer k = s.answer ((if s.curPage = .page p then 0 else 1) + k) := by
  by_cases hc : s.curPage = .page p
  · rw [ensurePage_same hc]
    exact ⟨[], by simp, hc, by simp [pageWrites, hc], fun k => by simp [hc]⟩
  · rw [ensurePage_ok hc (h hc)]
    refine ⟨_, rfl, rfl, by simp [pageWrites, pageValue_masked, hc], fun k => ?_⟩
    rw [if_neg hc, answer_eq, answer_eq, Nat.add_comm 1 k]
    exact answerOf_tail _ _ _

end Primitives

/-! ### The page commands -/

/-- `s` after an ENSURE_PAGE (the word `w`) of another page whose write failed (40 R128, second row). -/
def State.failedSwitch (p : Page) (w : Word) (c : Cause) (s : State) : State :=
  { s with
    lock := .free
    reqBsq := some w
    respBsq := some (0x00000001#32 ||| c.setWidth 32 <<< 8)
    chip := { s.chip with pages := s.chip.pages.insert p }
    answers := s.answers.tail
    drawn := s.drawn + 1
    busReply := some (.failed c)
    events := s.events
      ++ [.wr Config.hw.pageReg (pageValue p) (some c), .resp (0x00000001#32 ||| c.setWidth 32 <<< 8)] }

section PageCommands
variable {s : State}

/-- ENSURE_PAGE with an instance is `EnsurePage` and the response. -/
theorem exec_ensurePage (p : Page) (x : BitVec 22) (hr : s.bsqReady = true) (hi : s.inst = true) :
    exec (.ensurePage p x) s
      = .next (finishPageCmd (ensurePage p (s.entered .pageOp (encodeWord (.ensurePage p x))))) := by
  rw [exec_bsq_taken rfl (bsqReady_free hr), enter, enterPageCmd_entered _ _ hr hi, runOut, pageOp, if_pos (by rfl)]

/-- SOFT_RESET with an instance is `SoftReset` and the response. -/
theorem exec_softReset (x : BitVec 24) (hr : s.bsqReady = true) (hi : s.inst = true) :
    exec (.softReset x) s = .next (finishPageCmd (softReset (s.entered .srstOp (encodeWord (.softReset x))))) := by
  rw [exec_bsq_taken rfl (bsqReady_free hr), enter, enterPageCmd_entered _ _ hr hi, runOut, srstOp, if_pos (by rfl)]

theorem exec_ensurePage_tracked {p : Page} (x : BitVec 22) (hr : s.bsqReady = true) (hi : s.inst = true)
    (hc : s.curPage = .page p) :
    exec (.ensurePage p x) s = .next { s with
      lock := .free
      reqBsq := some (encodeWord (.ensurePage p x))
      respBsq := some 0x00000000
      events := s.events ++ [.resp 0x00000000] } := by
  rw [exec_ensurePage p x hr hi, ensurePage_same (s := s.entered _ _) hc, finishPageCmd, okWord_eq, ← bsqReady_idle hr]
  rfl

theorem exec_ensurePage_ok {p : Page} (x : BitVec 22) {v : Byte} (hr : s.bsqReady = true) (hi : s.inst = true)
    (hc : s.curPage ≠ .page p) (ha : s.answer 0 = .ok v) :
    exec (.ensurePage p x) s = .next { s with
      curPage := .page p
      lock := .free
      reqBsq := some (encodeWord (.ensurePage p x))
      respBsq := some 0x00000000
      chip := { s.chip with pages := .only p }
      answers := s.answers.tail
      drawn := s.drawn + 1
      busReply := some .done
      events := s.events ++ [.wr Config.hw.pageReg (pageValue p) none, .resp 0x00000000] } := by
  rw [exec_ensurePage p x hr hi, ensurePage_ok (s := s.entered _ _) hc (congrArg failOf ha), finishPageCmd, okWord_eq,
    ← bsqReady_idle hr]
  simp [bsqRespond, release, State.emit, State.entered]

theorem exec_ensurePage_err {p : Page} (x : BitVec 22) {c : Cause} (hr : s.bsqReady = true) (hi : s.inst = true)
    (hc : s.curPage ≠ .page p) (ha : s.answer 0 = .err c) :
    exec (.ensurePage p x) s = .next (s.failedSwitch p (encodeWord (.ensurePage p x)) c) := by
  rw [State.failedSwitch, exec_ensurePage p x hr hi, ensurePage_err (s := s.entered _ _) hc ha, finishPageCmd, bsqRaise,
    busError_word, ← bsqReady_idle hr]
  simp [bsqRespond, release, State.emit, State.entered]

end PageCommands

end Sys2Proof.Machine

namespace Sys2Proof.Proofs

open Sys2Proof.Machine

/-- Settles O22 by the two cases of `EnsurePage`. -/
theorem ensurePagePrimitive : Obligations.EnsurePagePrimitive := by
  refine fun p s => ⟨ensurePage_same, fun h => ?_⟩
  rw [ensurePage_other h, memWrite_eq]
  cases failOf (s.answer 0) <;> rfl

/-- Settles O23: `EnsurePage` between the taking of the lock and the response. -/
theorem ensurePageCommand : Obligations.EnsurePageCommand := fun _ x _ hr hi =>
  ⟨exec_ensurePage_tracked x hr hi, fun _ => exec_ensurePage_ok x hr hi, fun _ => exec_ensurePage_err x hr hi⟩

/-- Settles O24: `SoftReset` between the taking of the lock and the response. -/
theorem softResetCommand : Obligations.SoftResetCommand := by
  refine fun x s hr hi => ⟨fun v ha => ?_, fun c ha => ?_⟩
  · rw [exec_softReset x hr hi, softReset_eq, show (s.entered .srstOp _).answer 0 = _ from ha, failOf_ok, finishPageCmd,
      okWord_eq, ← bsqReady_idle hr]
    simp [bsqRespond, release, State.emit, State.entered, writeReply, Chip.unknown]
  · rw [exec_softReset x hr hi, softReset_eq, show (s.entered .srstOp _).answer 0 = _ from ha, failOf_err, finishPageCmd,
      bsqRaise, busError_word, ← bsqReady_idle hr]
    simp [bsqRespond, release, State.emit, State.entered, writeReply, Chip.unknown]

/-- Settles O25: `Acquire` and then the refusal. -/
theorem pageCommandsNeedAnInstance : Obligations.PageCommandsNeedAnInstance := by
  rintro i s (⟨p, x, rfl⟩ | ⟨x, rfl⟩) hr hi
  · exact exec_refused (i := .ensurePage p x) rfl hr (enterPageCmd_refused _ _ hr hi)
  · exact exec_refused (i := .softReset x) rfl hr (enterPageCmd_refused _ _ hr hi)

/-- Settles O26 by induction on the calls: each leaves its page tracked, so the next is compared with it. -/
theorem pageSwitchesAreCoalesced : Obligations.PageSwitchesAreCoalesced := by
  intro ps
  induction ps with
  | nil => exact fun s _ => ⟨[], by simp [ensurePages], rfl⟩
  | cons p ps ih =>
    intro s h
    simp only [pageChanges] at h
    obtain ⟨es, he, hc, hw, ha⟩ := ensurePage_succeeds (s := s) p fun hne => h 0 (by simp [hne])
    obtain ⟨fs, hf, hn⟩ := ih (ensurePage p s).1 fun k hk => by
      rw [ha k]
      rw [hc] at hk
      exact h _ (by omega)
    refine ⟨es ++ fs, by rw [ensurePages, hf, he, List.append_assoc], ?_⟩
    rw [pageWrites_append, pageChanges, hw, hn, hc]

/-- Settles O27: the failed write leaves `CUR_PAGE` as it was, so the same page is asked for again and the tracked page is not;
what is known of the concentrator only grows by the page that was asked for. -/
theorem failedSwitchLeavesAStalePage : Obligations.FailedSwitchLeavesAStalePage := by
  intro p q x y z c s t hr hi hq hne ha ht
  have hc : s.curPage ≠ .page p := fun h => hne (by injection hq.symm.trans h)
  rw [exec_ensurePage_err x hr hi hc ha] at ht
  obtain rfl := Host.Outcome.next.inj ht
  have hrt : (s.failedSwitch p (encodeWord (.ensurePage p x)) c).bsqReady = true := by
    simp [State.failedSwitch, State.bsqReady, State.bsqFree, State.lockOpenToBsq, bsqReady_idle hr, bsqReady_waits hr]
  refine ⟨hq, by simp [State.failedSwitch, PageSet.mem_insert], fun r h => by
      simp [State.failedSwitch, PageSet.mem_insert, h],
    ⟨_, exec_ensurePage_tracked y hrt hi hq, rfl⟩, ?_⟩
  cases hat : (s.failedSwitch p (encodeWord (.ensurePage p x)) c).answer 0 with
  | ok v => exact ⟨_, _, _, exec_ensurePage_ok z hrt hi hc hat, rfl⟩
  | err d => exact ⟨_, _, _, exec_ensurePage_err z hrt hi hc hat, rfl⟩

/-- Settles O28 by the answer to the read. -/
theorem readModifyWrite : Obligations.ReadModifyWrite := by
  intro a clr set s
  refine ⟨fun c ha => ?_, fun v ha => ?_⟩
  · rw [rmw, memRead_eq, ha]
    rfl
  · have hd : ∀ t : State, t.answers = s.answers.tail → t.drawn = s.drawn + 1 → t.answer 0 = s.answer 1 :=
      fun t h1 h2 => by rw [answer_eq, h1, h2, answerOf_tail, answer_eq]
    rw [rmw, memRead_eq, ha]
    dsimp only
    rw [memWrite_eq, hd _ rfl rfl]
    simp [rmwValue, tail_eq_drop, -List.drop_one]

end Sys2Proof.Proofs
end

section
/-! PROOF. The transfers (41_subbus_transfer.md): refused, stopped, performed, and what each leaves of the record of
registers. -/

namespace Sys2Proof.Machine

/-! ### Refused transfers -/

section Refused
variable {ep : Endpoint} {len : Nat} {s : State} (w : Word)

theorem enterXfer_notLive (hr : s.bsqReady = true) (hl : s.live ep = false) :
    enterXfer ep len (bsqTake w s) = s.refused w 0x00000006 := by
  have hl' : (bsqTake w s).live ep = false := by cases ep <;> exact hl
  rw [enterXfer_open ep len rfl (by simpa using bsqReady_lock hr), if_pos hl', bsqRaise_acquired w hr, notAttached_word]

theorem enterXfer_badLength (hr : s.bsqReady = true) (hl : s.live ep = true)
    (hn : len < Config.hw.lenMin ∨ Config.hw.lenMax < len) :
    enterXfer ep len (bsqTake w s) = s.refused w 0x00000002 := by
  have hl' : (bsqTake w s).live ep = true := by cases ep <;> exact hl
  have hv : lenValid len = false := (lenValid_false len).2 (hn.imp (fun h : len < 1 => by omega) id)
  rw [enterXfer_open ep len rfl (by simpa using bsqReady_lock hr), if_neg (by simp [hl']), if_pos hv, bsqRaise_acquired w hr,
    invalidLength_word]

end Refused

/-! ### A write transfer past its page switch -/

theorem memWrite_fst {a : RegAddr} {v : Byte} {s : State} {f : Option Cause} (h : failOf (s.answer 0) = f) :
    (memWrite a v s).1 = { s with
      chip := s.chip.write a v f.isSome
      answers := s.answers.tail
      drawn := s.drawn + 1
      busReply := some (writeReply f)
      events := s.events ++ [.wr a v f] } := by
  rw [memWrite_eq, h]

section Write
variable {ep : Endpoint} {s : State}

/-- From `CS_PULSE` to the response (41 R156, R165). -/
theorem bsqReply_csPhase (hp : s.pcBsq = .csPulse) :
    bsqReply (csPhase ep s) = bsqRespond (writeDoneWord (csPulse ep s).deg) (release { csPulse ep s with pcBsq := .idle }) := by
  rw [csPhase, if_pos hp]
  rfl

theorem writeFromData_ok {v : Byte} (hp : s.pcBsq = .dataPhase) (ha : failOf (s.answer 0) = none) :
    writeFromData ep v s = bsqReply (csPhase ep ((memWrite ep.dataReg v s).1.goTo .csPulse)) := by
  rw [writeFromData, dataPhase_eq ep v hp, endPhase_ok _ _ ((memWrite_snd _ _ _).trans ha)]

end Write

/-- A write transfer whose two writes succeeded, before its CS pulse (41 R154, R155); `w` is its word. -/
def State.afterWrites (ep : Endpoint) (addr d : Byte) (w : Word) (s : State) : State :=
  { s with
    curPage := .page Config.hw.pageRadio
    lock := .bsq
    reqBsq := some w
    pcBsq := .csPulse
    chip := ((pageSwitchChip s).write ep.addrReg addr false).write ep.dataReg d false
    answers := s.answers.drop (pageSwitchCount s + 2)
    drawn := s.drawn + (pageSwitchCount s + 2)
    busReply := some .done
    events := s.events ++ pageSwitchTrace s ++ [.wr ep.addrReg addr none, .wr ep.dataReg d none] }

section AfterWrites
variable (ep : Endpoint) (addr d : Byte) (w : Word) {s : State}

theorem afterWrites_answer (k : Nat) : (s.afterWrites ep addr d w).answer k = s.answer (pageSwitchCount s + 2 + k) :=
  answerOf_drop s.answers s.drawn k (pageSwitchCount s + 2)

theorem writeFromAddress_writesOk (ha : failOf (s.answer (pageSwitchCount s)) = none)
    (hd : failOf (s.answer (pageSwitchCount s + 1)) = none) :
    writeFromAddress ep addr d (s.afterPageSwitch .addressPhase w)
      = bsqReply (csPhase ep (s.afterWrites ep addr d w)) := by
  rw [writeFromAddress_ok _ _ _ rfl (by simpa using ha), writeFromData_ok rfl (by simpa using hd),
    memWrite_fst (f := none) (by simp [hd]), memWrite_fst (f := none) (by simp [ha])]
  simp [State.afterPageSwitch, State.goTo, State.afterWrites, writeReply, Nat.add_assoc]

end AfterWrites

/-! ### A read transfer -/

/-- The response to a read-back (41 R161, R162). -/
def readReplyWord (len : Nat) : Answer → Word
  | .ok v => BitVec.ofNat 32 (len - 1) <<< 24 ||| v.setWidth 32 <<< 16
  | .err c => 0x00000044#32 ||| c.setWidth 32 <<< 8

section Read
variable {ep : Endpoint} {len : Nat} {s : State}

/-- From `READ_BACK` to the response. -/
theorem bsqReply_readBack (hp : s.pcBsq = .readBack) (h1 : 1 ≤ len) (h2 : len ≤ 3) :
    bsqReply (readBack ep len s)
      = bsqRespond (readReplyWord len (s.answer 0)) (release { (memRead ep.rbReg s).1 with pcBsq := .idle }) := by
  rw [readBack, if_pos hp, memRead_eq]
  cases s.answer 0 with
  | ok v => rw [readReplyWord, ← readDoneWord_eq v h1 h2]; rfl
  | err c => rw [readReplyWord, ← readbackFailed_word]; rfl

theorem exec_xferRd_performed (x : BitVec 19) (hr : s.bsqReady = true) (hl : s.live ep = true) (h1 : Config.hw.lenMin ≤ len)
    (h2 : len ≤ Config.hw.lenMax) (hok : s.PageSwitchOk) :
    exec (.xferRd ep len x) s = .next { s with
      curPage := .page Config.hw.pageRadio
      lock := .free
      reqBsq := some (encodeWord (.xferRd ep len x))
      respBsq := some (readReplyWord len (s.answer (pageSwitchCount s)))
      chip := pageSwitchChip s
      answers := s.answers.drop (pageSwitchCount s + 1)
      drawn := s.drawn + (pageSwitchCount s + 1)
      busReply := some (readReply (s.answer (pageSwitchCount s)))
      events := s.events ++ pageSwitchTrace s ++ [.rd ep.rbReg (s.answer (pageSwitchCount s)),
        .resp (readReplyWord len (s.answer (pageSwitchCount s)))] } := by
  rw [exec_xferRd_taken hr hl h1 h2, runXferRd, pageSwitching_goesOn hok, bsqReply_readBack rfl h1 h2, memRead_eq,
    afterPageSwitch_answer]
  simp [bsqRespond, release, State.emit, State.afterPageSwitch, bsqReady_idle hr, Nat.add_assoc]

/-- The read-back that succeeded: code 0, and the byte goes to its index. -/
theorem storeReply_readDone {buf : List (Option Byte)} (v : Byte) (h1 : 1 ≤ len) (h2 : len ≤ 3) (hb : buf.length = len) :
    let w := readReplyWord len (.ok v)
    respCode w = 0 ∧ (storeReply buf w)[len - 1]? = some (some v)
      ∧ ∀ k, k ≠ len - 1 → (storeReply buf w)[k]? = buf[k]? := by
  have hw : readReplyWord len (.ok v) = responseWord 0 0 false 0 v (BitVec.ofNat 2 (len - 1)) := (readDoneWord_eq v h1 h2).symm
  obtain ⟨hc, -, -, -, hd, hi, -⟩ := responseWord_fields 0 0 false 0 v (BitVec.ofNat 2 (len - 1))
  have hn : (BitVec.ofNat 2 (len - 1)).toNat = len - 1 := by
    rw [BitVec.toNat_ofNat]
    exact Nat.mod_eq_of_lt (by omega)
  rw [hw]
  dsimp only at hc hd hi ⊢
  rw [storeReply, if_pos hc, hd, hi, hn]
  exact ⟨hc, List.getElem?_set_self (by omega), fun k hk => List.getElem?_set_ne (Ne.symm hk)⟩

theorem respCode_word (e : CmdError) : respCode e.word = e.code := by
  cases e <;> exact (responseWord_fields _ _ _ _ _ _).1

theorem code_ne_zero (e : CmdError) : e.code ≠ 0 := by
  cases e <;> simp [CmdError.code]

/-- A read transfer that is refused or fails answers an error. -/
theorem exec_xferRd_fails (x : BitVec 19) (hr : s.bsqReady = true)
    (h : s.live ep = false ∨ len < Config.hw.lenMin ∨ Config.hw.lenMax < len
      ∨ (∃ c, s.curPage ≠ .page Config.hw.pageRadio ∧ s.answer 0 = .err c)
      ∨ ∃ c, s.PageSwitchOk ∧ s.answer (pageSwitchCount s) = .err c) :
    ∃ t e, exec (.xferRd ep len x) s = .next t ∧ t.respBsq = some (CmdError.word e) := by
  have refused : ∀ e : CmdError, enterXfer ep len (bsqTake (encodeWord (.xferRd ep len x)) s)
      = s.refused (encodeWord (.xferRd ep len x)) e.word →
      ∃ t e, exec (.xferRd ep len x) s = .next t ∧ t.respBsq = some (CmdError.word e) := fun e he =>
    ⟨_, e, exec_refused (i := .xferRd ep len x) rfl hr he, rfl⟩
  by_cases hl : s.live ep = true
  · by_cases hn : len < Config.hw.lenMin ∨ Config.hw.lenMax < len
    · exact refused .invalidLength (by rw [invalidLength_word]; exact enterXfer_badLength _ hr hl hn)
    · have h1 : Config.hw.lenMin ≤ len := by omega
      have h2 : len ≤ Config.hw.lenMax := by omega
      rcases h with h | h | h | ⟨c, hc, ha⟩ | ⟨c, hok, ha⟩
      · simp [hl] at h
      · exact absurd (.inl h) hn
      · exact absurd (.inr h) hn
      · refine ⟨_, .transferFailed .pageSwitch c, exec_xferRd_taken hr hl h1 h2 x, ?_⟩
        rw [runXferRd_pageSwitchFailed hc ha]
        rfl
      · refine ⟨_, .transferFailed .readback c, exec_xferRd_performed x hr hl h1 h2 hok, ?_⟩
        rw [ha, readReplyWord, readbackFailed_word]
  · exact refused .notAttached (by rw [notAttached_word]; exact enterXfer_notLive _ hr (by simpa using hl))

end Read

/-! ### The record of registers -/

section Record
variable {ep : Endpoint} {s t : State} {k : Nat}

theorem csReg_ne_pageReg (ep : Endpoint) : ep.csReg ≠ Config.hw.pageReg := by cases ep <;> decide

theorem dataReg_ne_pageReg (ep : Endpoint) : ep.dataReg ≠ Config.hw.pageReg := by cases ep <;> decide

/-- What an operation that acts only under `p` keeps, it keeps always. -/
theorem keeps_if {α : Type} {f : State → α} {p : Prop} [Decidable p] (h : p → f t = f s) :
    f (if p then t else s) = f s := by
  split
  next hp => exact h hp
  next => rfl

/-- `EnsurePage` records nothing of any register (20 R54). -/
theorem mem_ensurePage (p : Page) (s : State) : (ensurePage p s).1.chip.mem = s.chip.mem := by
  by_cases h : s.curPage = .page p
  · rw [ensurePage_same h]
  · rw [ensurePage_other h, memWrite_eq, Chip.write_pageReg]

theorem chip_endPhase (next : BsqPc) (ph : Phase) (r : State × Option Cause) : (endPhase next ph r).chip = r.1.chip := by
  obtain ⟨t, _ | c⟩ := r <;> rfl

theorem chip_finishPageCmd (r : State × Option Cause) : (finishPageCmd r).chip = r.1.chip := by
  obtain ⟨t, _ | c⟩ := r <;> rfl

theorem mem_pageOp (p : Page) (s : State) : (pageOp p s).chip.mem = s.chip.mem :=
  keeps_if (f := fun s => s.chip.mem) fun _ => (congrArg Chip.mem (chip_finishPageCmd _)).trans (mem_ensurePage p s)

theorem mem_pageSwitching (next : BsqPc) (s : State) : (pageSwitching next s).chip.mem = s.chip.mem :=
  keeps_if (f := fun s => s.chip.mem) fun _ =>
    (congrArg Chip.mem (chip_endPhase next .pageSwitch _)).trans (mem_ensurePage _ s)

theorem chip_bsqReply (s : State) : (bsqReply s).chip = s.chip :=
  keeps_if (f := State.chip) fun _ => by cases s.respBsq <;> rfl

theorem chip_readBack (ep : Endpoint) (len : Nat) (s : State) : (readBack ep len s).chip = s.chip :=
  keeps_if (f := State.chip) fun _ => by
    rw [memRead_eq]
    cases s.answer 0 <;> rfl

theorem mem_runXferRd (ep : Endpoint) (len : Nat) (s : State) : (runXferRd ep len s).chip.mem = s.chip.mem := by
  rw [runXferRd, chip_bsqReply, chip_readBack, mem_pageSwitching]

theorem read_addressPhase (v : Byte) (hk : ∀ p, k ≠ regKey p ep.addrReg) (s : State) :
    (addressPhase ep v s).chip.mem.read k = s.chip.mem.read k :=
  keeps_if (f := fun s => s.chip.mem.read k) fun _ =>
    (congrArg (fun c : Chip => c.mem.read k) (chip_endPhase .dataPhase .address _)).trans
      (Chip.read_write_other v _ (addrReg_ne_pageReg ep) hk)

theorem read_dataPhase (v : Byte) (hk : ∀ p, k ≠ regKey p ep.dataReg) (s : State) :
    (dataPhase ep v s).chip.mem.read k = s.chip.mem.read k :=
  keeps_if (f := fun s => s.chip.mem.read k) fun _ =>
    (congrArg (fun c : Chip => c.mem.read k) (chip_endPhase .csPulse .data _)).trans
      (Chip.read_write_other v _ (dataReg_ne_pageReg ep) hk)

theorem read_csPhase (hk : ∀ p, k ≠ regKey p ep.csReg) (s : State) :
    (csPhase ep s).chip.mem.read k = s.chip.mem.read k :=
  keeps_if (f := fun s => s.chip.mem.read k) fun _ => by
    rw [csPulse_eq]
    exact (Chip.read_write_other _ _ (csReg_ne_pageReg ep) hk).trans (Chip.read_write_other _ _ (csReg_ne_pageReg ep) hk)

theorem read_runXferWr (dv : Bool) (addr data : Byte) (ha : ∀ p, k ≠ regKey p ep.addrReg)
    (hd : ∀ p, k ≠ regKey p ep.dataReg) (hc : ∀ p, k ≠ regKey p ep.csReg) (s : State) :
    (runXferWr ep dv addr data s).chip.mem.read k = s.chip.mem.read k := by
  rw [runXferWr, chip_bsqReply, read_csPhase hc, read_dataPhase _ hd, read_addressPhase _ ha, mem_pageSwitching]

theorem chip_enter (i : Instr) (s : State) : (enter i s).chip = s.chip := by
  have hpage : ∀ pc, (enterPageCmd pc s).chip = s.chip := fun pc =>
    keeps_if (f := State.chip) fun _ => by dsimp only; split <;> rfl
  have hxfer : ∀ ep len, (enterXfer ep len s).chip = s.chip := fun ep len =>
    keeps_if (f := State.chip) fun _ => by
      dsimp only
      split
      · rfl
      · split <;> rfl
  cases i with
  | ensurePage p x => exact hpage _
  | softReset x => exact hpage _
  | xferWr ep len dv addr data x => exact hxfer _ _
  | xferRd ep len x => exact hxfer _ _
  | _ => rfl

/-- A BSQ command keeps a record that its run keeps. -/
theorem exec_bsq_record {i : Instr} (hi : isBsqCommand i = true) (he : exec i s = .next t)
    (h : ∀ u, (runOut i u).chip.mem.read k = u.chip.mem.read k) : t.chip.mem.read k = s.chip.mem.read k := by
  cases hf : s.bsqFree with
  | false =>
    rw [exec_busy (isCommand_of_bsq hi) ((canBegin_bsq hi s).trans hf)] at he
    rw [← Host.Outcome.next.inj he]
    rfl
  | true =>
    rw [exec_bsq_taken hi hf] at he
    rw [← Host.Outcome.next.inj he, h, chip_enter]
    rfl

end Record

end Sys2Proof.Machine

namespace Sys2Proof.Proofs

open Sys2Proof.Machine

/-- Settles O29: `Acquire`, the check that fails, and the refusal. -/
theorem refusedTransfersTouchNothing : Obligations.RefusedTransfersTouchNothing := by
  intro i ep len s hi hr
  rcases hi with ⟨dv, addr, data, x, rfl⟩ | ⟨x, rfl⟩
  · exact ⟨fun hl => exec_refused (i := .xferWr ep len dv addr data x) rfl hr (enterXfer_notLive _ hr hl),
      fun hl hn => exec_refused (i := .xferWr ep len dv addr data x) rfl hr (enterXfer_badLength _ hr hl hn)⟩
  · exact ⟨fun hl => exec_refused (i := .xferRd ep len x) rfl hr (enterXfer_notLive _ hr hl),
      fun hl hn => exec_refused (i := .xferRd ep len x) rfl hr (enterXfer_badLength _ hr hl hn)⟩

/-- Settles O33: the failed write is the last exchange, and the error is raised at once. -/
theorem stoppedWriteTransferLeaves : Obligations.StoppedWriteTransferLeaves := by
  intro ep len dv addr data x c s t hr hl h1 h2 hok ht
  have hi := bsqReady_idle hr
  rw [exec_xferWr_goesOn hr hl h1 h2 hok] at ht
  obtain rfl := Host.Outcome.next.inj ht
  refine ⟨fun ha => ?_, fun ha hd => ?_⟩
  · rw [writeFromAddress_failed (c := c) _ _ _ rfl (by simpa using ha), memWrite_fst (f := some c) (by simp [ha, failOf_err])]
    simp [bsqRaise, bsqRespond, release, State.emit, State.afterPageSwitch, hi, writeReply, Nat.add_assoc]
  · rw [writeFromAddress_dataFailed (c := c) _ _ _ rfl (by simpa using ha) (by simpa using hd),
      memWrite_fst (f := some c) (by simp [hd, failOf_err]), memWrite_fst (f := none) (by simp [ha])]
    simp [bsqRaise, bsqRespond, release, State.emit, State.afterPageSwitch, State.goTo, hi, writeReply, Nat.add_assoc]

/-- Settles O34: the two writes, the CS pulse, and the response. -/
theorem writeTransferPerformed : Obligations.WriteTransferPerformed := by
  intro ep len dv addr data x s hr hl h1 h2 hok ha hd r w1 w2 d resp
  rw [exec_xferWr_goesOn hr hl h1 h2 hok, writeFromAddress_writesOk _ _ _ _ ha hd, bsqReply_csPhase rfl, csPulse_eq,
    writeDoneWord_eq]
  have hm : bitMask Config.hw.csBit = 1#8 := by decide
  simp only [afterWrites_answer]
  simp [bsqRespond, release, State.emit, State.afterWrites, bsqReady_idle hr, r, w1, w2, d, resp, csAssertValue,
    csDeassertValue, hm, Nat.add_assoc]

/-- Settles O35: the page switch, and the answer to the read-back. -/
theorem readTransferPerformed : Obligations.ReadTransferPerformed := by
  intro ep len x s hr hl h1 h2 hok
  dsimp only
  rw [exec_xferRd_performed x hr hl h1 h2 hok]
  cases s.answer (pageSwitchCount s) <;> rfl

/-- Settles O36: the response carries code 0, the byte and its index only when the read-back was answered Ok. -/
theorem onlyTheLastBufferByteIsPopulated : Obligations.OnlyTheLastBufferByteIsPopulated := by
  intro ep len x s t w buf hr ht hw
  refine ⟨fun v hl h1 h2 hok ha hb => ?_, fun hfail => ?_⟩
  · rw [exec_xferRd_performed x hr hl h1 h2 hok, ha] at ht
    obtain rfl := Host.Outcome.next.inj ht
    obtain rfl := Option.some.inj hw
    exact storeReply_readDone v h1 h2 hb
  · obtain ⟨u, e, hu, hresp⟩ := exec_xferRd_fails x hr hfail
    obtain rfl := Host.Outcome.next.inj (ht.symm.trans hu)
    obtain rfl := Option.some.inj (hw.symm.trans hresp)
    have hcode : respCode e.word ≠ 0 := respCode_word e ▸ code_ne_zero e
    exact ⟨hcode, if_neg hcode⟩

/-- Settles O38: every write of a transfer is to a register of its window or to the page register, whose writes record none. -/
theorem bsqCommandsMemoryFrame : Obligations.BsqCommandsMemoryFrame := by
  refine ⟨fun ep len dv addr data x s t k ht ha hd hc => ?_, fun ep len x s t k ht => ?_, fun p x s t k ht => ?_⟩
  · exact exec_bsq_record (i := .xferWr ep len dv addr data x) rfl ht fun u => read_runXferWr dv addr data ha hd hc u
  · exact exec_bsq_record (i := .xferRd ep len x) rfl ht fun u => congrArg (·.read k) (mem_runXferRd ep len u)
  · exact exec_bsq_record (i := .ensurePage p x) rfl ht fun u => congrArg (·.read k) (mem_pageOp p u)

end Sys2Proof.Proofs
end

section
/-! PROOF. ATTACH and DETACH run to their end (42_lifecycle.md): refused, performed, and stopped at each of the places where the
whole next state is stated. -/

namespace Sys2Proof.Machine

theorem unregTrace_eq (s : State) : unregTrace s
    = (if s.epLiveB then [.unreg .b] else []) ++ (if s.epLiveA then [.unreg .a] else []) := rfl

/-! ### Commands answered at once -/

section Answered
variable {s : State}

theorem alreadyAttached_word : CmdError.alreadyAttached.word = 0x00000007 := by decide

theorem exec_attach_refused (r : Bool) (x : BitVec 23) (hr : s.lcuReady = true) (hl : s.lc ≠ .detached) :
    exec (.attach r x) s = .next (lcuRespond 0x00000007 { s with reqLcu := some (encodeWord (.attach r x)) }) := by
  have hb : beginAttach (encodeWord (.attach r x)) r s
      = lcuRespond 0x00000007 { s with reqLcu := some (encodeWord (.attach r x)) } := by
    rw [← alreadyAttached_word]
    exact if_pos hl
  rw [exec_attach_taken r x hr, hb, runAttach_idle (by exact lcuReady_idle hr)]

theorem exec_detach_detached (x : BitVec 24) (hr : s.lcuReady = true) (hl : s.lc = .detached) :
    exec (.detach x) s = .next (lcuRespond 0x00000000#32 { s with reqLcu := some (encodeWord (.detach x)) }) := by
  have hb : beginDetach (encodeWord (.detach x)) s
      = lcuRespond 0x00000000#32 { s with reqLcu := some (encodeWord (.detach x)) } := by
    rw [← okWord_eq]
    exact if_pos hl
  rw [exec_detach_taken x hr, hb, runDetach_idle (by exact lcuReady_idle hr)]

end Answered

/-! ### Bring-up that stops before its step 8 -/

section Stops
variable {s : State} {w : Word}

theorem step8_skip (h : s.pcLcu ≠ .step8) : step8 s = s := by
  have hn : ∀ ph, ¬ (s.pcLcu = .step8 ∧ s.regPhase = ph) := fun _ hc => h hc.1
  rw [step8, step8AskA, if_neg (hn _), step8AnswerA, if_neg (hn _), step8AskB, if_neg (hn _), step8AnswerB, if_neg (hn _),
    step8Finish, if_neg (hn _)]

/-- In `L_UNWIND` every step that is left does nothing. -/
theorem stepsFrom4_unwind (h : s.pcLcu = .unwind) : step8 (step7 (step6 (step5 (step4 s)))) = s := by
  rw [step4_skip (by simp [h]), step5_skip (by simp [h]), step6_skip (by simp [h]), step7_skip (by simp [h]),
    step8_skip (by simp [h])]

theorem step2_failed {c : Cause} (h : s.pcLcu = .step2) (h0 : s.answer 0 = .err c) :
    step2 s = lcuRaise (.busError c) { s with
      answers := s.answers.drop 1
      drawn := s.drawn + 1
      events := s.events ++ [.cfg (some c)] } := by
  rw [step2, if_pos h, configure_eq, h0, failOf_err, tail_eq_drop, orBusError]

theorem step3_wrongIdentity {v : Byte} (h : s.pcLcu = .step3) (h0 : s.answer 0 = .ok v) (hv : v ≠ Config.hw.idExpected) :
    step3 s = lcuRaise (.unexpectedIdentity v) { s with
      tmp := some v
      answers := s.answers.drop 1
      drawn := s.drawn + 1
      busReply := some (.byte v)
      events := s.events ++ [.rd Config.hw.idReg (.ok v)] } := by
  rw [step3, if_pos h, memRead_eq, h0, tail_eq_drop]
  exact if_neg hv

/-- The unwinding right after an error was raised. -/
theorem unwind_lcuRaise {e : CmdError} (hk : s.lock ≠ .bsq) :
    unwind (lcuRaise e s) = (lcuRaise e s).unwound e.word := unwind_open rfl hk rfl

end Stops

/-! ### Step 8 on each pair of answers (42 R189 to R191) -/

section Step8
variable {s : State} (hp : s.pcLcu = .step8) (hr : s.regPhase = .start)
include hp hr

/-- With A registered step 8 goes on to B. -/
theorem step8_goesOn (hA : failOf (s.answer 0) = none) :
    step8 s = step8Finish (step8AnswerB { s with
      epLiveA := true
      epLiveB := true
      regPhase := .waitB
      answers := s.answers.drop 1
      drawn := s.drawn + 1
      events := s.events ++ [.reg .a none] }) := by
  rw [step8, step8AskA, if_pos ⟨hp, hr⟩, step8AnswerA, if_pos ⟨hp, rfl⟩, registerEp_ok _ _ (by exact hA)]
  exact congrArg (fun t => step8Finish (step8AnswerB t)) (if_pos ⟨hp, rfl⟩)

theorem step8_failedA {c : Cause} (hA : s.answer 0 = .err c) :
    step8 s = lcuRaise (.registrationFailed c) { s with
      epLiveA := false
      answers := s.answers.drop 1
      drawn := s.drawn + 1
      events := s.events ++ [.reg .a (some c)] } := by
  rw [step8, step8AskA, if_pos ⟨hp, hr⟩, step8AnswerA, if_pos ⟨hp, rfl⟩,
    registerEp_err _ _ c (by exact congrArg failOf hA)]
  rfl

theorem step8_failedB {c : Cause} (hA : failOf (s.answer 0) = none) (hB : s.answer 1 = .err c) :
    step8 s = lcuRaise (.registrationFailed c) { s with
      epLiveA := true
      epLiveB := false
      answers := s.answers.drop 2
      drawn := s.drawn + 2
      events := s.events ++ [.reg .a none, .reg .b (some c)] } := by
  rw [step8_goesOn hp hr hA, step8AnswerB, if_pos ⟨hp, rfl⟩,
    registerEp_err _ _ c ((congrArg failOf (answerOf_drop s.answers s.drawn 0 1)).trans (congrArg failOf hB))]
  simp [lcuRaise, step8Finish]

theorem step8_ok (hA : failOf (s.answer 0) = none) (hB : failOf (s.answer 1) = none) :
    step8 s = lcuRespond okWord { s with
      epLiveA := true
      epLiveB := true
      lc := .running
      pcLcu := .idle
      answers := s.answers.drop 2
      drawn := s.drawn + 2
      events := s.events ++ [.reg .a none, .reg .b none] } := by
  rw [step8_goesOn hp hr hA, step8AnswerB, if_pos ⟨hp, rfl⟩,
    registerEp_ok _ _ ((congrArg failOf (answerOf_drop s.answers s.drawn 0 1)).trans hB)]
  simp [step8Finish, hp, hr, lcuRespond, State.emit]

end Step8

/-! ### The states of bring-up -/

/-- `s` with ATTACH taken and the reset line released, before the transport is configured (42 R181). -/
def State.afterReset (r : Bool) (w : Word) (s : State) : State :=
  { s with
    lc := .attaching
    lock := .lcu
    rstp := r
    reqLcu := some w
    pcLcu := .step2
    chip := if r then .unknown else s.chip
    resetLine := if r then some .inactive else s.resetLine
    events := s.events ++ resetLineTrace r }

/-- The transport configured too (42 R182). -/
def State.afterConfig (r : Bool) (w : Word) (s : State) : State :=
  { s.afterReset r w with
    pcLcu := .step3
    answers := s.answers.drop 1
    drawn := s.drawn + 1
    events := s.events ++ resetLineTrace r ++ [.cfg none] }

/-- The identity found and the concentrator reset, before step 5 (42 R183 to R185). -/
def State.afterSetup (r : Bool) (w : Word) (s : State) : State :=
  { s.afterReset r w with
    pcLcu := .step5
    tmp := some 103
    inst := true
    curPage := .page 0
    chip := .unknown
    answers := s.answers.drop 4
    drawn := s.drawn + 4
    busReply := some .done
    events := s.events ++ resetLineTrace r ++ [.cfg none, .rd 1 (.ok 103), .wr 0 0x00 none, .wr 0 0x80 none] }

/-- Bring-up before its step 8, with every exchange answered Ok (42 R180 to R188, R197). -/
def State.atStep8 (r : Bool) (w : Word) (g k x y z : Byte) (s : State) : State :=
  { s.afterReset r w with
    pcLcu := .step8
    lock := .free
    tmp := some z
    inst := true
    curPage := .page Config.hw.pageRadio
    regPhase := .start
    chip := { pages := .only Config.hw.pageRadio,
              mem := [(pagedKey Config.hw.pageRadio Config.hw.rctrlReg, z &&& ~~~radioRstMask)] }
    answers := s.answers.drop 15
    drawn := s.drawn + 15
    busReply := some .done
    events := s.events ++ attachTrace r g k x y z }

/-- What the writes of steps 5 to 7 leave of the record after a reset (20 R54): the page, and the last value of `RCTRL_REG`. -/
theorem chip_bringUp (a b c d e : Byte) :
    ((((((Chip.unknown.write 16 a false).write 17 b false).write 0 2 false).write 43 c false).write 43 d false).write 43 e
      false) = { pages := .only Config.hw.pageRadio,
                 mem := [(pagedKey Config.hw.pageRadio Config.hw.rctrlReg, e)] } := rfl

/-- The events of a full ATTACH with the registers and the masks as numbers (42 R197). -/
theorem attachTrace_eq (r : Bool) (g k x y z : Byte) : attachTrace r g k x y z = resetLineTrace r
    ++ ([.cfg none, .rd 1 (.ok 103), .wr 0 0x00 none, .wr 0 0x80 none, .rd 16 (.ok g), .wr 16 (g &&& 0xF7) none,
      .rd 17 (.ok k), .wr 17 (k &&& 0xFE) none, .wr 0 2 none, .rd 43 (.ok x), .wr 43 (x ||| 3) none, .delay 500,
      .rd 43 (.ok y), .wr 43 (y ||| 4) none, .delay 5, .rd 43 (.ok z), .wr 43 (z &&& 0xFB) none] : List Event) := by
  have hg : ~~~genMask = 0xF7 := by decide
  have hk : ~~~clkMask = 0xFE := by decide
  have hm : ~~~radioRstMask = 0xFB := by decide
  have h0 : pageValue Config.hw.pageCtrl = 0x00 := by decide
  rw [attachTrace, hg, hk, hm, h0, softResetValue_eq, radioEnMask_eq, radioRstMask_eq]
  rfl

section Attach
variable {s : State} {r : Bool} {w : Word} (hr : s.lcuReady = true) (hl : s.lc = .detached) (hk : s.lock ≠ .bsq)
include hr hl hk

theorem step1_taken : step1 (beginAttach w r s) = s.afterReset r w := by
  rw [beginAttach_ok s w r hr hl hk, step1_eq _ rfl, State.afterReset]

theorem step2_taken (h0 : failOf (s.answer 0) = none) : step2 (step1 (beginAttach w r s)) = s.afterConfig r w := by
  rw [step1_taken hr hl hk, step2_ok _ rfl (by exact h0)]
  rfl

theorem step4_taken (h0 : failOf (s.answer 0) = none) (h1 : s.answer 1 = .ok Config.hw.idExpected)
    (h2 : failOf (s.answer 2) = none) (h3 : failOf (s.answer 3) = none) :
    step4 (step3 (step2 (step1 (beginAttach w r s)))) = s.afterSetup r w := by
  rw [answer_eq] at h1 h2 h3
  rw [step2_taken hr hl hk h0,
    step3_ok _ rfl (by simpa [State.afterConfig, answerOf_drop, -List.drop_one, idExpected_eq] using h1),
    step4_ok _ rfl (by simpa [State.afterConfig, answerOf_drop] using h2)
      (by simpa [State.afterConfig, answerOf_drop] using h3)]
  simp [State.afterSetup, State.afterConfig, State.afterReset, Nat.add_assoc]

theorem step7_taken {g k x y z : Byte} (h : s.BringUpAnswers g k x y z) :
    step7 (step6 (step5 (step4 (step3 (step2 (step1 (beginAttach w r s))))))) = s.atStep8 r w g k x y z := by
  obtain ⟨h0, h1, h2, h3, h4, h5, h6, h7, h8, h9, h10, h11, h12, h13, h14⟩ := h
  rw [step4_taken hr hl hk h0 h1 h2 h3]
  simp only [answer_eq] at h4 h5 h6 h7 h8 h9 h10 h11 h12 h13 h14
  rw [step5_ok (s.afterSetup r w) g k rfl rfl (by simpa [State.afterSetup, answerOf_drop] using h4)
      (by simpa [State.afterSetup, answerOf_drop] using h5) (by simpa [State.afterSetup, answerOf_drop] using h6)
      (by simpa [State.afterSetup, answerOf_drop] using h7),
    step6_ok _ x rfl (by simp [State.afterSetup]) (by simpa [State.afterSetup, answerOf_drop] using h8)
      (by simpa [State.afterSetup, answerOf_drop] using h9) (by simpa [State.afterSetup, answerOf_drop] using h10),
    step7_ok _ y z rfl rfl (by simpa [State.afterSetup, answerOf_drop] using h11)
      (by simpa [State.afterSetup, answerOf_drop] using h12) (by simpa [State.afterSetup, answerOf_drop] using h13)
      (by simpa [State.afterSetup, answerOf_drop] using h14)]
  simp [State.atStep8, State.afterSetup, State.afterReset, Nat.add_assoc, attachTrace_eq]
  exact ⟨rfl, chip_bringUp _ _ _ _ _⟩

end Attach

end Sys2Proof.Machine

namespace Sys2Proof.Proofs

open Sys2Proof.Machine

/-- Settles O47: the check of `LC` answers before anything else. -/
theorem secondAttachIsRefused : Obligations.SecondAttachIsRefused :=
  fun r x _ hr hl => exec_attach_refused r x hr (by simp [hl])

/-- Settles O48: without an instance the answer at once; else the two unregistrations, and the last part, which has the lock. -/
theorem detachPerformed : Obligations.DetachPerformed := by
  refine fun x s hr => ⟨exec_detach_detached x hr, fun hl hk => ?_⟩
  rw [exec_detach_taken x hr, beginDetach_enters _ hl, runDetach, detachA_detachB (by rfl),
    detachEnd_destroys (by rfl) (by rfl) (by rfl) (by exact hk), okWord_eq, unregTrace_eq]
  simp [lcuRespond, State.emit, release, destroyInstance, lcuReady_idle hr]

/-- Settles O41: the configuration fails, and the unwinding has no endpoint to unregister. -/
theorem attachStopsAtTheConfiguration : Obligations.AttachStopsAtTheConfiguration := by
  intro r x c s hr hl hk hA hB ha
  rw [exec_attach_taken r x hr, runAttach, step1_taken hr hl hk, step2_failed (s := s.afterReset r _) (c := c) rfl ha,
    step3_skip (by simp [lcuRaise]),
    stepsFrom4_unwind rfl, unwind_lcuRaise (by simp [State.afterReset]), busError_word]
  simp [State.unwound, lcuRaise, State.afterReset, unregTrace_eq, hA, hB, hl, lcuReady_idle hr, Chip.unknown]

/-- Settles O42: the wrong identity is found before any write, and the unwinding has no endpoint to unregister. -/
theorem attachStopsOnAWrongIdentity : Obligations.AttachStopsOnAWrongIdentity := by
  intro r x v s hr hl hk hA hB h0 h1 hv
  have h1' : (s.afterConfig r (encodeWord (.attach r x))).answer 0 = .ok v := (answerOf_drop s.answers s.drawn 0 1).trans h1
  rw [exec_attach_taken r x hr, runAttach, step2_taken hr hl hk h0, step3_wrongIdentity rfl h1' hv, stepsFrom4_unwind rfl,
    unwind_lcuRaise (by simp [State.afterConfig, State.afterReset]), unexpectedIdentity_word]
  simp [State.unwound, lcuRaise, State.afterConfig, State.afterReset, unregTrace_eq, hA, hB, hl, lcuReady_idle hr,
    Chip.unknown, Nat.add_assoc]

/-- Settles O39: the steps one after another, and both registrations. -/
theorem attachPerformed : Obligations.AttachPerformed := by
  intro r ign g k x y z s hr hl hk h h15 h16
  have ha : ∀ j, (s.atStep8 r (encodeWord (.attach r ign)) g k x y z).answer j = s.answer (15 + j) := fun j =>
    answerOf_drop s.answers s.drawn j 15
  rw [exec_attach_taken r ign hr, runAttach, step7_taken hr hl hk h,
    step8_ok rfl rfl (by rw [ha]; exact h15) (by rw [ha]; exact h16),
    unwind_skip (by simp [lcuRespond]), okWord_eq]
  simp [lcuRespond, State.emit, State.atStep8, State.afterReset, lcuReady_idle hr, Nat.add_assoc]

/-- Settles O43: the steps one after another, the registration of A, and the unwinding after that of B. -/
theorem failedSecondRegistrationUnregistersTheFirst : Obligations.FailedSecondRegistrationUnregistersTheFirst := by
  intro r ign g k x y z c s hr hl hk h h15 h16
  have ha : ∀ j, (s.atStep8 r (encodeWord (.attach r ign)) g k x y z).answer j = s.answer (15 + j) := fun j =>
    answerOf_drop s.answers s.drawn j 15
  rw [exec_attach_taken r ign hr, runAttach, step7_taken hr hl hk h,
    step8_failedB (c := c) rfl rfl (by rw [ha]; exact h15) (by rw [ha]; exact h16),
    unwind_lcuRaise (by simp [State.atStep8]), registrationFailed_word]
  simp [State.unwound, lcuRaise, State.atStep8, State.afterReset, unregTrace_eq, hl, lcuReady_idle hr, Nat.add_assoc]

end Sys2Proof.Proofs
end

section
/-! PROOF. How an ATTACH that starts ends, whatever the environment answers (42 R180, R192, R193): attached, or unwound with
the failing event last (`AttachFailed`); and no write before the identity read (70 R269). -/

namespace Sys2Proof.Machine

/-! ### The page that bring-up leaves -/

/-- `s` is in `L_UNWIND`, or `PAGE_RADIO` is tracked. -/
def Tracks (s : State) : Prop := s.pcLcu = .unwind ∨ s.curPage = .page Config.hw.pageRadio

theorem orBusError_tracks {r : State × Option Cause} {k : State → State} (hk : r.2 = none → Tracks (k r.1)) :
    Tracks (orBusError r k) := by
  obtain ⟨t, _ | c⟩ := r
  · exact hk rfl
  · exact .inl rfl

theorem ensurePage_curPage {p : Page} {s : State} (h : (ensurePage p s).2 = none) : (ensurePage p s).1.curPage = .page p := by
  by_cases hc : s.curPage = .page p
  · rw [ensurePage_same hc]
    exact hc
  · rw [ensurePage_other hc] at h ⊢
    have h : failOf (s.answer 0) = none := h
    simp [h]

theorem rmw_curPage (a : RegAddr) (clr set : Byte) (s : State) : (rmw a clr set s).1.curPage = s.curPage := by
  rw [rmw, memRead_eq]
  cases s.answer 0 <;> rfl

/-- Step 7 ends with `PAGE_RADIO` tracked (42 R188). -/
theorem step7_tracks {s : State} (h : s.pcLcu = .step7) : Tracks (step7 s) := by
  rw [step7, if_pos h]
  refine orBusError_tracks fun _ => orBusError_tracks fun _ => orBusError_tracks fun hp => orBusError_tracks fun _ => .inr ?_
  exact (rmw_curPage _ _ _ _).trans (ensurePage_curPage hp)

/-! ### How ATTACH ends -/

/-- The events `fs` are the ones a bring-up that failed with `err` ends with (42 R192, R193, R199). -/
def FailsWith (err : CmdError) (fs : List Event) : Prop :=
  (∃ c e, err = .busError c ∧ e.FailedWith c ∧ fs = [e])
    ∨ (∃ v, err = .unexpectedIdentity v ∧ v ≠ Config.hw.idExpected ∧ fs = [.rd Config.hw.idReg (.ok v)])
    ∨ ∃ c, err = .registrationFailed c
      ∧ (fs = [.reg .a (some c)] ∨ fs = [.reg .a none, .reg .b (some c), .unreg .a])

/-- ATTACH from the trace `b` ended in `t` with an error: nothing of the instance is left. -/
def AttachFailed (b : List Event) (t : State) : Prop :=
  ∃ u err es fs, t = State.unwound (CmdError.word err) u ∧ u.respLcu = some err.word ∧ NoRegistration es
    ∧ FailsWith err fs ∧ u.events ++ unregTrace u = b ++ es ++ fs

/-- ATTACH from the trace `b` ended in `t` attached. -/
def Attached (t : State) : Prop := t.Run ∧ t.respLcu = some okWord

section Ends
variable {b : List Event} {s : State}

theorem unregTrace_dead (hA : s.epLiveA = false) (hB : s.epLiveB = false) : unregTrace s = [] := by
  rw [unregTrace_eq, hA, hB]
  rfl

/-- Bring-up that stopped before its step 8 unwinds. -/
theorem Stopped.fails (h : Stopped b s) : AttachFailed b (unwind (step8 s)) := by
  obtain ⟨hp, e, err, ⟨hk, hA, hB, -, es, hn, he⟩, hr, hc⟩ := h
  rw [step8_skip (by simp [hp]), unwind_open hp hk hr]
  refine ⟨s, err, es, [e], rfl, hr, hn, ?_, by rw [unregTrace_dead hA hB, he, List.append_nil]⟩
  rcases hc with ⟨c, rfl, hf⟩ | ⟨v, rfl, hv, rfl⟩
  · exact .inl ⟨c, e, rfl, hf, rfl⟩
  · exact .inr (.inl ⟨v, rfl, hv, rfl⟩)

/-- Bring-up that comes to its step 8 ends by the answers to the two registrations. -/
theorem OnCourse.ends (h : OnCourse b s) (hp : s.pcLcu = .step8) :
    AttachFailed b (unwind (step8 s)) ∨ (failOf (s.answer 0) = none ∧ failOf (s.answer 1) = none) := by
  obtain ⟨hk, hA, hB, hph, es, hn, he⟩ := h
  cases h0 : s.answer 0 with
  | err c =>
    rw [step8_failedA hp hph h0, unwind_lcuRaise (by exact hk)]
    refine .inl ⟨_, _, es, [.reg .a (some c)], rfl, rfl, hn, .inr (.inr ⟨c, rfl, .inl rfl⟩), ?_⟩
    simp [lcuRaise, unregTrace_eq, hB, he]
  | ok v =>
    have h0' : failOf (s.answer 0) = none := congrArg failOf h0
    cases h1 : s.answer 1 with
    | err c =>
      rw [step8_failedB hp hph h0' h1, unwind_lcuRaise (by exact hk)]
      refine .inl ⟨_, _, es, [.reg .a none, .reg .b (some c), .unreg .a], rfl, rfl, hn, .inr (.inr ⟨c, rfl, .inr rfl⟩), ?_⟩
      simp [lcuRaise, unregTrace_eq, he]
    | ok v => exact .inr ⟨rfl, rfl⟩

end Ends

/-- ATTACH taken in a state of the invariant comes to step 7 or stops before it. -/
theorem step6_taken_reaches {s : State} (w : Word) (r : Bool) (hi : s.Inv) (hr : s.lcuReady = true) (hl : s.lc = .detached)
    (hk : s.lock ≠ .bsq) :
    Reaches s.events .step7 (step6 (step5 (step4 (step3 (step2 (step1 (beginAttach w r s))))))) := by
  obtain ⟨-, -, ⟨hdet, -, -, -, -, -, hph, -⟩, ⟨hinst, -⟩, -⟩ := hi
  obtain ⟨hp, hn⟩ := hdet hl
  obtain ⟨hA, hB, -⟩ := hinst hn
  rw [beginAttach_ok s w r hr hl hk]
  exact step6_reaches (step5_reaches (step4_reaches (step3_reaches (step2_reaches (step1_reaches
    (.inl ⟨⟨by simp, hA, hB, hph (by simp [hp]), [], .nil, by simp⟩, rfl⟩))))))

/-- With both registrations answered Ok bring-up ends attached. -/
theorem attached_of_step8 {s : State} (hp : s.pcLcu = .step8) (hph : s.regPhase = .start) (hk : s.lock ≠ .bsq) (ht : Tracks s)
    (hi : (unwind (step8 s)).Inv) (h0 : failOf (s.answer 0) = none) (h1 : failOf (s.answer 1) = none) :
    Attached (unwind (step8 s)) := by
  rw [step8_ok hp hph h0 h1, unwind_skip (by simp [lcuRespond])] at hi ⊢
  obtain ⟨-, ⟨-, hlcu, -⟩, ⟨-, hrun, -⟩, -⟩ := hi
  have hfree : s.lock = .free := by
    cases hs : s.lock with
    | free => rfl
    | bsq => exact absurd hs hk
    | lcu => simp [lcuRespond, LcuPc.holdsLock, hs] at hlcu
  exact ⟨⟨rfl, (hrun rfl).2, ht.resolve_left (by simp [hp]), rfl, rfl, hfree, rfl⟩, rfl⟩

/-- An ATTACH that starts ends attached, or with nothing left. -/
theorem exec_attach_ends (r : Bool) (x : BitVec 23) {s : State} (hi : s.Inv) (hr : s.lcuReady = true) (hl : s.lc = .detached)
    (hk : s.lock ≠ .bsq) :
    ∃ t, exec (.attach r x) s = .next t ∧ (Attached t ∨ AttachFailed s.events t) := by
  have hw : (Instr.attach r x).WellFormed := trivial
  refine ⟨_, exec_attach_taken r x hr, ?_⟩
  have hinv := inv_exec hi hw (exec_attach_taken r x hr)
  have h6 := step6_taken_reaches (encodeWord (.attach r x)) r hi hr hl hk
  unfold runAttach at hinv ⊢
  generalize step6 (step5 (step4 (step3 (step2 (step1 (beginAttach (encodeWord (.attach r x)) r s)))))) = u at h6 hinv ⊢
  rcases step7_reaches h6 with ⟨hon, hp⟩ | hst
  · have ht : Tracks (step7 u) := by
      rcases h6 with ⟨-, hp6⟩ | ⟨hp6, -⟩
      · exact step7_tracks hp6
      · exact .inl (by rw [step7_skip (by simp [hp6]), hp6])
    rcases hon.ends hp with hf | ⟨h0, h1⟩
    · exact .inr hf
    · exact .inl (attached_of_step8 hp hon.2.2.2.1 hon.1 ht hinv h0 h1)
  · exact .inr hst.fails

/-! ### The response words of a failed ATTACH -/

theorem FailsWith.code {err : CmdError} {fs : List Event} (h : FailsWith err fs) :
    respCode err.word = 1 ∨ respCode err.word = 3 ∨ respCode err.word = 5 := by
  rw [respCode_word]
  rcases h with ⟨c, e, rfl, -⟩ | ⟨v, rfl, -⟩ | ⟨c, rfl, -⟩
  · exact .inl rfl
  · exact .inr (.inl rfl)
  · exact .inr (.inr rfl)

/-! ### No write before the identity read (70 R269) -/

/-- The event is no write exchange. -/
def Event.NoWrite (e : Event) : Prop := e.isWrite = false

section NoWrite
variable {s : State}

theorem Adds.mono {P Q : Event → Prop} {s t : State} (h : Adds P s t) (hq : ∀ e, P e → Q e) : Adds Q s t := by
  obtain ⟨es, he, hp⟩ := h
  exact ⟨es, he, fun e hm => hq e (hp e hm)⟩

theorem noWrite_beginAttach (w : Word) (r : Bool) (s : State) : Adds Event.NoWrite s (beginAttach w r s) := by
  unfold beginAttach attachAcquire
  dsimp only
  split
  · exact .one rfl (by rfl)
  · split <;> exact .of_eq rfl

theorem noWrite_step1 (s : State) : Adds Event.NoWrite s (step1 s) := by
  by_cases hp : s.pcLcu = .step1
  · rw [step1_eq s hp]
    exact ⟨_, rfl, by cases s.rstp <;> simp [resetLineTrace, Event.NoWrite, Event.isWrite]⟩
  · rw [step1_skip hp]
    exact .refl s

theorem noWrite_step2 (s : State) : Adds Event.NoWrite s (step2 s) := adds_if fun _ => by
  rw [configure_eq]
  cases failOf (s.answer 0) <;> exact .one rfl rfl

/-- A write needs the lock. -/
theorem noWrite_of_lockless (e : Event) (h : e.Lockless) : e.NoWrite := by
  cases e with
  | wr a v f => cases h
  | _ => rfl

theorem noWrite_unwind (s : State) : Adds Event.NoWrite s (unwind s) := (lockless_unwind s).mono noWrite_of_lockless

/-- The identity read: it finds the expected value, or bring-up unwinds. -/
theorem step3_reads (hp : s.pcLcu = .step3) :
    (step3 s).events = s.events ++ [.rd Config.hw.idReg (.ok Config.hw.idExpected)]
      ∨ ((step3 s).pcLcu = .unwind ∧ Adds Event.NoWrite s (step3 s)) := by
  cases h0 : s.answer 0 with
  | err c =>
    rw [step3, if_pos hp, memRead_eq, h0]
    exact .inr ⟨rfl, .one rfl rfl⟩
  | ok v =>
    by_cases hv : v = Config.hw.idExpected
    · rw [step3, if_pos hp, memRead_eq, h0, hv]
      exact .inl (congrArg State.events (if_pos rfl))
    · rw [step3_wrongIdentity hp h0 hv]
      exact .inr ⟨rfl, .one rfl rfl⟩

/-- After the identity read bring-up only adds to the trace. -/
theorem afterIdentity_adds (s : State) :
    ∃ es, (unwind (step8 (step7 (step6 (step5 (step4 s)))))).events = s.events ++ es := by
  obtain ⟨es, he, -⟩ := ((((lcuGoes_step4 s).trans (lcuGoes_step5 _)).trans (lcuGoes_step6 _)).trans (lcuGoes_step7 _)).trans
    (lcuGoes_step8 _) |>.2.2
  obtain ⟨fs, hf, -⟩ := lockless_unwind (step8 (step7 (step6 (step5 (step4 s)))))
  exact ⟨es ++ fs, by rw [hf, he, List.append_assoc]⟩

/-- Bring-up adds no write, or the identity read that found the expected value before the first one. -/
theorem runAttach_identity (hp : s.pcLcu = .idle ∨ s.pcLcu = .step1) :
    Adds Event.NoWrite s (runAttach s) ∨ ∃ pre post, (∀ e ∈ pre, e.isWrite = false)
      ∧ (runAttach s).events = s.events ++ (pre ++ .rd Config.hw.idReg (.ok Config.hw.idExpected) :: post) := by
  rcases hp with hp | hp
  · rw [runAttach_idle hp]
    exact .inl (.refl s)
  · have h2 : Adds Event.NoWrite s (step2 (step1 s)) := (noWrite_step1 s).trans (noWrite_step2 _)
    have unwound : ∀ t, t.pcLcu = .unwind → Adds Event.NoWrite s t →
        Adds Event.NoWrite s (unwind (step8 (step7 (step6 (step5 (step4 t)))))) := fun t ht ha => by
      rw [stepsFrom4_unwind ht]
      exact ha.trans (noWrite_unwind t)
    rw [runAttach]
    rcases step2_arrives (s := step1 s) (by rw [step1_eq s hp]) with h3 | ⟨hu, -⟩
    · rcases step3_reads h3 with hread | ⟨hu, ha⟩
      · obtain ⟨pre, hpre, hno⟩ := h2
        obtain ⟨post, hpost⟩ := afterIdentity_adds (step3 (step2 (step1 s)))
        exact .inr ⟨pre, post, hno, by rw [hpost, hread, hpre]; simp⟩
      · exact .inl (unwound _ hu (h2.trans ha))
    · rw [step3_skip (by simp [hu])]
      exact .inl (unwound _ hu h2)

end NoWrite

end Sys2Proof.Machine

namespace Sys2Proof.Proofs

open Sys2Proof.Machine

/-- Settles O44: an ATTACH that starts ends attached or unwound. -/
theorem attachLeavesAllOrNothing : Obligations.AttachLeavesAllOrNothing := by
  intro r x s hi hr hl hk
  obtain ⟨t, ht, ⟨hrun, hresp⟩ | ⟨u, err, es, fs, rfl, hresp, -, hf, -⟩⟩ := exec_attach_ends r x hi hr hl hk
  · exact ⟨t, okWord, ht, hrun.2.2.2.2.2.1, hrun.2.2.2.2.2.2, hresp, .inl ⟨hrun, okWord_eq⟩⟩
  · exact ⟨_, _, ht, rfl, rfl, rfl, .inr ⟨rfl, rfl, rfl, rfl, rfl, hf.code⟩⟩

/-- Settles O45: the error of an ATTACH that is unwound is made from its failing event. -/
theorem failedBringUpReportsItsCause : Obligations.FailedBringUpReportsItsCause := by
  intro r x s t w hi hr hl hk ht hw hc
  obtain ⟨t', ht', hend⟩ := exec_attach_ends r x hi hr hl hk
  obtain rfl := Host.Outcome.next.inj (ht.symm.trans ht')
  rcases hend with ⟨-, hok⟩ | ⟨u, err, es, fs, rfl, -, ⟨hreg, hunreg⟩, hf, he⟩
  · obtain rfl := Option.some.inj (hw.symm.trans hok)
    exact absurd (by decide) hc
  · obtain rfl : err.word = w := Option.some.inj hw
    have hev : (u.unwound err.word).events = s.events ++ es ++ fs ++ [.resp err.word] := by
      rw [← he]
      rfl
    refine ⟨es, hreg, hunreg, ?_⟩
    rw [hev]
    rcases hf with ⟨c, e, rfl, hfw, rfl⟩ | ⟨v, rfl, hv, rfl⟩ | ⟨c, rfl, hfs⟩
    · have hcause : respCause (CmdError.busError c).word = c := (responseWord_fields _ _ _ _ _ _).2.2.2.1
      rw [hcause]
      exact .inl ⟨busError_word c, e, by simp, hfw⟩
    · have hdata : respRdata (CmdError.unexpectedIdentity v).word = v := (responseWord_fields _ _ _ _ _ _).2.2.2.2.1
      rw [hdata]
      exact .inr (.inl ⟨unexpectedIdentity_word v, hv, by simp⟩)
    · have hcause : respCause (CmdError.registrationFailed c).word = c := (responseWord_fields _ _ _ _ _ _).2.2.2.1
      rw [hcause]
      refine .inr (.inr ⟨registrationFailed_word c, ?_⟩)
      rcases hfs with rfl | rfl
      · exact .inl (by simp)
      · exact .inr (by simp)

/-- Settles O46: up to the identity read bring-up makes no write, and where the read finds another value it makes none later. -/
theorem identityBeforeAnyWrite : Obligations.IdentityBeforeAnyWrite := by
  intro r x s t ht
  cases hr : s.lcuReady with
  | false =>
    rw [exec_attach_busy r x hr] at ht
    obtain rfl := Host.Outcome.next.inj ht
    exact ⟨[], by simp, .inl (by simp)⟩
  | true =>
    rw [exec_attach_taken r x hr] at ht
    obtain rfl := Host.Outcome.next.inj ht
    have hb := noWrite_beginAttach (encodeWord (.attach r x)) r s
    rcases runAttach_identity (beginAttach_pcLcu (encodeWord (.attach r x)) r hr) with h | ⟨pre, post, hno, he⟩
    · obtain ⟨es, he, hno⟩ := hb.trans h
      exact ⟨es, he, .inl hno⟩
    · obtain ⟨fs, hf, hfs⟩ := hb
      refine ⟨fs ++ (pre ++ _ :: post), by rw [he, hf, List.append_assoc], .inr ⟨fs ++ pre, post, by simp, ?_⟩⟩
      exact fun e hm => (List.mem_append.1 hm).elim (hfs e) (hno e)

end Sys2Proof.Proofs
end

section
/-! PROOF. The two BUS frames (30 R98 to R103), and what is recorded of the concentrator after a write frame (logs 7 to 9,
12). -/

namespace Sys2Proof.Machine

/-! ### The record after a write exchange -/

/-- The key of a register is the key of a pair of a page and its address (20 R51, R53). -/
theorem regKey_eq_pagedKey (p : Page) (a : RegAddr) : ∃ q, regKey p a = pagedKey q a := by
  cases hf : pageFree a with
  | true => exact ⟨0, by simp [regKey, hf, pagedKey]⟩
  | false => exact ⟨p, by simp [regKey, hf]⟩

/-- Registers of two addresses have two keys. -/
theorem regKey_ne {a b : RegAddr} (h : b ≠ a) (p q : Page) : regKey q b ≠ regKey p a := by
  obtain ⟨p', hp⟩ := regKey_eq_pagedKey p a
  obtain ⟨q', hq⟩ := regKey_eq_pagedKey q b
  rw [hp, hq]
  exact fun hk => h (pagedKey_inj hk).2

section Record
variable {c : Chip} {a : RegAddr} (v : Byte)

theorem pageFree_false (hp : a ≠ Config.hw.pageReg) (hi : a ≠ Config.hw.idReg) : pageFree a = false := by
  simp [pageFree, hp, hi]

/-- A write to a register of a page: recorded in the one page that may be selected, and otherwise the record is dropped. -/
theorem Chip.write_paged (hp : a ≠ Config.hw.pageReg) (hi : a ≠ Config.hw.idReg) (failed : Bool) :
    (∃ q, failed = false ∧ c.pages.single = some q
        ∧ c.write a v failed = { c with mem := c.mem.write (pagedKey q a) v })
      ∨ ((failed = true ∨ c.pages.single = none) ∧ c.write a v failed = c.forget a) := by
  have hf := pageFree_false hp hi
  cases failed with
  | true => exact .inr ⟨.inl rfl, by simp [Chip.write, hp]⟩
  | false =>
    cases hs : c.pages.single with
    | none => exact .inr ⟨.inr rfl, by simp [Chip.write, Chip.record, hp, hf, hs]⟩
    | some q => exact .inl ⟨q, rfl, rfl, by simp [Chip.write, Chip.record, hp, hf, hs, regKey]⟩

end Record

/-- The values of a page are the ones below `N_PAGES` (20 R54). -/
theorem pageMask_iff (v : Byte) : v &&& ~~~Config.hw.pageMask = 0 ↔ v.toNat < Config.hw.nPages := by
  revert v
  decide

end Sys2Proof.Machine

namespace Sys2Proof.Proofs

open Sys2Proof.Machine

/-- Settles O51: a frame is the one exchange. -/
theorem framesAreOneExchange : Obligations.FramesAreOneExchange := by
  intro a v s
  constructor
  · rw [exec, execBusWr, memWrite_eq]
    cases s.answer 0 <;> rfl
  · rw [exec, execBusRd, memRead_eq]
    cases s.answer 0 <;> rfl

/-- Settles O53 by the branches of the page register: a page answered Ok, a page answered Err, and any other value. -/
theorem pageRegisterFrame : Obligations.PageRegisterFrame := by
  intro v s t ht
  rw [exec, execBusWr, memWrite_eq, Chip.write, if_pos rfl, Chip.pageReg] at ht
  obtain rfl := Host.Outcome.next.inj ht
  refine ⟨fun hv ha => ?_, fun c hv ha => ?_, fun hv => ?_⟩
  · have hv := (pageMask_iff v).2 hv
    simp [hv, ha]
  · have hv := (pageMask_iff v).2 hv
    simp [hv, ha, failOf_err, PageSet.mem_insert]
  · have hv : v &&& ~~~Config.hw.pageMask ≠ 0 := fun h => absurd ((pageMask_iff v).1 h) (by omega)
    simp only [if_pos hv]
    exact ⟨PageSet.mem_all, fun _ => rfl⟩

/-- Settles O52 by the two cases of a write to a paged register. -/
theorem writeFrameRecord : Obligations.WriteFrameRecord := by
  intro a v p s t hp hi ht
  rw [exec, execBusWr, memWrite_eq] at ht
  obtain rfl := Host.Outcome.next.inj ht
  have hf := pageFree_false hp hi
  have hother : ∀ (q : Page) (b : RegAddr), b ≠ a → ∀ p, regKey q b ≠ regKey p a := fun q b hb p => regKey_ne hb p q
  refine ⟨fun ha hs => ?_, fun hc hm => ?_, fun hm => ?_, fun q b hb => Chip.read_write_other v _ hp (hother q b hb), ?_⟩
    <;> dsimp only
    <;> rcases Chip.write_paged (c := s.chip) v hp hi (failOf (s.answer 0)).isSome with ⟨q, hn, hq, hw⟩ | ⟨h, hw⟩
    <;> rw [hw]
  · rw [hs, PageSet.single_only] at hq
    obtain rfl := Option.some.inj hq
    exact Memory.read_write_same _ _ _
  · simp [ha, hs, PageSet.single_only] at h
  · rcases hc with ⟨c, hc⟩ | hc
    · simp [hc, failOf_err] at hn
    · simp [hc] at hq
  · rw [Chip.read_forget_paged _ _ hf, if_pos hm]
  · refine Memory.read_write_other _ _ fun hk => ?_
    rw [(pagedKey_inj hk).1, PageSet.mem_single hq] at hm
    cases hm
  · rw [Chip.read_forget_paged _ _ hf, if_neg (by simp [hm])]
  · rfl

end Sys2Proof.Proofs
end
